-- ==== Sys2Proof/Word.lean ====
section
/-! DEFINITION. The word types of BMCRX: what the spec treats as bits (00_scope.md R16). -/

namespace Sys2Proof

/-- One byte: a decoded PCM byte, a header byte, a byte of the raw block's byte view. -/
abbrev Byte := BitVec 8

/-- A 16-bit BMC half, or a 16-bit PCM sample (00_scope.md, glossary). -/
abbrev Half := BitVec 16

/-- A 32-bit word: a raw word, a command word, a register value. -/
abbrev Word := BitVec 32

end Sys2Proof
end

