-- ==== Sys2Proof/Config.lean ====
section
/-! DEFINITION. What an instance of BMCRX fixes (00_scope.md R6 to R14), the moves of its agents (R5), and the one
free value of the model: the move drawn when none is placed. -/

namespace Sys2Proof

/-- The five opaque bytes of the stream-format header (00_scope.md R12, 30_encoding.md R86). -/
structure Header where
  b0 : Byte
  b1 : Byte
  b2 : Byte
  b3 : Byte
  b4 : Byte
deriving DecidableEq, Repr

/-- `HDR[0] .. HDR[4]` in order. -/
def Header.bytes (h : Header) : List Byte := [h.b0, h.b1, h.b2, h.b3, h.b4]

/-- A symbol table as plain data: the entries in which it differs from `REF_SYMTAB` (00_scope.md R13,
40_symbol_table.md R102). Every total function from 16-bit patterns to bytes has this form (log 2). -/
abbrev SymTab := List (Half × Byte)

/-- The parameters of one instance: fixed for its life, written by no step (00_scope.md R6 to R13). The spec leaves
their values open; `Params.Wf` of WellFormed.lean holds their constraints. -/
structure Params where
  /-- `BLOCK_WORDS`, R6. -/
  blockWords : Nat
  /-- `CHUNK`, R7. -/
  chunk : Nat
  /-- `ACC_CAP`, R8. -/
  accCap : Nat
  /-- `DATA_PHASE`, R9: which word of a pair carries the sample. -/
  dataPhase : Fin 2
  /-- `SYNC_OFFSET`, R10: a byte offset in the byte view of the raw block. -/
  syncOffset : Nat
  /-- `SYNC_FLIP`, R11. -/
  syncFlip : Byte
  /-- `HDR`, R12. -/
  hdr : Header
  /-- `SYMTAB`, R13. -/
  symtab : SymTab
deriving DecidableEq, Repr

/-- `HDR_LEN = 5` (00_scope.md R14). -/
def hdrLen : Nat := 5

/-- `PAY_LEN = HDR_LEN + CHUNK` (00_scope.md R14). -/
def Params.payLen (p : Params) : Nat := hdrLen + p.chunk

/-- The raw block's size in bytes, `4*BLOCK_WORDS` (00_scope.md R14). -/
def Params.rawBytes (p : Params) : Nat := 4 * p.blockWords

/-- The datagram sink's two answers (43_accumulator_framer.md R153). -/
inductive SinkAnswer where
  | ok
  | error
deriving DecidableEq, Repr, Inhabited

/-- One atomic step of one agent (00_scope.md R5, R15): the action lines `cmd`/`wr`, `rd` and `env` of 30_encoding.md
R85, the sequencer's own step, and the reset input. What the spec calls a free draw (the delivered words, deliver or
fault, the sink's answer: 93 I7 to I9) is an argument of the move or the choice of it. -/
inductive Move where
  /-- The host writes a 32-bit value at a byte offset of the register port (20_memory.md R57). -/
  | hostWrite (off : BitVec 8) (v : Word)
  /-- The host reads the register at a byte offset (20_memory.md R57). -/
  | hostRead (off : BitVec 8)
  /-- The acquisition agent delivers a raw block (41_acquire_align.md R112). -/
  | deliver (ws : List Word)
  /-- The acquisition agent reports a hardware fault (41_acquire_align.md R113). -/
  | acqFault
  /-- The sink answers the outstanding submission (43_accumulator_framer.md R153). -/
  | sinkAnswer (r : SinkAnswer)
  /-- The sequencer's own step (44_sequencer_control.md R182). -/
  | sequencer
  /-- The reset input is asserted (70_reset_and_hazards.md R230). -/
  | resetInput
deriving DecidableEq, Repr, Inhabited

/-- FREE VALUE (93 I7 to I10). The `k`-th move drawn when no move is placed in the agenda: any agent, any
interleaving, any delivered words and answers. It has no body, so nothing can be proved of its value (log 5). -/
opaque Config.freeMove : Nat → Move

/-- Configuration TC1 of 95_test_vectors.md section 0, with the reference header (R12), the default data phase (R9)
and the reference table (R13). DESIGN CHOICE (log 1): only the parameters of `State.reset`, which the spec leaves open. -/
def Config.tc1 : Params where
  blockWords := 4
  chunk := 4
  accCap := 12
  dataPhase := 1
  syncOffset := 2
  syncFlip := 0x0A
  hdr := { b0 := 0x01, b1 := 0x10, b2 := 0x02, b3 := 0x00, b4 := 0x00 }
  symtab := []

end Sys2Proof
end

