-- ==== Sys2Proof/Machine/SymTab.lean ====
section
/-! DEFINITION. The BMC line code in a 16-bit half and the symbol table (30_encoding.md R70 to R76,
40_symbol_table.md R100 to R104). -/

namespace Sys2Proof.Machine

open Sys2Proof

/-- Line cell `c_k = h[15-k]`: bit 15 is the first cell on the line (30_encoding.md R71; log 3). -/
def cell (h : Half) (k : Nat) : Bool := h.getLsbD (15 - k)

/-- A half whose only possible 1 is cell `k`. -/
def cellBit (k : Nat) (c : Bool) : Half := if c then 1#16 <<< (15 - k) else 0#16

/-- The `n` data bits from bit `i` on, starting at level `L`, added to the cells `h` (30_encoding.md R72, the loop). -/
def encLoop (v : Byte) : Nat → Nat → Bool → Half → Half × Bool
  | 0, _, L, h => (h, L)
  | n + 1, i, L, h =>
    let first := !L
    let second := first ^^ v.getLsbD i
    encLoop v n (i + 1) second (h ||| cellBit (2 * i) first ||| cellBit (2 * i + 1) second)

/-- The forward encoder `ENC(v, L)`: 16 cells and the final level (30_encoding.md R72; log 3). -/
def enc (v : Byte) (L : Bool) : Half × Bool := encLoop v 8 0 L 0#16

/-- Every bit cell but the first starts with a transition: `c_{2i} != c_{2i-1}` for `i` in `1..7`
(30_encoding.md R72, the equivalent form of "valid pattern"). -/
def startsWithTransitions (h : Half) : Bool :=
  (List.range 7).all fun j => cell h (2 * (j + 1)) != cell h (2 * (j + 1) - 1)

/-- Data bit `i` as `REF_SYMTAB` reads it: the exclusive-or of the two cells of bit cell `i` (40_symbol_table.md R100). -/
def refBit (h : Half) (i : Nat) : Bool := cell h (2 * i) ^^ cell h (2 * i + 1)

/-- The reference table `REF_SYMTAB` (40_symbol_table.md R100): bit `i` of the byte is `refBit h i`. -/
def refSymtab (h : Half) : Byte :=
  BitVec.ofBool (refBit h 7) ++ BitVec.ofBool (refBit h 6) ++ BitVec.ofBool (refBit h 5) ++ BitVec.ofBool (refBit h 4) ++
    BitVec.ofBool (refBit h 3) ++ BitVec.ofBool (refBit h 2) ++ BitVec.ofBool (refBit h 1) ++ BitVec.ofBool (refBit h 0)

/-- The instance's symbol table `SYMTAB(h)`: total and pure (40_symbol_table.md R102). -/
def symtab (p : Params) (h : Half) : Byte :=
  match p.symtab.lookup h with
  | some b => b
  | none => refSymtab h

/-- The data word `word(s, L)` of a sample (30_encoding.md R76): the high half encodes `s[15:8]` from level `L`, the
low half encodes `s[7:0]` from the level the high half ended on. For building test words only. -/
def dataWord (s : Half) (L : Bool) : Word :=
  let hi := enc (s.extractLsb' 8 8) L
  let lo := enc (s.extractLsb' 0 8) hi.2
  hi.1 ++ lo.1

end Sys2Proof.Machine
end

