-- ==== Sys2Proof/Syntax.lean ====
section
/-! DEFINITION. The eleven commands of BMCRX: one constructor per row of spec/opcode_table.json (30_encoding.md R82),
and the pseudo-instructions of R85 that stand for one command. -/

namespace Sys2Proof

/-- A command (30_encoding.md R82). `demod` carries its byte count, a number (R81: `0 <= n <= 65535`, checked in
WellFormed.lean); `tlook` carries its 16-bit pattern. -/
inductive Instr where
  /-- R173: no operation. -/
  | nop
  /-- R110: request one raw block. -/
  | acq
  /-- R120: correct the sync-flip artifact in the current block. -/
  | align
  /-- R130: demodulate up to `n` bytes. -/
  | demod (n : Nat)
  /-- R150: take one chunk and submit one payload. -/
  | emit
  /-- R155: submit payloads while a whole chunk is available. -/
  | drain
  /-- R171: one full capture cycle. -/
  | cycle
  /-- R172: start the perpetual capture loop. -/
  | run
  /-- R103: look up one table entry. -/
  | tlook (h : Half)
  /-- R174: clear the sticky error flags. -/
  | clrst
  /-- R175: soft reset. -/
  | srst
deriving DecidableEq, Repr

/-- `cmd DEMOD.ALL` is `cmd DEMOD 0xFFFF` (30_encoding.md R85). -/
def Instr.demodAll : Instr := .demod 0xFFFF

/-- `cmd RESET` is `cmd SRST` (30_encoding.md R85). -/
def Instr.resetPseudo : Instr := .srst

/-- `cmd CLEAR` is `cmd CLRST` (30_encoding.md R85). -/
def Instr.clearPseudo : Instr := .clrst

/-- The always-accepted commands `ALWAYS = {NOP, TLOOK, CLRST, SRST}` (44_sequencer_control.md R170). -/
def Instr.always : Instr → Bool
  | .nop => true
  | .acq => false
  | .align => false
  | .demod _ => false
  | .emit => false
  | .drain => false
  | .cycle => false
  | .run => false
  | .tlook _ => true
  | .clrst => true
  | .srst => true

end Sys2Proof
end

