-- ==== Sys2Proof/WellFormed.lean ====
section
/-! DEFINITION. Well-formed commands (30_encoding.md R81) and admissible instances (00_scope.md R6 to R13). -/

namespace Sys2Proof

/-- A command whose operand fits IMM16 (30_encoding.md R81: for DEMOD `0 <= n <= 65535`). -/
def Instr.wf : Instr → Bool
  | .nop => true
  | .acq => true
  | .align => true
  | .demod n => decide (n ≤ 65535)
  | .emit => true
  | .drain => true
  | .cycle => true
  | .run => true
  | .tlook _ => true
  | .clrst => true
  | .srst => true

/-- `BLOCK_WORDS` is even and `2 <= BLOCK_WORDS < 2^31` (00_scope.md R6). -/
abbrev Params.BlockWordsOk (p : Params) : Prop :=
  p.blockWords % 2 = 0 ∧ 2 ≤ p.blockWords ∧ p.blockWords < 2 ^ 31

/-- `1 <= CHUNK` and `5 + CHUNK < 2^32` (00_scope.md R7). -/
abbrev Params.ChunkOk (p : Params) : Prop := 1 ≤ p.chunk ∧ 5 + p.chunk < 2 ^ 32

/-- `ACC_CAP >= 2*CHUNK + BLOCK_WORDS` and `ACC_CAP < 2^32` (00_scope.md R8). -/
abbrev Params.AccCapOk (p : Params) : Prop := 2 * p.chunk + p.blockWords ≤ p.accCap ∧ p.accCap < 2 ^ 32

/-- `SYNC_OFFSET < 4*BLOCK_WORDS` and `SYNC_OFFSET <= 0xFFFF` (00_scope.md R10). -/
abbrev Params.SyncOffsetOk (p : Params) : Prop := p.syncOffset < 4 * p.blockWords ∧ p.syncOffset ≤ 0xFFFF

/-- `SYNC_FLIP != 0x00` (00_scope.md R11). -/
abbrev Params.SyncFlipOk (p : Params) : Prop := p.syncFlip ≠ 0x00#8

/-- The inversion constraint `SYMTAB(ENC(v, L).h) = v` (40_symbol_table.md R101). -/
abbrev Params.SymtabOk (p : Params) : Prop := ∀ (v : Byte) (L : Bool), Machine.symtab p (Machine.enc v L).1 = v

/-- The instance meets every constraint of 00_scope.md R6 to R13 (R9 and R12 hold by the types). -/
structure Params.Wf (p : Params) : Prop where
  blockWords : p.BlockWordsOk
  chunk : p.ChunkOk
  accCap : p.AccCapOk
  syncOffset : p.SyncOffsetOk
  syncFlip : p.SyncFlipOk
  symtab : p.SymtabOk

end Sys2Proof
end

