-- ==== Sys2Proof/Decode.lean ====
section
/-! DEFINITION. The command word (30_encoding.md R80 to R84): the decoder, total on 32-bit words and refusing by name,
and the encoder. -/

namespace Sys2Proof

/-- `OPC = c[7:0]` (30_encoding.md R80). -/
def opcOf (c : Word) : Byte := c.extractLsb' 0 8

/-- `RSV = c[15:8]` (30_encoding.md R80). -/
def rsvOf (c : Word) : Byte := c.extractLsb' 8 8

/-- `IMM16 = c[31:16]` (30_encoding.md R80, R81). -/
def immOf (c : Word) : Half := c.extractLsb' 16 16

/-- Why a word is no command: the first two checks of 44_sequencer_control.md R170 (30_encoding.md R83). -/
inductive DecodeError where
  /-- Reason 1: `RSV != 0`, or `IMM16 != 0` on an opcode without operand. -/
  | illegalBits
  /-- Reason 2: a reserved opcode, `0x0B..0xFF`. -/
  | reservedOpcode
deriving DecidableEq, Repr

/-- The opcodes that carry an operand, DEMOD and TLOOK (30_encoding.md R80). -/
def takesOperand (opc : Byte) : Bool := opc == 0x03#8 || opc == 0x08#8

/-- The command selected by an opcode, with its operand (30_encoding.md R81, R82). -/
def instrOf (opc : Byte) (imm : Half) : Option Instr :=
  if opc = 0x00#8 then some .nop
  else if opc = 0x01#8 then some .acq
  else if opc = 0x02#8 then some .align
  else if opc = 0x03#8 then some (.demod imm.toNat)
  else if opc = 0x04#8 then some .emit
  else if opc = 0x05#8 then some .drain
  else if opc = 0x06#8 then some .cycle
  else if opc = 0x07#8 then some .run
  else if opc = 0x08#8 then some (.tlook imm)
  else if opc = 0x09#8 then some .clrst
  else if opc = 0x0A#8 then some .srst
  else none

/-- The decoder: the word's two checks in the order of 44_sequencer_control.md R170, then the opcode map. -/
def decode (c : Word) : Except DecodeError Instr :=
  if rsvOf c ≠ 0#8 ∨ (immOf c ≠ 0#16 ∧ takesOperand (opcOf c) = false) then .error .illegalBits
  else
    match instrOf (opcOf c) (immOf c) with
    | some i => .ok i
    | none => .error .reservedOpcode

/-- The opcode of a command (30_encoding.md R82). -/
def Instr.opc : Instr → Byte
  | .nop => 0x00#8
  | .acq => 0x01#8
  | .align => 0x02#8
  | .demod _ => 0x03#8
  | .emit => 0x04#8
  | .drain => 0x05#8
  | .cycle => 0x06#8
  | .run => 0x07#8
  | .tlook _ => 0x08#8
  | .clrst => 0x09#8
  | .srst => 0x0A#8

/-- The operand field of a command: `n` for DEMOD, the pattern for TLOOK, 0 for every other (30_encoding.md R81). -/
def Instr.imm : Instr → Half
  | .nop => 0#16
  | .acq => 0#16
  | .align => 0#16
  | .demod n => BitVec.ofNat 16 n
  | .emit => 0#16
  | .drain => 0#16
  | .cycle => 0#16
  | .run => 0#16
  | .tlook h => h
  | .clrst => 0#16
  | .srst => 0#16

/-- The encoder: the word `{IMM16, 0x00, OPC}` of a command (30_encoding.md R80). -/
def encode (i : Instr) : Word := i.imm ++ 0x00#8 ++ i.opc

/-- `cmd`: the host's write of a command's word to CMD (30_encoding.md R85, 10_state.md R34). -/
def Move.cmd (i : Instr) : Move := .hostWrite 0x00#8 (encode i)

/-- The command read from an opcode-table row's word `w`, every bit at `nbits` and above being 0. A command is exactly
one 32-bit word (30_encoding.md R84), so a number that does not fit one is no command. -/
def decodeTableWord (nbits w : Nat) : Option Instr :=
  let c := w % 2 ^ nbits
  if c < 2 ^ 32 then
    match decode (BitVec.ofNat 32 c) with
    | .ok i => some i
    | .error _ => none
  else none

end Sys2Proof
end

