-- ==== Sys2Proof/Machine/Memory.lean ====
section
/-! DEFINITION. One internal memory as plain data: a list of (address, byte) pairs with rising addresses. A byte that is
not listed holds no value (10_state.md R23, R25, R27, R39; log 8). -/

namespace Sys2Proof.Machine

open Sys2Proof

/-- The contents of one memory: what is listed holds that byte, what is not listed holds no value. -/
abbrev Memory := List Host.Cell

/-- The canonical form: addresses strictly rising. No listed entry can equal "no value", so this is all of it. -/
abbrev Memory.wf (m : Memory) : Prop := List.Pairwise (fun c d : Host.Cell => c.1 < d.1) m

/-- What the byte at an address holds: `none` is "no value" (10_state.md R39). -/
def Memory.read : Memory → Nat → Option Byte
  | [], _ => none
  | (k, v) :: m, a => if a = k then some v else Memory.read m a

/-- The byte at an address replaced, in the canonical form. -/
def Memory.write : Memory → Nat → Byte → Memory
  | [], a, b => [(a, b)]
  | (k, v) :: m, a, b =>
    if a < k then (a, b) :: (k, v) :: m
    else if a = k then (a, b) :: m
    else (k, v) :: Memory.write m a b

/-- Every byte at address `n` and above takes "no value" (10_state.md R25). -/
def Memory.dropFrom (m : Memory) (n : Nat) : Memory := m.filter fun c => decide (c.1 < n)

/-- The memory that holds exactly these bytes, the first at address `a`. -/
def Memory.ofBytes : Nat → List Byte → Memory
  | _, [] => []
  | a, b :: bs => (a, b) :: Memory.ofBytes (a + 1) bs

end Sys2Proof.Machine
end

