-- ==== Sys2Proof/Machine/State.lean ====
section
/-! DEFINITION. The state of one BMCRX instance (10_state.md R20), its reset (R39), and the reasons a step can stop. -/

namespace Sys2Proof.Machine

open Sys2Proof

/-- `STATE`, the capture sequencer's state (10_state.md R21). Codes 5 and 6 are never held (93 I6). -/
inductive SeqState where
  | idle
  | acq
  | align
  | demod
  | emit
  | fault
deriving DecidableEq, Repr

/-- `SEQ_OP`, the command that started the operation in progress (10_state.md R22). -/
inductive SeqOp where
  | none
  | acq
  | emit
  | drain
  | cycle
  | run
deriving DecidableEq, Repr

/-- `BADCODE`, the reason of the first refusal recorded (60_exceptions.md R202). Codes 5 to 15 are never held. -/
inductive BadCode where
  /-- 0: no refusal recorded. -/
  | none
  /-- 1: illegal bits. -/
  | illegalBits
  /-- 2: reserved opcode. -/
  | reservedOpcode
  /-- 3: block faulted. -/
  | faulted
  /-- 4: block busy or in run mode. -/
  | busy
deriving DecidableEq, Repr

/-- The internal memories the rules access by address (20_memory.md R50). -/
inductive Space where
  | raw
  | acc
  | pay
deriving DecidableEq, Repr

/-- The state: every element of 10_state.md R20, then the model's own fields. -/
structure State where
  /-- `STATE`, R21. -/
  state : SeqState
  /-- `SEQ_OP`, R22. -/
  seqOp : SeqOp
  /-- `RAW`, R23, in its byte view (20_memory.md R53; log 8). -/
  raw : Memory
  /-- `CUR`, R24. -/
  cur : Nat
  /-- `ACC`, R25. -/
  acc : Memory
  /-- `FILL`, R26. -/
  fill : Nat
  /-- `PAY`, R27. -/
  pay : Memory
  /-- `PEND`, R27. -/
  pend : Bool
  /-- `RUN`, R28. -/
  run : Bool
  /-- `FATAL`, R28. -/
  fatal : Bool
  /-- `BADCMD`, R28. -/
  badcmd : Bool
  /-- `BADCODE`, R28. -/
  badcode : BadCode
  /-- `LASTBAD`, R30. -/
  lastbad : Word
  /-- `DROP`, R28. -/
  drop : Bool
  /-- `SYNCFIX`, R28. -/
  syncfix : Bool
  /-- `CLAMP`, R28. -/
  clamp : Bool
  /-- `IE`, R30, R36: bit 0 FATAL_IE, bit 1 BADCMD_IE, bit 2 DROP_IE (register bits 8, 9, 10). -/
  ie : BitVec 3
  /-- `RESULT`, R30. -/
  result : Word
  /-- `BLK_CNT`, R29. -/
  blkCnt : Word
  /-- `FIX_CNT`, R29. -/
  fixCnt : Word
  /-- `SENT_CNT`, R29. -/
  sentCnt : Word
  /-- `DROP_CNT`, R29. -/
  dropCnt : Word
  /-- MODEL'S OWN (log 1): the instance's parameters, which no step writes (R20). -/
  params : Params
  /-- MODEL'S OWN (log 4): the agents' moves still to be taken, the next one first. -/
  agenda : List Move
  /-- MODEL'S OWN (log 5): how many moves were drawn freely so far. -/
  draws : Nat
  /-- MODEL'S OWN (log 7): what the register port returned to the host's last read. -/
  rdata : Word
deriving DecidableEq, Repr

/-- The two accesses 93_implementation_defined.md calls "fault (never reached)". Both are safe: the model stops. -/
inductive Fault where
  /-- A read of a byte that holds no value (93 I3, I4, I5). Raised by `readByte`. Safe. -/
  | noValue (sp : Space) (addr : Nat)
  /-- An access outside a memory's size (20_memory.md R50). Raised by `readByte` and `writeByte`. Safe. -/
  | outOfSpace (sp : Space) (addr : Nat)
deriving DecidableEq, Repr

/-- Why a move has no step in the model. Every one is safe: the model stops where the spec gives no step (log 6). -/
inductive Refusal where
  /-- An instruction without a meaning. Raised by no arm of this model. Safe. -/
  | notModelled (mnemonic : String)
  /-- A delivery or an acquisition fault while `acq_req = 0` (41_acquire_align.md R111, 93 I18). Raised by `deliver`
  and `acqFault`. Safe. -/
  | noBlockRequest
  /-- A delivery that is not one whole raw block (41_acquire_align.md R112). Raised by `deliver`. Safe. -/
  | notOneWholeBlock
  /-- A sink answer while `send_req = 0` (43_accumulator_framer.md R152, 93 I18). Raised by `sinkAnswer`. Safe. -/
  | noSubmission
  /-- A sequencer step while STATE is neither ALIGN nor DEMOD (44_sequencer_control.md R182). Raised by
  `sequencerStep`. Safe. -/
  | noSequencerStep
deriving DecidableEq, Repr

/-- The state right after reset of an instance with parameters `p` (10_state.md R39). "No value" is an empty memory. -/
def State.resetOf (p : Params) : State where
  state := .idle
  seqOp := .none
  raw := []
  cur := p.blockWords
  acc := []
  fill := 0
  pay := []
  pend := false
  run := false
  fatal := false
  badcmd := false
  badcode := .none
  lastbad := 0#32
  drop := false
  syncfix := false
  clamp := false
  ie := 0#3
  result := 0#32
  blkCnt := 0#32
  fixCnt := 0#32
  sentCnt := 0#32
  dropCnt := 0#32
  params := p
  agenda := []
  draws := 0
  rdata := 0#32

/-- The machine right after reset (10_state.md R39, 70_reset_and_hazards.md R230), for the instance of log 1. -/
def State.reset : State := State.resetOf Config.tc1

end Sys2Proof.Machine
end

