-- ==== Sys2Proof/Machine/Flags.lean ====
section
/-! DEFINITION. The status flags, the ports derived from the state, and the interrupt line (10_state.md R35, R36,
41_acquire_align.md R111, 42_demodulator.md R132, R135, 43_accumulator_framer.md R152, 60_exceptions.md R205). -/

namespace Sys2Proof.Machine

open Sys2Proof

/-- The 3-bit code of `STATE` (10_state.md R21). -/
def SeqState.code : SeqState → BitVec 3
  | .idle => 0
  | .acq => 1
  | .align => 2
  | .demod => 3
  | .emit => 4
  | .fault => 7

/-- The 4-bit code of `BADCODE` (60_exceptions.md R202). -/
def BadCode.code : BadCode → BitVec 4
  | .none => 0
  | .illegalBits => 1
  | .reservedOpcode => 2
  | .faulted => 3
  | .busy => 4

/-- `BUSY`: an operation is in progress (10_state.md R35). -/
def State.busy (s : State) : Bool :=
  match s.state with
  | .idle => false
  | .acq => true
  | .align => true
  | .demod => true
  | .emit => true
  | .fault => false

/-- `BLKVALID`: the block has pairs left (10_state.md R35). -/
def State.blkvalid (s : State) : Bool := decide (s.cur < s.params.blockWords)

/-- `CHUNKRDY`: a whole chunk is in the accumulator (10_state.md R35). -/
def State.chunkrdy (s : State) : Bool := decide (s.params.chunk ≤ s.fill)

/-- The STATUS register, bit 31 first (10_state.md R35). -/
def State.status (s : State) : Word :=
  0#16 ++ s.badcode.code ++ BitVec.ofBool s.syncfix ++ BitVec.ofBool s.drop ++ BitVec.ofBool s.badcmd ++
    BitVec.ofBool s.fatal ++ BitVec.ofBool s.clamp ++ BitVec.ofBool s.chunkrdy ++ BitVec.ofBool s.blkvalid ++
    BitVec.ofBool s.busy ++ BitVec.ofBool s.run ++ s.state.code

/-- The IE register as the host reads it: the three enables at bits 10:8, every other bit hardwired 0 (10_state.md
R36). -/
def State.ieReg (s : State) : Word := 0#21 ++ s.ie ++ 0#8

/-- The three enables of a value written to IE: `v & 0x00000700` (10_state.md R36). -/
def ieOf (v : Word) : BitVec 3 := v.extractLsb' 8 3

/-- `acq_req` (41_acquire_align.md R111). -/
def State.acqReq (s : State) : Bool := decide (s.state = .acq)

/-- `send_req` (43_accumulator_framer.md R152). -/
def State.sendReq (s : State) : Bool := s.pend

/-- `irq = (FATAL and IE[8]) or (BADCMD and IE[9]) or (DROP and IE[10])` (60_exceptions.md R205). -/
def State.irq (s : State) : Bool :=
  (s.fatal && s.ie.getLsbD 0) || (s.badcmd && s.ie.getLsbD 1) || (s.drop && s.ie.getLsbD 2)

/-- `want`: whole samples asked for (42_demodulator.md R132, R136). -/
def demodWant (n : Nat) : Nat := n / 2

/-- `pairs`: word pairs left in the block (42_demodulator.md R132). -/
def State.pairsLeft (s : State) : Nat := (s.params.blockWords - s.cur) / 2

/-- `room`: samples the accumulator can take (42_demodulator.md R132, R135). -/
def State.room (s : State) : Nat := (s.params.accCap - s.fill) / 2

/-- `m = min(want, pairs, room)` (42_demodulator.md R132). -/
def State.demodCount (s : State) (n : Nat) : Nat := min (demodWant n) (min s.pairsLeft s.room)

/-- `CLAMP`: the capacity was the reason to stop and neither other reason held (42_demodulator.md R132, R135). -/
def State.clampOf (s : State) (n : Nat) : Bool :=
  decide (s.demodCount n < demodWant n) && decide (s.demodCount n < s.pairsLeft)

end Sys2Proof.Machine
end

