-- ==== Sys2Proof/Machine/Operands.lean ====
section
/-! DEFINITION. The halves, bytes and samples of a raw word: byte order and lanes (20_memory.md R52, R53, 30_encoding.md
R74, R75, 42_demodulator.md R133, R134). -/

namespace Sys2Proof.Machine

open Sys2Proof

/-- `w[31:16]`, lane 1 (42_demodulator.md R134). -/
def highHalf (w : Word) : Half := w.extractLsb' 16 16

/-- `w[15:0]`, lane 0 (42_demodulator.md R134). -/
def lowHalf (w : Word) : Half := w.extractLsb' 0 16

/-- `DecodeWord(w) = { SYMTAB(w[31:16]), SYMTAB(w[15:0]) }` (42_demodulator.md R133). -/
def decodeWord (p : Params) (w : Word) : Half := symtab p (highHalf w) ++ symtab p (lowHalf w)

/-- `s[7:0]`, the sample's first byte in the accumulator (20_memory.md R52). -/
def sampleLow (s : Half) : Byte := s.extractLsb' 0 8

/-- `s[15:8]`, the sample's second byte in the accumulator (20_memory.md R52). -/
def sampleHigh (s : Half) : Byte := s.extractLsb' 8 8

/-- The index of the data word of the pair at `cur`: `CUR + DATA_PHASE` (42_demodulator.md R131, 30_encoding.md R75). -/
def dataIndex (p : Params) (cur : Nat) : Nat := cur + p.dataPhase.val

/-- The four bytes of a word at byte offsets 0 to 3 of its place in the byte view (20_memory.md R53). -/
def wordBytes (w : Word) : List Byte :=
  [w.extractLsb' 0 8, w.extractLsb' 8 8, w.extractLsb' 16 8, w.extractLsb' 24 8]

/-- The word whose bytes at offsets 0 to 3 are these (20_memory.md R53). -/
def wordOfBytes (b0 b1 b2 b3 : Byte) : Word := b3 ++ b2 ++ b1 ++ b0

/-- The byte view of a whole block: the words' bytes in rising byte offset (20_memory.md R53). -/
def blockBytes (ws : List Word) : List Byte := ws.flatMap wordBytes

end Sys2Proof.Machine
end

