-- ==== Sys2Proof/Machine/Ops.lean ====
section
/-! DEFINITION. The shared operations: access to the internal memories, the events and reset (60_exceptions.md,
70_reset_and_hazards.md), the shared rules Demodulate (42_demodulator.md R132), the sync aligner (41_acquire_align.md
R120), Frame (43_accumulator_framer.md R156), EndCycle (44_sequencer_control.md R182), and the acceptance of a command
(44_sequencer_control.md R170). -/

namespace Sys2Proof.Machine

open Sys2Proof

/-- An operation's answer as a step's outcome. -/
def toOutcome : Except Fault State → Host.Outcome State Fault Refusal
  | .ok s => .next s
  | .error f => .fault f

/-! ## Internal memories -/

/-- The size in bytes of a memory (20_memory.md R50). -/
def spaceSize (p : Params) : Space → Nat
  | .raw => p.rawBytes
  | .acc => p.accCap
  | .pay => p.payLen

/-- The contents of a memory. -/
def State.mem (s : State) : Space → Memory
  | .raw => s.raw
  | .acc => s.acc
  | .pay => s.pay

/-- The state with a memory's contents replaced. -/
def State.setMem (s : State) (sp : Space) (m : Memory) : State :=
  match sp with
  | .raw => { s with raw := m }
  | .acc => { s with acc := m }
  | .pay => { s with pay := m }

/-- `MemRead(space, a, 1)` (00_scope.md R17). Outside the space, or where no value is held, it is a fault
(93_implementation_defined.md I3 to I5). -/
def readByte (s : State) (sp : Space) (a : Nat) : Except Fault Byte :=
  if a < spaceSize s.params sp then
    match (s.mem sp).read a with
    | some b => .ok b
    | none => .error (.noValue sp a)
  else .error (.outOfSpace sp a)

/-- `MemWrite(space, a, 1, b)` (00_scope.md R17). -/
def writeByte (s : State) (sp : Space) (a : Nat) (b : Byte) : Except Fault State :=
  if a < spaceSize s.params sp then .ok (s.setMem sp ((s.mem sp).write a b))
  else .error (.outOfSpace sp a)

/-- `n` bytes read in rising address from `a` on. -/
def loadBytes (s : State) (sp : Space) : Nat → Nat → Except Fault (List Byte)
  | _, 0 => .ok []
  | a, n + 1 =>
    match readByte s sp a with
    | .error f => .error f
    | .ok b =>
      match loadBytes s sp (a + 1) n with
      | .error f => .error f
      | .ok bs => .ok (b :: bs)

/-- Bytes written in rising address from `a` on. -/
def storeBytes (s : State) (sp : Space) : Nat → List Byte → Except Fault State
  | _, [] => .ok s
  | a, b :: bs =>
    match writeByte s sp a b with
    | .error f => .error f
    | .ok s' => storeBytes s' sp (a + 1) bs

/-- `MemRead(RAW, i, 4)`: word `i` of the raw block, through its little-endian byte view (20_memory.md R53). -/
def readRawWord (s : State) (i : Nat) : Except Fault Word :=
  match loadBytes s .raw (4 * i) 4 with
  | .error f => .error f
  | .ok [b0, b1, b2, b3] => .ok (wordOfBytes b0 b1 b2 b3)
  | .ok _ => .error (.noValue .raw (4 * i))

/-- What the sink reads while a submission is outstanding: the `PAY_LEN` bytes of PAY, `PAY[0]` first
(43_accumulator_framer.md R152, 20_memory.md R54). While `PEND = 0` PAY holds no value to read (93 I5; log 9). -/
def State.offered (s : State) : Except Fault (List Byte) :=
  if s.pend then loadBytes s .pay 0 s.params.payLen else .error (.noValue .pay 0)

/-! ## Taking an event, and the return from one -/

/-- `raise BADCMD(k, c)`: record a refusal; the first reason and word are kept (60_exceptions.md R201). -/
def raiseBadcmd (k : BadCode) (c : Word) (s : State) : State :=
  { s with
    badcode := if s.badcmd then s.badcode else k
    lastbad := if s.badcmd then s.lastbad else c
    badcmd := true }

/-- `raise ACQ_FAULT()`: enter FAULT (60_exceptions.md R204). RAW holds no value afterwards. -/
def raiseAcqFault (s : State) : State :=
  { s with
    fatal := true
    state := .fault
    run := false
    seqOp := .none
    raw := []
    cur := s.params.blockWords }

/-- `raise SEND_ERROR()` (60_exceptions.md R209). -/
def raiseSendError (s : State) : State :=
  { s with drop := true, dropCnt := s.dropCnt + 1 }

/-- CLRST's effect: the sticky flags that a command can clear (44_sequencer_control.md R174, 60_exceptions.md R207). -/
def clearSticky (s : State) : State :=
  { s with badcmd := false, badcode := .none, lastbad := 0#32, drop := false }

/-- Reset: every element of 10_state.md R20 takes its value of R39 (70_reset_and_hazards.md R230); the only return from
FAULT (60_exceptions.md R207). The parameters and the model's own fields are not state and stay (log 11). -/
def softReset (s : State) : State :=
  { State.resetOf s.params with agenda := s.agenda, draws := s.draws, rdata := s.rdata }

/-! ## The shared rules of the datapath -/

/-- The sync aligner, the body of ALIGN (41_acquire_align.md R120). -/
def syncAlign (s : State) : Except Fault State :=
  if s.cur = s.params.blockWords then .ok { s with syncfix := false }
  else
    match readByte s .raw s.params.syncOffset with
    | .error f => .error f
    | .ok b =>
      if b &&& s.params.syncFlip = s.params.syncFlip then
        match writeByte s .raw s.params.syncOffset (b ^^^ s.params.syncFlip) with
        | .error f => .error f
        | .ok s' => .ok { s' with syncfix := true, fixCnt := s'.fixCnt + 1 }
      else .ok { s with syncfix := false }

/-- One sample: the data word of the pair at `CUR` decoded and appended little-endian (42_demodulator.md R132, the
loop's body). -/
def demodPair (s : State) : Except Fault State :=
  match readRawWord s (dataIndex s.params s.cur) with
  | .error f => .error f
  | .ok w =>
    match storeBytes s .acc s.fill [sampleLow (decodeWord s.params w), sampleHigh (decodeWord s.params w)] with
    | .error f => .error f
    | .ok s' => .ok { s' with fill := s.fill + 2, cur := s.cur + 2 }

/-- `repeat m times` of `Demodulate` (42_demodulator.md R132). -/
def demodPairs : Nat → State → Except Fault State
  | 0, s => .ok s
  | m + 1, s =>
    match demodPair s with
    | .error f => .error f
    | .ok s' => demodPairs m s'

/-- `Demodulate(n)` (42_demodulator.md R132). -/
def demodulate (n : Nat) (s : State) : Except Fault State :=
  match demodPairs (s.demodCount n) s with
  | .error f => .error f
  | .ok s' => .ok { s' with clamp := s.clampOf n }

/-- `Frame()`: header and oldest chunk into PAY, the rest of ACC shifted down to index 0, the submission started
(43_accumulator_framer.md R156; log 12). Bytes of ACC at the new FILL and above hold no value (10_state.md R25). -/
def frame (s : State) : Except Fault State :=
  match loadBytes s .acc 0 s.params.chunk with
  | .error f => .error f
  | .ok chunk =>
    match loadBytes s .acc s.params.chunk (s.fill - s.params.chunk) with
    | .error f => .error f
    | .ok rest =>
      match storeBytes s .pay 0 (s.params.hdr.bytes ++ chunk) with
      | .error f => .error f
      | .ok s1 =>
        match storeBytes s1 .acc 0 rest with
        | .error f => .error f
        | .ok s2 =>
          .ok { s2 with
            acc := s2.acc.dropFrom (s.fill - s.params.chunk)
            fill := s.fill - s.params.chunk
            pend := true
            state := .emit }

/-- The body of EMIT and DRAIN: nothing while less than a chunk is there (43_accumulator_framer.md R150, R151, R155). -/
def startFraming (op : SeqOp) (s : State) : Except Fault State :=
  if s.fill < s.params.chunk then .ok s else frame { s with seqOp := op }

/-- The body of ACQ, CYCLE and RUN: a block request is outstanding (41_acquire_align.md R110, 44_sequencer_control.md
R171, R172). -/
def startRequest (op : SeqOp) (s : State) : State := { s with seqOp := op, state := .acq }

/-- `EndCycle()` (44_sequencer_control.md R182). -/
def endCycle (s : State) : State :=
  if s.seqOp = .run then { s with state := .acq } else { s with state := .idle, seqOp := .none }

/-- Frame the next chunk while a whole one is there, else end the cycle (44_sequencer_control.md R182, R183). -/
def frameOrEnd (s : State) : Except Fault State :=
  if s.params.chunk ≤ s.fill then frame s else .ok (endCycle s)

/-! ## Accepting a command -/

/-- The checks of 44_sequencer_control.md R170 that read the state, in its order, then the command's own rule. The word
recorded by a refusal is the command's own word (log 13). -/
def accept (i : Instr) (s : State) (body : Except Fault State) : Except Fault State :=
  if i.always then body
  else if s.fatal then .ok (raiseBadcmd .faulted (encode i) s)
  else if s.state ≠ .idle ∨ s.run = true then .ok (raiseBadcmd .busy (encode i) s)
  else body

end Sys2Proof.Machine
end

