-- ==== Sys2Proof/Machine/Agents.lean ====
section
/-! DEFINITION. The steps that are no commands: the acquisition agent's, the sink agent's and the sequencer's
(41_acquire_align.md R111 to R114, 43_accumulator_framer.md R152 to R157, 44_sequencer_control.md R181 to R183). A move
that its agent has no step for is refused by name (log 6). -/

namespace Sys2Proof.Machine

open Sys2Proof

/-- The continuation of a delivery (44_sequencer_control.md R181). -/
def afterDelivery (s : State) : State :=
  if s.seqOp = .acq then { s with state := .idle, seqOp := .none } else { s with state := .align }

/-- A delivery, enabled while `acq_req = 1`: one whole block at once (41_acquire_align.md R112, 20_memory.md R58). -/
def deliver (ws : List Word) (s : State) : Host.Outcome State Fault Refusal :=
  if s.acqReq = false then .refused .noBlockRequest
  else if ws.length ≠ s.params.blockWords then .refused .notOneWholeBlock
  else .next (afterDelivery { s with raw := Memory.ofBytes 0 (blockBytes ws), cur := 0, blkCnt := s.blkCnt + 1 })

/-- An acquisition fault, enabled while `acq_req = 1` (41_acquire_align.md R113, 60_exceptions.md R204). -/
def acqFault (s : State) : Host.Outcome State Fault Refusal :=
  if s.acqReq = false then .refused .noBlockRequest else .next (raiseAcqFault s)

/-- What the sink's answer does to the flags and counters (43_accumulator_framer.md R153, 60_exceptions.md R209). -/
def recordAnswer (r : SinkAnswer) (s : State) : State :=
  match r with
  | .ok => { s with pend := false, sentCnt := s.sentCnt + 1 }
  | .error => raiseSendError { s with pend := false }

/-- The continuation of a sink answer (44_sequencer_control.md R183). -/
def afterAnswer (s : State) : Except Fault State :=
  if s.seqOp = .emit then .ok { s with state := .idle, seqOp := .none } else frameOrEnd s

/-- A sink answer, enabled while `send_req = 1` (43_accumulator_framer.md R153). -/
def sinkAnswer (r : SinkAnswer) (s : State) : Host.Outcome State Fault Refusal :=
  if s.sendReq = false then .refused .noSubmission else toOutcome (afterAnswer (recordAnswer r s))

/-- The sequencer's step in ALIGN (44_sequencer_control.md R182). -/
def alignStep (s : State) : Except Fault State :=
  match syncAlign s with
  | .error f => .error f
  | .ok s' => .ok { s' with state := .demod }

/-- The sequencer's step in DEMOD: the whole block, then the first payload or the cycle's end
(44_sequencer_control.md R182). -/
def demodStep (s : State) : Except Fault State :=
  match demodulate s.params.blockWords s with
  | .error f => .error f
  | .ok s' => frameOrEnd s'

/-- The sequencer's own step, taken in ALIGN and DEMOD and at no other time (44_sequencer_control.md R182). -/
def sequencerStep (s : State) : Host.Outcome State Fault Refusal :=
  match s.state with
  | .align => toOutcome (alignStep s)
  | .demod => toOutcome (demodStep s)
  | .idle => .refused .noSequencerStep
  | .acq => .refused .noSequencerStep
  | .emit => .refused .noSequencerStep
  | .fault => .refused .noSequencerStep

end Sys2Proof.Machine
end

