-- ==== Sys2Proof/Machine/Acquire.lean ====
section
/-! DEFINITION. ACQ and ALIGN (41_acquire_align.md). -/

namespace Sys2Proof.Machine

open Sys2Proof

/-- ACQ: request one raw block (41_acquire_align.md R110). -/
def execAcq (s : State) : Host.Outcome State Fault Refusal :=
  toOutcome (accept .acq s (.ok (startRequest .acq s)))

/-- ALIGN: correct the sync-flip artifact in the current block (41_acquire_align.md R120). -/
def execAlign (s : State) : Host.Outcome State Fault Refusal :=
  toOutcome (accept .align s (syncAlign s))

end Sys2Proof.Machine
end

