-- ==== Sys2Proof/Machine/Control.lean ====
section
/-! DEFINITION. CYCLE, RUN, NOP, CLRST and SRST (44_sequencer_control.md). -/

namespace Sys2Proof.Machine

open Sys2Proof

/-- CYCLE: one full capture cycle (44_sequencer_control.md R171). -/
def execCycle (s : State) : Host.Outcome State Fault Refusal :=
  toOutcome (accept .cycle s (.ok (startRequest .cycle s)))

/-- RUN: start the perpetual capture loop (44_sequencer_control.md R172). -/
def execRun (s : State) : Host.Outcome State Fault Refusal :=
  toOutcome (accept .run s (.ok { startRequest .run s with run := true }))

/-- NOP: no operation, in every state (44_sequencer_control.md R173). -/
def execNop (s : State) : Host.Outcome State Fault Refusal :=
  toOutcome (accept .nop s (.ok s))

/-- CLRST: clear the sticky error flags (44_sequencer_control.md R174). -/
def execClrst (s : State) : Host.Outcome State Fault Refusal :=
  toOutcome (accept .clrst s (.ok (clearSticky s)))

/-- SRST: soft reset (44_sequencer_control.md R175). -/
def execSrst (s : State) : Host.Outcome State Fault Refusal :=
  toOutcome (accept .srst s (.ok (softReset s)))

end Sys2Proof.Machine
end

