-- ==== Sys2Proof/Machine/Demod.lean ====
section
/-! DEFINITION. DEMOD (42_demodulator.md). -/

namespace Sys2Proof.Machine

open Sys2Proof

/-- DEMOD: demodulate up to `n` bytes from the current block (42_demodulator.md R130). -/
def execDemod (n : Nat) (s : State) : Host.Outcome State Fault Refusal :=
  toOutcome (accept (.demod n) s (demodulate n s))

end Sys2Proof.Machine
end

