-- ==== Sys2Proof/Machine/Framer.lean ====
section
/-! DEFINITION. EMIT and DRAIN (43_accumulator_framer.md). -/

namespace Sys2Proof.Machine

open Sys2Proof

/-- EMIT: take one chunk and submit one payload (43_accumulator_framer.md R150, R151). -/
def execEmit (s : State) : Host.Outcome State Fault Refusal :=
  toOutcome (accept .emit s (startFraming .emit s))

/-- DRAIN: submit payloads while a whole chunk is available (43_accumulator_framer.md R155, R151). -/
def execDrain (s : State) : Host.Outcome State Fault Refusal :=
  toOutcome (accept .drain s (startFraming .drain s))

end Sys2Proof.Machine
end

