-- ==== Sys2Proof/Machine/Table.lean ====
section
/-! DEFINITION. TLOOK (40_symbol_table.md). -/

namespace Sys2Proof.Machine

open Sys2Proof

/-- TLOOK: `RESULT <- zext_32(SYMTAB(h))` (40_symbol_table.md R103). -/
def execTlook (h : Half) (s : State) : Host.Outcome State Fault Refusal :=
  toOutcome (accept (.tlook h) s (.ok { s with result := (symtab s.params h).setWidth 32 }))

end Sys2Proof.Machine
end

