-- ==== Sys2Proof/Machine/Dispatch.lean ====
section
/-! DEFINITION. The meaning of every command, one arm per constructor of Instr. -/

namespace Sys2Proof.Machine

open Sys2Proof

def exec (i : Instr) (s : State) : Host.Outcome State Fault Refusal :=
  match i with
  | .nop => Sys2Proof.Machine.execNop s
  | .acq => Sys2Proof.Machine.execAcq s
  | .align => Sys2Proof.Machine.execAlign s
  | .demod n => Sys2Proof.Machine.execDemod n s
  | .emit => Sys2Proof.Machine.execEmit s
  | .drain => Sys2Proof.Machine.execDrain s
  | .cycle => Sys2Proof.Machine.execCycle s
  | .run => Sys2Proof.Machine.execRun s
  | .tlook h => Sys2Proof.Machine.execTlook h s
  | .clrst => Sys2Proof.Machine.execClrst s
  | .srst => Sys2Proof.Machine.execSrst s

end Sys2Proof.Machine
end

