-- ==== Sys2Proof/Machine/Regs.lean ====
section
/-! DEFINITION. The host register map and its reads (10_state.md R33 to R38, 20_memory.md R57). -/

namespace Sys2Proof.Machine

open Sys2Proof

/-- The registers of the map (10_state.md R33). -/
inductive Reg where
  | cmd
  | status
  | ie
  | fill
  | cursor
  | result
  | lastbad
  | blkCnt
  | fixCnt
  | sentCnt
  | dropCnt
  | cfgChunk
  | cfgBlock
  | cfgAccCap
  | cfgSync
  | cfgHdr0
  | cfgHdr1
deriving DecidableEq, Repr

/-- The register at a byte offset: bits 1:0 are ignored; `none` is unmapped (10_state.md R33, 20_memory.md R57). -/
def regAt (off : BitVec 8) : Option Reg :=
  match (off &&& 0xFC#8).toNat with
  | 0x00 => some .cmd
  | 0x04 => some .status
  | 0x08 => some .ie
  | 0x0C => some .fill
  | 0x10 => some .cursor
  | 0x14 => some .result
  | 0x18 => some .lastbad
  | 0x1C => some .blkCnt
  | 0x20 => some .fixCnt
  | 0x24 => some .sentCnt
  | 0x28 => some .dropCnt
  | 0x2C => some .cfgChunk
  | 0x30 => some .cfgBlock
  | 0x34 => some .cfgAccCap
  | 0x38 => some .cfgSync
  | 0x3C => some .cfgHdr0
  | 0x40 => some .cfgHdr1
  | _ => none

/-- `CFG_SYNC = {7'b0, DATA_PHASE, SYNC_FLIP, SYNC_OFFSET[15:0]}` (10_state.md R38). -/
def cfgSync (p : Params) : Word :=
  0#7 ++ BitVec.ofNat 1 p.dataPhase.val ++ p.syncFlip ++ BitVec.ofNat 16 p.syncOffset

/-- `CFG_HDR0 = {HDR[3], HDR[2], HDR[1], HDR[0]}` (10_state.md R38). -/
def cfgHdr0 (p : Params) : Word := p.hdr.b3 ++ p.hdr.b2 ++ p.hdr.b1 ++ p.hdr.b0

/-- `CFG_HDR1 = zext_32(HDR[4])` (10_state.md R38). -/
def cfgHdr1 (p : Params) : Word := p.hdr.b4.setWidth 32

/-- The value of a register (10_state.md R34 to R38). CMD reads 0. -/
def State.readReg (s : State) : Reg → Word
  | .cmd => 0#32
  | .status => s.status
  | .ie => s.ieReg
  | .fill => BitVec.ofNat 32 s.fill
  | .cursor => BitVec.ofNat 32 s.cur
  | .result => s.result
  | .lastbad => s.lastbad
  | .blkCnt => s.blkCnt
  | .fixCnt => s.fixCnt
  | .sentCnt => s.sentCnt
  | .dropCnt => s.dropCnt
  | .cfgChunk => BitVec.ofNat 32 s.params.chunk
  | .cfgBlock => BitVec.ofNat 32 s.params.blockWords
  | .cfgAccCap => BitVec.ofNat 32 s.params.accCap
  | .cfgSync => cfgSync s.params
  | .cfgHdr0 => cfgHdr0 s.params
  | .cfgHdr1 => cfgHdr1 s.params

/-- What a host read at a byte offset returns: an unmapped offset reads 0 (20_memory.md R57). -/
def State.hostReadValue (s : State) (off : BitVec 8) : Word :=
  match regAt off with
  | some r => s.readReg r
  | none => 0#32

end Sys2Proof.Machine
end

