-- ==== Sys2Proof/Machine/Port.lean ====
section
/-! DEFINITION. The host's register port (10_state.md R34, R36, 20_memory.md R57), which move comes next, and what each
move does. -/

namespace Sys2Proof.Machine

open Sys2Proof

/-- The BADCMD reason of a word that is no command (44_sequencer_control.md R170, checks 1 and 2). -/
def refusalReason : DecodeError → BadCode
  | .illegalBits => .illegalBits
  | .reservedOpcode => .reservedOpcode

/-- A host write of `c` to CMD: the command runs in this same step, or its word is refused (10_state.md R34,
44_sequencer_control.md R170). -/
def command (c : Word) (s : State) : Host.Outcome State Fault Refusal :=
  match decode c with
  | .error e => .next (raiseBadcmd (refusalReason e) c s)
  | .ok i => exec i s

/-- A host write: CMD and IE have an effect, every other write has none (20_memory.md R57, 10_state.md R36). -/
def hostWrite (off : BitVec 8) (v : Word) (s : State) : Host.Outcome State Fault Refusal :=
  match regAt off with
  | some .cmd => command v s
  | some .ie => .next { s with ie := ieOf v }
  | _ => .next s

/-- A host read: the register's value, no side effect on the block (20_memory.md R57; log 7). -/
def hostRead (off : BitVec 8) (s : State) : Host.Outcome State Fault Refusal :=
  .next { s with rdata := s.hostReadValue off }

/-- The move taken next: the first of the agenda, or a free draw when none is placed (log 4, log 5). -/
def State.nextMove (s : State) : Move :=
  match s.agenda with
  | [] => Config.freeMove s.draws
  | m :: _ => m

/-- The state once its next move has been taken off the agenda, or drawn. -/
def State.advance (s : State) : State :=
  match s.agenda with
  | [] => { s with draws := s.draws + 1 }
  | _ :: ms => { s with agenda := ms }

/-- What a move does (00_scope.md R5, R15: one atomic step of one agent). -/
def takeMove (m : Move) (s : State) : Host.Outcome State Fault Refusal :=
  match m with
  | .hostWrite off v => hostWrite off v s
  | .hostRead off => hostRead off s
  | .deliver ws => deliver ws s
  | .acqFault => acqFault s
  | .sinkAnswer r => sinkAnswer r s
  | .sequencer => sequencerStep s
  | .resetInput => .next (softReset s)

end Sys2Proof.Machine
end

