-- ==== Sys2Proof/Machine/Step.lean ====
section
/-! DEFINITION. One step of the machine: the next move of an agent (00_scope.md R15), and where the host's next command
word is placed. -/

namespace Sys2Proof.Machine

open Sys2Proof

/-- One atomic step of one agent. -/
def step (s : State) : Host.Outcome State Fault Refusal := takeMove s.nextMove s.advance

/-- `s` with the host's write of the command word `w` placed as the very next move (10_state.md R34, 20_memory.md R65:
a command arrives as one write to CMD). -/
def State.withFetchWord (s : State) (nbits w : Nat) : State :=
  { s with agenda := .hostWrite 0x00#8 (BitVec.ofNat 32 (w % 2 ^ nbits)) :: s.agenda }

end Sys2Proof.Machine
end

