-- ==== Sys2Proof/Safety.lean ====
section
/-! DEFINITION. What the statements are said with: when a command is accepted, the machine's invariant, the bytes the
memories hold, and the history of a run since the last reset. -/

namespace Sys2Proof

open Machine

/-- The block accepts every command: not faulted, idle, not in run mode (44_sequencer_control.md R170). -/
abbrev Machine.State.Ready (s : State) : Prop := s.fatal = false ∧ s.state = .idle ∧ s.run = false

/-- The bytes a memory lists, in rising address. -/
def Machine.Memory.bytes (m : Memory) : List Byte := m.map fun c => c.2

/-- The memory holds a value exactly at the addresses `0 .. n-1`. -/
abbrev Machine.Memory.Whole (m : Memory) (n : Nat) : Prop := m = Memory.ofBytes 0 m.bytes ∧ m.bytes.length = n

/-- Word `i` of the raw block (20_memory.md R53); used only where the block is held. -/
def Machine.State.rawWord (s : State) (i : Nat) : Word :=
  wordOfBytes ((s.raw.read (4 * i)).getD 0) ((s.raw.read (4 * i + 1)).getD 0) ((s.raw.read (4 * i + 2)).getD 0)
    ((s.raw.read (4 * i + 3)).getD 0)

/-- The bytes of the next `m` samples of the block, as 42_demodulator.md R138 lists them: for each pair from `CUR` on,
`SYMTAB(w[15:0])` then `SYMTAB(w[31:16])` of its data word `w`. -/
def Machine.State.samples (s : State) (m : Nat) : List Byte :=
  (List.range m).flatMap fun j =>
    let w := s.rawWord (s.cur + 2 * j + s.params.dataPhase.val)
    [symtab s.params (w.extractLsb' 0 16), symtab s.params (w.extractLsb' 16 16)]

/-- What the rules promise of the instance and its buffers (10_state.md R23 to R27). -/
structure Machine.State.DataInv (s : State) : Prop where
  /-- The instance is admissible (00_scope.md R6 to R13). -/
  params : s.params.Wf
  /-- RAW holds one whole block, or no value (10_state.md R23). -/
  raw : s.raw.Whole s.params.rawBytes ∨ (s.raw = [] ∧ s.cur = s.params.blockWords)
  /-- `0 <= CUR <= BLOCK_WORDS` (10_state.md R24). -/
  curLe : s.cur ≤ s.params.blockWords
  /-- `CUR` is even (10_state.md R24). -/
  curEven : s.cur % 2 = 0
  /-- ACC holds exactly `ACC[0..FILL-1]` (10_state.md R25). -/
  acc : s.acc.Whole s.fill
  /-- `FILL <= ACC_CAP` (10_state.md R26). -/
  fillLe : s.fill ≤ s.params.accCap
  /-- PAY holds no value, or one payload with the header in front (10_state.md R27, 43_accumulator_framer.md R158). -/
  pay : s.pay = [] ∨ (s.pay.Whole s.params.payLen ∧ s.pay.bytes.take 5 = s.params.hdr.bytes)

/-- What the rules promise of the sequencer and the flags (10_state.md R21, R22, R27, R28, R30, 60_exceptions.md R202,
R204). -/
structure Machine.State.CtrlInv (s : State) : Prop where
  /-- A submission is outstanding exactly in EMIT (10_state.md R21, R27). -/
  pend : s.pend = true ↔ s.state = .emit
  /-- PAY is held while a submission is outstanding (10_state.md R27). -/
  payHeld : s.pend = true → s.pay ≠ []
  /-- `SEQ_OP = NONE` exactly when STATE is IDLE or FAULT (10_state.md R22). -/
  seqOpNone : s.seqOp = .none ↔ s.state = .idle ∨ s.state = .fault
  /-- A block request belongs to ACQ, CYCLE or RUN (44_sequencer_control.md R180). -/
  acqOp : s.state = .acq → s.seqOp = .acq ∨ s.seqOp = .cycle ∨ s.seqOp = .run
  /-- ALIGN and DEMOD belong to CYCLE or RUN (44_sequencer_control.md R180, R181). -/
  cycleOp : s.state = .align ∨ s.state = .demod → s.seqOp = .cycle ∨ s.seqOp = .run
  /-- A submission belongs to EMIT, DRAIN, CYCLE or RUN (44_sequencer_control.md R180). -/
  emitOp : s.state = .emit → s.seqOp ≠ .acq
  /-- In ALIGN and DEMOD the block is fresh (41_acquire_align.md R112, 44_sequencer_control.md R181, R182). -/
  freshBlock : s.state = .align ∨ s.state = .demod → s.cur = 0
  /-- FATAL is set exactly in FAULT (60_exceptions.md R204, R207). -/
  fatal : s.fatal = true ↔ s.state = .fault
  /-- Run mode is active exactly while RUN is the command in progress (44_sequencer_control.md R172, R184). -/
  run : s.run = true ↔ s.seqOp = .run
  /-- BADCODE is 0 exactly while no refusal is recorded (60_exceptions.md R201, R202). -/
  badcode : s.badcmd = true ↔ s.badcode ≠ .none
  /-- LASTBAD is 0 while no refusal is recorded (10_state.md R30, 44_sequencer_control.md R174). -/
  lastbad : s.badcmd = false → s.lastbad = 0#32

/-- What the rules promise of every state a run reaches. -/
structure Machine.State.Inv (s : State) : Prop extends Machine.State.DataInv s, Machine.State.CtrlInv s

/-- The move has a step in this state (41_acquire_align.md R111, R112, 43_accumulator_framer.md R152,
44_sequencer_control.md R182); the host and the reset input always have one. -/
def Machine.State.enabled (s : State) : Move → Prop
  | .hostWrite _ _ => True
  | .hostRead _ => True
  | .deliver ws => s.state = .acq ∧ ws.length = s.params.blockWords
  | .acqFault => s.state = .acq
  | .sinkAnswer _ => s.pend = true
  | .sequencer => s.state = .align ∨ s.state = .demod
  | .resetInput => True

/-- The move resets the block: the reset input, or the SRST command (70_reset_and_hazards.md R230). -/
def Move.resets : Move → Bool
  | .hostWrite off v => regAt off == some .cmd && (match decode v with | .ok i => i == .srst | .error _ => false)
  | .hostRead _ => false
  | .deliver _ => false
  | .acqFault => false
  | .sinkAnswer _ => false
  | .sequencer => false
  | .resetInput => true

/-- Where an accepted command takes an idle block (44_sequencer_control.md R180, rows from IDLE). -/
def Machine.State.startState (s : State) : Instr → SeqState
  | .nop => .idle
  | .acq => .acq
  | .align => .idle
  | .demod _ => .idle
  | .emit => if s.params.chunk ≤ s.fill then .emit else .idle
  | .drain => if s.params.chunk ≤ s.fill then .emit else .idle
  | .cycle => .acq
  | .run => .acq
  | .tlook _ => .idle
  | .clrst => .idle
  | .srst => .idle

/-- Where the end of a cycle's framing leads: the next payload, the next request, or IDLE (44_sequencer_control.md R180,
rows from DEMOD and EMIT). -/
def Machine.State.nextState (s : State) (fill : Nat) : SeqState :=
  if s.params.chunk ≤ fill then .emit else if s.seqOp = .run then .acq else .idle

/-- The table of STATE's transitions (44_sequencer_control.md R180), read as a function of the state before the step and
the move; a step in no row leaves STATE alone. In DEMOD the table's FILL is the one after Demodulate. -/
def Machine.State.tableState (s : State) (m : Move) : SeqState :=
  if m.resets then .idle
  else
    match m with
    | .hostWrite off v =>
      match decode v with
      | .ok i => if s.state = .idle ∧ regAt off = some .cmd then s.startState i else s.state
      | .error _ => s.state
    | .hostRead _ => s.state
    | .deliver _ => if s.state = .acq then (if s.seqOp = .acq then .idle else .align) else s.state
    | .acqFault => if s.state = .acq then .fault else s.state
    | .sinkAnswer _ =>
      if s.state = .emit then (if s.seqOp = .emit then .idle else s.nextState s.fill) else s.state
    | .sequencer =>
      match s.state with
      | .align => .demod
      | .demod => s.nextState (s.fill + 2 * s.demodCount s.params.blockWords)
      | .idle => .idle
      | .acq => .acq
      | .emit => .emit
      | .fault => .fault
    | .resetInput => .idle

/-- What an observer of a run has seen since the last reset: the bytes Demodulate appended, the payloads submitted, how
many blocks were delivered, and whether run mode held throughout. It is no state of the machine. -/
structure History where
  appended : List Byte
  submitted : List (List Byte)
  blocks : Nat
  inRunMode : Bool

/-- The observer right after reset, or at the start of an observation. -/
def History.start (inRunMode : Bool) : History :=
  { appended := [], submitted := [], blocks := 0, inRunMode := inRunMode }

/-- Samples a step decoded: half of CUR's advance, for the moves that run Demodulate (42_demodulator.md R138). -/
def samplesTaken (m : Move) (s s' : State) : Nat :=
  match m with
  | .hostWrite _ _ => (s'.cur - s.cur) / 2
  | .hostRead _ => 0
  | .deliver _ => 0
  | .acqFault => 0
  | .sinkAnswer _ => 0
  | .sequencer => (s'.cur - s.cur) / 2
  | .resetInput => 0

/-- A step started a submission: one is outstanding after it that was not before, or the sink has just answered the
one before (43_accumulator_framer.md R152, R156). -/
def startsSubmission (m : Move) (s s' : State) : Bool :=
  s'.pend && (!s.pend || (match m with | .sinkAnswer _ => true | _ => false))

/-- A step delivered a block. -/
def Move.isDelivery : Move → Bool
  | .deliver _ => true
  | _ => false

/-- The history after one step by the move `m` from `s` to `s'`. -/
def History.observe (h : History) (m : Move) (s s' : State) : History :=
  if m.resets then { History.start s'.run with inRunMode := h.inRunMode && s'.run }
  else
    { appended := h.appended ++ s.samples (samplesTaken m s s')
      submitted := h.submitted ++ (if startsSubmission m s s' then [s'.pay.bytes] else [])
      blocks := h.blocks + (if m.isDelivery then 1 else 0)
      inRunMode := h.inRunMode && s'.run }

/-- The payloads' PCM parts, then the accumulator, are the bytes appended, in order (43_accumulator_framer.md R159). -/
abbrev History.Conserved (h : History) (s : State) : Prop :=
  (h.submitted.map fun pl => pl.drop 5).flatten ++ s.acc.bytes = h.appended

/-- Bytes of a block that was delivered and not yet demodulated: a whole block in ALIGN and DEMOD
(44_sequencer_control.md R182). -/
def Machine.State.undemodulatedBytes (s : State) : Nat :=
  match s.state with
  | .align => s.params.blockWords
  | .demod => s.params.blockWords
  | .idle => 0
  | .acq => 0
  | .emit => 0
  | .fault => 0

/-- The delivered blocks' bytes, but for a block not yet demodulated, are the submitted chunks and what is left in the
accumulator (44_sequencer_control.md R186). -/
abbrev History.Accounted (h : History) (s : State) : Prop :=
  h.blocks * s.params.blockWords = s.params.chunk * h.submitted.length + s.fill + s.undemodulatedBytes

/-- `k` steps from a state, observed; `none` when a step gives no next state. -/
def observedRun : Nat → State → History → Option (State × History)
  | 0, s, h => some (s, h)
  | k + 1, s, h =>
    match step s with
    | .next s' => observedRun k s' (h.observe s.nextMove s s')
    | .fault _ => none
    | .refused _ => none

/-- `k` steps, stopping at the first fault or refusal. -/
def runSteps : Nat → State → Host.Outcome State Fault Refusal
  | 0, s => .next s
  | k + 1, s =>
    match step s with
    | .next s' => runSteps k s'
    | .fault f => .fault f
    | .refused r => .refused r

/-- The pseudo-instruction `step` of 30_encoding.md R85: its commands, with the delivery and the answers that its two
`wait idle` lines wait for. -/
def hostSteppedCycle (ws : List Word) (rs : List SinkAnswer) : List Move :=
  [Move.cmd .acq, .deliver ws, Move.cmd .align, Move.cmd .demodAll, Move.cmd .drain] ++ rs.map Move.sinkAnswer

/-- `cmd CYCLE` then `wait idle` (30_encoding.md R85), with the same delivery and answers and the sequencer's steps. -/
def sequencedCycle (ws : List Word) (rs : List SinkAnswer) : List Move :=
  [Move.cmd .cycle, .deliver ws, .sequencer, .sequencer] ++ rs.map Move.sinkAnswer

/-- Under the sequencer's loop a request, an ALIGN or a DEMOD always finds less than a chunk in the accumulator, and
FILL never reaches `CHUNK + BLOCK_WORDS` (44_sequencer_control.md R185 (b) and (c)). -/
abbrev Machine.State.Drained (s : State) : Prop :=
  (s.state = .acq ∨ s.state = .align ∨ s.state = .demod → s.fill < s.params.chunk) ∧
    s.fill < s.params.chunk + s.params.blockWords

end Sys2Proof
end

