-- ==== Sys2Proof/Certificates/Slice0/Obligations.lean ====
section
/-! DEFINITION. The statements for the provers. Each says which rule of spec/ it formalises. -/

open Sys2Proof Sys2Proof.Machine

/-! ## Encoding -/

/-- 30_encoding.md R80 to R84: the word of a command decodes to that command, with every operand IMM16 admits. -/
def Obligations.DecodeOfEncodeIsTheCommand : Prop := ∀ i : Instr, i.wf = true → decode (encode i) = .ok i

/-- 30_encoding.md R80 to R84: a word that decodes is the word of the command it decodes to, and that command is
well-formed. -/
def Obligations.EncodeOfDecodeIsTheWord : Prop :=
  ∀ (c : Word) (i : Instr), decode c = .ok i → i.wf = true ∧ encode i = c

/-- 30_encoding.md R83, 44_sequencer_control.md R170: which words are illegal (reason 1) and which are reserved
(reason 2), by their fields. -/
def Obligations.WordIsRefusedExactlyForItsFields : Prop :=
  ∀ c : Word,
    (decode c = .error .illegalBits ↔
      c.extractLsb' 8 8 ≠ 0#8 ∨
        (c.extractLsb' 16 16 ≠ 0#16 ∧ c.extractLsb' 0 8 ≠ 0x03#8 ∧ c.extractLsb' 0 8 ≠ 0x08#8)) ∧
      (decode c = .error .reservedOpcode ↔
        c.extractLsb' 8 8 = 0#8 ∧ c.extractLsb' 16 16 = 0#16 ∧ 0x0B ≤ (c.extractLsb' 0 8).toNat)

/-- 30_encoding.md R82: words of 95_test_vectors.md section 0, written out, decode to their commands. -/
def Obligations.WrittenOutWordsDecode : Prop :=
  decode 0x00000000#32 = .ok .nop ∧ decode 0x00000001#32 = .ok .acq ∧ decode 0x00000002#32 = .ok .align ∧
    decode 0x00040003#32 = .ok (.demod 4) ∧ decode 0xFFFF0003#32 = .ok (.demod 65535) ∧
    decode 0x00000004#32 = .ok .emit ∧ decode 0x00000005#32 = .ok .drain ∧ decode 0x00000006#32 = .ok .cycle ∧
    decode 0x00000007#32 = .ok .run ∧ decode 0xB3330008#32 = .ok (.tlook 0xB333#16) ∧
    decode 0x00000009#32 = .ok .clrst ∧ decode 0x0000000A#32 = .ok .srst

/-! ## Steps -/

/-- 10_state.md R34, 20_memory.md R65: where the next move is a host write of a command's word to CMD (offsets 0 to 3:
address bits 1:0 are ignored), the step is the command's meaning, the move taken off the agenda. That moves are placed
in `agenda` is the model's choice (log 4). -/
def Obligations.StepRunsTheDecodedCommand : Prop :=
  ∀ (s : State) (off : BitVec 8) (c : Word) (rest : List Move) (i : Instr),
    s.agenda = .hostWrite off c :: rest → off &&& 0xFC#8 = 0#8 → decode c = .ok i →
      step s = exec i { s with agenda := rest }

/-- 60_exceptions.md R201 for the two reasons a word itself gives (44_sequencer_control.md R170, checks 1 and 2): the
refusal is recorded, the first reason and word are kept, and nothing else changes. That moves are placed in `agenda` is
the model's choice (log 4). -/
def Obligations.StepRecordsAWordThatIsNoCommand : Prop :=
  ∀ (s : State) (off : BitVec 8) (c : Word) (rest : List Move) (e : DecodeError),
    s.agenda = .hostWrite off c :: rest → off &&& 0xFC#8 = 0#8 → decode c = .error e →
      (s.badcmd = true → step s = .next { s with agenda := rest }) ∧
        (s.badcmd = false → step s = .next { s with
          agenda := rest
          badcmd := true
          badcode := (match e with | .illegalBits => .illegalBits | .reservedOpcode => .reservedOpcode)
          lastbad := c })

/-- The model's choices of log 4 and log 5 (93 I10: every interleaving is a possible run): the step is that of the first
move placed, which leaves the agenda; with none placed it is that of a freely drawn move, whichever it is, and the draw is
counted. -/
def Obligations.StepTakesThePlacedOrTheFreeMove : Prop :=
  ∀ s : State,
    (∀ (m : Move) (rest : List Move), s.agenda = m :: rest → step s = takeMove m { s with agenda := rest }) ∧
      (s.agenda = [] → step s = takeMove (Config.freeMove s.draws) { s with draws := s.draws + 1 })

/-- 41_acquire_align.md R111, R112, 43_accumulator_framer.md R152, 44_sequencer_control.md R182: a step is refused
exactly when its agent has no step then. That such a move is refused by name is the model's choice (log 6). -/
def Obligations.StepIsRefusedExactlyWhenTheAgentHasNone : Prop :=
  ∀ s : State, s.Inv → ((∃ r, step s = .refused r) ↔ ¬ s.enabled s.nextMove)

/-! ## The line code and the symbol table -/

/-- 30_encoding.md section 1: the two patterns of a byte are complements, and the examples given there. It is the spec's
own inference ("derived") from a line code it supplies from general knowledge (log 3). -/
def Obligations.EncodingsOfAByteAreComplements : Prop :=
  (∀ v : Byte, (enc v true).1 = (enc v false).1 ^^^ 0xFFFF#16) ∧
    (enc 0x00#8 false).1 = 0xCCCC#16 ∧ (enc 0x00#8 true).1 = 0x3333#16 ∧ (enc 0x01#8 false).1 = 0xB333#16 ∧
    (enc 0xFF#8 false).1 = 0xAAAA#16 ∧ (enc 0xFF#8 true).1 = 0x5555#16

/-- 30_encoding.md section 1: the valid patterns are the halves whose every bit cell starts with a transition, and no two
of the 512 pairs of a byte and a level share one. The spec supplies the line code from general knowledge (log 3). -/
def Obligations.ValidPatternsAreTheTransitionPatterns : Prop :=
  (∀ h : Half, (∃ v L, (enc v L).1 = h) ↔
      ∀ i : Nat, 1 ≤ i → i ≤ 7 → h.getLsbD (15 - 2 * i) ≠ h.getLsbD (15 - (2 * i - 1))) ∧
    ∀ (v v' : Byte) (L L' : Bool), (enc v L).1 = (enc v' L').1 → v = v' ∧ L = L'

/-- 40_symbol_table.md section 1: the reference table reads each bit as R100 says, and inverts the line code (the spec's
own inference, and a line code it supplies from general knowledge: log 3). -/
def Obligations.ReferenceTableInvertsTheLineCode : Prop :=
  (∀ (h : Half) (i : Nat), i < 8 → (refSymtab h).getLsbD i = (h.getLsbD (15 - 2 * i) ^^ h.getLsbD (14 - 2 * i))) ∧
    ∀ (v : Byte) (L : Bool), refSymtab (enc v L).1 = v

/-- 40_symbol_table.md section 1: decoding ignores the polarity, the spec's own inference ("derived"; log 3 for the line
code). -/
def Obligations.DecodingIgnoresPolarity : Prop :=
  (∀ p : Params, p.SymtabOk → ∀ v : Byte, symtab p (enc v false).1 = v ∧ symtab p (enc v true).1 = v) ∧
    ∀ h : Half, refSymtab (h ^^^ 0xFFFF#16) = refSymtab h

/-- 40_symbol_table.md R102, 00_scope.md R13: every total function from halves to bytes is some instance's table; the
table's form is the model's choice (log 2). -/
def Obligations.EveryTableIsSomeInstances : Prop :=
  ∀ (f : Half → Byte) (p : Params), ∃ t : SymTab, ∀ h : Half, symtab { p with symtab := t } h = f h

/-- 30_encoding.md section 2: the data word built for a sample decodes to that sample, at either starting level, under
every admissible table (the line code is general knowledge: log 3). -/
def Obligations.DataWordDecodesToItsSample : Prop :=
  ∀ p : Params, p.SymtabOk → ∀ (x : Half) (L : Bool), decodeWord p (dataWord x L) = x

/-- 40_symbol_table.md R103: TLOOK in every state, its encoding, its checks, its frame, its corner cases and its
example. The clauses on `enc` (0x0000 and 0xFFFF are no encodings) and on the reference table rest on the line code and
the table the spec supplies from general knowledge (log 3, PRESUMED), and `symtab = []` is how the model writes "the
reference table" (log 2). -/
def Obligations.TlookReturnsTheTableEntry : Prop :=
  (∀ (h : Half) (s : State), exec (.tlook h) s = .next { s with result := (symtab s.params h).setWidth 32 }) ∧
    (∀ h : Half, decode (h ++ 0x0008#16) = .ok (.tlook h)) ∧
    (∀ (c : Word) (s : State), c.extractLsb' 0 8 = 0x08#8 → c.extractLsb' 8 8 ≠ 0#8 →
      takeMove (.hostWrite 0x00#8 c) s = .next (raiseBadcmd .illegalBits c s)) ∧
    (∀ (v : Byte) (L : Bool), (enc v L).1 ≠ 0x0000#16 ∧ (enc v L).1 ≠ 0xFFFF#16) ∧
    ∀ s : State, s.params.symtab = [] →
      exec (.tlook 0xB333#16) s = .next { s with result := 0x00000001#32 } ∧
        exec (.tlook 0x0000#16) s = .next { s with result := 0#32 } ∧
        exec (.tlook 0xFFFF#16) s = .next { s with result := 0#32 }

/-! ## The register port -/

/-- 10_state.md section 2, R35: every field of STATUS, that writes to it are ignored, and its reset value (the spec's own
inference from R39). How long the sticky fields last is FaultAndStickyFlagsLastUntilTheirClears. -/
def Obligations.StatusRegisterFields : Prop :=
  (∀ s : State,
    let w := s.hostReadValue 0x04#8
    w.extractLsb' 0 3 =
        (match s.state with
          | .idle => 0#3 | .acq => 1#3 | .align => 2#3 | .demod => 3#3 | .emit => 4#3 | .fault => 7#3) ∧
      w.getLsbD 3 = s.run ∧
      (w.getLsbD 4 = true ↔ s.state = .acq ∨ s.state = .align ∨ s.state = .demod ∨ s.state = .emit) ∧
      (w.getLsbD 5 = true ↔ s.cur < s.params.blockWords) ∧
      (w.getLsbD 6 = true ↔ s.params.chunk ≤ s.fill) ∧
      w.getLsbD 7 = s.clamp ∧ w.getLsbD 8 = s.fatal ∧ w.getLsbD 9 = s.badcmd ∧ w.getLsbD 10 = s.drop ∧
      w.getLsbD 11 = s.syncfix ∧
      w.extractLsb' 12 4 =
        (match s.badcode with
          | .none => 0#4 | .illegalBits => 1#4 | .reservedOpcode => 2#4 | .faulted => 3#4 | .busy => 4#4) ∧
      w.extractLsb' 16 16 = 0#16) ∧
    (∀ (s : State) (v : Word), takeMove (.hostWrite 0x04#8 v) s = .next s) ∧
    ∀ p : Params, p.Wf → (State.resetOf p).hostReadValue 0x04#8 = 0#32

/-- 10_state.md R36: IE stores `v & 0x700` in every state, a read returns that value, and it resets to 0. -/
def Obligations.InterruptEnablesKeepThreeBits : Prop :=
  (∀ (s : State) (v : Word),
    ∃ t, takeMove (.hostWrite 0x08#8 v) s = .next t ∧ t = { s with ie := t.ie } ∧
      t.hostReadValue 0x08#8 = v &&& 0x00000700#32 ∧
      t.ie.getLsbD 0 = v.getLsbD 8 ∧ t.ie.getLsbD 1 = v.getLsbD 9 ∧ t.ie.getLsbD 2 = v.getLsbD 10) ∧
    ∀ p : Params, (State.resetOf p).hostReadValue 0x08#8 = 0#32

/-- 10_state.md R37: the counting registers read their element zero-extended, ignore writes, and their reset values. -/
def Obligations.ElementRegistersReadTheirElement : Prop :=
  (∀ s : State, s.Inv →
    (s.hostReadValue 0x0C#8).toNat = s.fill ∧ (s.hostReadValue 0x10#8).toNat = s.cur ∧
      s.hostReadValue 0x14#8 = s.result ∧ s.hostReadValue 0x18#8 = s.lastbad ∧ s.hostReadValue 0x1C#8 = s.blkCnt ∧
      s.hostReadValue 0x20#8 = s.fixCnt ∧ s.hostReadValue 0x24#8 = s.sentCnt ∧ s.hostReadValue 0x28#8 = s.dropCnt) ∧
    (∀ (s : State) (v : Word) (off : BitVec 8), 0x0C ≤ off.toNat → off.toNat < 0x2C →
      takeMove (.hostWrite off v) s = .next s) ∧
    ∀ p : Params, p.Wf →
      (State.resetOf p).hostReadValue 0x0C#8 = 0#32 ∧
        ((State.resetOf p).hostReadValue 0x10#8).toNat = p.blockWords ∧
        ∀ off : BitVec 8, 0x14 ≤ off.toNat → off.toNat < 0x2C → (State.resetOf p).hostReadValue off = 0#32

/-- 10_state.md R38: the configuration registers read the instance's parameters in every state, and no step of any agent
changes what they read. -/
def Obligations.ConfigurationRegistersReadTheParameters : Prop :=
  (∀ s : State, s.params.Wf →
    (s.hostReadValue 0x2C#8).toNat = s.params.chunk ∧ (s.hostReadValue 0x30#8).toNat = s.params.blockWords ∧
      (s.hostReadValue 0x34#8).toNat = s.params.accCap ∧
      ((s.hostReadValue 0x38#8).extractLsb' 0 16).toNat = s.params.syncOffset ∧
      (s.hostReadValue 0x38#8).extractLsb' 16 8 = s.params.syncFlip ∧
      ((s.hostReadValue 0x38#8).extractLsb' 24 1).toNat = s.params.dataPhase.val ∧
      (s.hostReadValue 0x38#8).extractLsb' 25 7 = 0#7 ∧
      (s.hostReadValue 0x3C#8).extractLsb' 0 8 = s.params.hdr.b0 ∧
      (s.hostReadValue 0x3C#8).extractLsb' 8 8 = s.params.hdr.b1 ∧
      (s.hostReadValue 0x3C#8).extractLsb' 16 8 = s.params.hdr.b2 ∧
      (s.hostReadValue 0x3C#8).extractLsb' 24 8 = s.params.hdr.b3 ∧
      (s.hostReadValue 0x40#8).extractLsb' 0 8 = s.params.hdr.b4 ∧
      (s.hostReadValue 0x40#8).extractLsb' 8 24 = 0#24) ∧
    ∀ (s t : State) (off : BitVec 8), 0x2C ≤ off.toNat → off.toNat < 0x44 → step s = .next t →
      t.hostReadValue off = s.hostReadValue off

/-- 20_memory.md R57: address bits 1:0 are ignored, unmapped offsets read 0, a host read changes no element of the block
(only `rdata`, the model's record of the value returned: log 7), and only writes to CMD and IE have an effect. -/
def Obligations.HostAccessesActOnOneRegister : Prop :=
  (∀ (s : State) (off : BitVec 8), s.hostReadValue off = s.hostReadValue (off &&& 0xFC#8)) ∧
    (∀ (s : State) (off : BitVec 8) (v : Word),
      takeMove (.hostWrite off v) s = takeMove (.hostWrite (off &&& 0xFC#8) v) s) ∧
    (∀ (s : State) (off : BitVec 8), 0x44 ≤ off.toNat → s.hostReadValue off = 0#32) ∧
    (∀ (s : State) (off : BitVec 8), takeMove (.hostRead off) s = .next { s with rdata := s.hostReadValue off }) ∧
    (∀ (s : State) (off : BitVec 8) (v : Word), off &&& 0xFC#8 ≠ 0x00#8 → off &&& 0xFC#8 ≠ 0x08#8 →
      takeMove (.hostWrite off v) s = .next s) ∧
    ∀ s : State, s.hostReadValue 0x00#8 = 0#32

/-- 60_exceptions.md R205: the interrupt line as STATUS and IE show it, and what drops it. -/
def Obligations.InterruptLineFollowsFlagsAndEnables : Prop :=
  ∀ s : State,
    (s.irq = true ↔
      ((s.hostReadValue 0x04#8).getLsbD 8 = true ∧ (s.hostReadValue 0x08#8).getLsbD 8 = true) ∨
        ((s.hostReadValue 0x04#8).getLsbD 9 = true ∧ (s.hostReadValue 0x08#8).getLsbD 9 = true) ∨
        ((s.hostReadValue 0x04#8).getLsbD 10 = true ∧ (s.hostReadValue 0x08#8).getLsbD 10 = true)) ∧
      (∃ t, exec .clrst s = .next t ∧ (t.irq = true ↔ s.fatal = true ∧ s.ie.getLsbD 0 = true)) ∧
      (∃ t, takeMove .resetInput s = .next t ∧ t.irq = false) ∧
      ∃ t, takeMove (.hostWrite 0x08#8 0#32) s = .next t ∧ t.irq = false

/-! ## Control commands -/

/-- 44_sequencer_control.md R173: NOP in every state, its word, and the refusal of a NOP word with other bits set. -/
def Obligations.NopChangesNothing : Prop :=
  (∀ s : State, exec .nop s = .next s) ∧ decode 0x00000000#32 = .ok .nop ∧
    ∀ (c : Word) (s : State), c.extractLsb' 0 8 = 0#8 → c ≠ 0#32 →
      takeMove (.hostWrite 0x00#8 c) s = .next (raiseBadcmd .illegalBits c s)

/-- 44_sequencer_control.md R174: CLRST in every state; FAULT is not left; a later refusal latches a new first reason;
its example; its word, and the refusal of a CLRST word with other bits set. -/
def Obligations.ClrstClearsTheStickyFlags : Prop :=
  (∀ s : State,
    exec .clrst s = .next { s with badcmd := false, badcode := .none, lastbad := 0#32, drop := false }) ∧
    (∀ (s t : State) (k : BadCode) (c : Word), exec .clrst s = .next t →
      (raiseBadcmd k c t).badcode = k ∧ (raiseBadcmd k c t).lastbad = c) ∧
    (∀ s : State, s.badcmd = true → s.badcode = .illegalBits → s.hostReadValue 0x08#8 = 0x200#32 →
      s.irq = true ∧ ∃ t, exec .clrst s = .next t ∧ t.irq = false) ∧
    decode 0x00000009#32 = .ok .clrst ∧
    ∀ (c : Word) (s : State), c.extractLsb' 0 8 = 0x09#8 → c ≠ 0x00000009#32 →
      takeMove (.hostWrite 0x00#8 c) s = .next (raiseBadcmd .illegalBits c s)

/-- 10_state.md R39: SRST and the reset input (70_reset_and_hazards.md section 1: one effect), in every state, give every
element of R20 the value of R39's table; the parameters stay. It says nothing of the model's own fields `agenda`, `draws`
and `rdata` (log 11). -/
def Obligations.ResetGivesEveryElementItsValue : Prop :=
  ∀ s : State,
    exec .srst s = takeMove .resetInput s ∧
      ∃ t, exec .srst s = .next t ∧
        t = { t with
          state := .idle, seqOp := .none, raw := [], cur := s.params.blockWords, acc := [], fill := 0, pay := []
          pend := false, run := false, fatal := false, badcmd := false, badcode := .none, lastbad := 0#32
          drop := false, syncfix := false, clamp := false, ie := 0#3, result := 0#32, blkCnt := 0#32
          fixCnt := 0#32, sentCnt := 0#32, dropCnt := 0#32, params := s.params } ∧
        t.acqReq = false ∧ t.sendReq = false ∧ t.irq = false ∧
        ∀ (sp : Space) (a : Nat), (t.mem sp).read a = none

/-- 41_acquire_align.md R110, 44_sequencer_control.md R171, R172: ACQ, CYCLE and RUN on a ready block start a block
request, and change nothing else (RUN also sets RUN). -/
def Obligations.RequestCommandsStartABlockRequest : Prop :=
  ∀ s : State, s.Ready →
    exec .acq s = .next { s with seqOp := .acq, state := .acq } ∧
      exec .cycle s = .next { s with seqOp := .cycle, state := .acq } ∧
      exec .run s = .next { s with seqOp := .run, run := true, state := .acq } ∧
      ∀ i t, (i = .acq ∨ i = .cycle ∨ i = .run) → exec i s = .next t → t.acqReq = true ∧ t.busy = true

/-- 44_sequencer_control.md R170, 60_exceptions.md R201: a command outside NOP, TLOOK, CLRST and SRST is refused with
reason 3 by a faulted block, else with reason 4 by a busy block or one in run mode; only the refusal is recorded, the
first reason and word being kept. -/
def Obligations.CommandsAreRefusedWhileFaultedOrBusy : Prop :=
  ∀ (c : Word) (i : Instr) (s : State), decode c = .ok i →
    (i = .acq ∨ i = .align ∨ (∃ n, i = .demod n) ∨ i = .emit ∨ i = .drain ∨ i = .cycle ∨ i = .run) →
      (s.fatal = true → exec i s = .next { s with
        badcmd := true
        badcode := (if s.badcmd = true then s.badcode else .faulted)
        lastbad := (if s.badcmd = true then s.lastbad else c) }) ∧
        (s.fatal = false → s.state ≠ .idle ∨ s.run = true → exec i s = .next { s with
          badcmd := true
          badcode := (if s.badcmd = true then s.badcode else .busy)
          lastbad := (if s.badcmd = true then s.lastbad else c) })

/-! ## ALIGN -/

/-- 41_acquire_align.md R120: ALIGN on a ready block, in its three cases, with its frame. -/
def Obligations.AlignCorrectsTheSyncByte : Prop :=
  ∀ s : State, s.Inv → s.Ready →
    (s.cur = s.params.blockWords → exec .align s = .next { s with syncfix := false }) ∧
      (s.cur ≠ s.params.blockWords → ∃ b t, s.raw.read s.params.syncOffset = some b ∧ exec .align s = .next t ∧
        (b &&& s.params.syncFlip = s.params.syncFlip →
          t = { s with raw := t.raw, syncfix := true, fixCnt := s.fixCnt + 1 } ∧
            t.raw.read s.params.syncOffset = some (b ^^^ s.params.syncFlip) ∧
            ∀ a, a ≠ s.params.syncOffset → t.raw.read a = s.raw.read a) ∧
        (b &&& s.params.syncFlip ≠ s.params.syncFlip → t = { s with syncfix := false }))

/-- 41_acquire_align.md section 2, the spec's own inference ("derived") from R120: after a correction the masked bits are 0 and every other bit and byte is as before. -/
def Obligations.CorrectionClearsTheMaskedBitsOnly : Prop :=
  ∀ s t : State, s.Inv → s.Ready → exec .align s = .next t → t.syncfix = true →
    ∃ b b', s.raw.read s.params.syncOffset = some b ∧ t.raw.read s.params.syncOffset = some b' ∧
      b' &&& s.params.syncFlip = 0#8 ∧ b' &&& ~~~ s.params.syncFlip = b &&& ~~~ s.params.syncFlip ∧
      ∀ a, a ≠ s.params.syncOffset → t.raw.read a = s.raw.read a

/-- 41_acquire_align.md section 2, the spec's own inference ("derived") from R120: a second ALIGN changes no byte of RAW and, after a correction, clears SYNCFIX and leaves
FIX_CNT alone. -/
def Obligations.SecondAlignChangesNoByte : Prop :=
  ∀ s t : State, s.Inv → s.Ready → exec .align s = .next t →
    ∃ u, exec .align t = .next u ∧ u.raw = t.raw ∧
      (t.syncfix = true → u.syncfix = false ∧ u.fixCnt = t.fixCnt)

/-- 41_acquire_align.md section 2, the spec's own inference ("derived") from R120 and R132: ALIGN changes no sample still to be decoded unless the sync byte lies in the data word of
a pair not yet demodulated. -/
def Obligations.AlignLeavesOtherSamplesAlone : Prop :=
  ∀ s t : State, s.Inv → s.Ready → exec .align s = .next t →
    s.params.syncOffset / 4 % 2 ≠ s.params.dataPhase.val ∨ s.params.syncOffset / 4 < s.cur →
      ∀ m, t.samples m = s.samples m

/-! ## DEMOD -/

/-- 42_demodulator.md R132 (and R130, 20_memory.md R52): DEMOD on a ready block appends the samples of the next `m`
pairs, low byte first, with `m` as R132 computes it; its flag and its frame. -/
def Obligations.DemodAppendsDecodedSamples : Prop :=
  ∀ (n : Nat) (s : State), s.Inv → s.Ready →
    let pairs := (s.params.blockWords - s.cur) / 2
    let m := min (n / 2) (min pairs ((s.params.accCap - s.fill) / 2))
    ∃ t, exec (.demod n) s = .next t ∧
      t = { s with
        acc := t.acc
        fill := s.fill + 2 * m
        cur := s.cur + 2 * m
        clamp := decide (m < n / 2) && decide (m < pairs) } ∧
      (∀ a, a < s.fill ∨ s.fill + 2 * m ≤ a → t.acc.read a = s.acc.read a) ∧
      ∀ j, j < m →
        let w := s.rawWord (s.cur + 2 * j + s.params.dataPhase.val)
        t.acc.read (s.fill + 2 * j) = some (symtab s.params (w.extractLsb' 0 16)) ∧
          t.acc.read (s.fill + 2 * j + 1) = some (symtab s.params (w.extractLsb' 16 16))

/-- 42_demodulator.md R135, its sentence on CLAMP: CLAMP is set exactly when the accumulator had no room for another sample while the target
was not reached and the block was not exhausted. -/
def Obligations.ClampMarksACapacityStop : Prop :=
  ∀ (n : Nat) (s : State), s.Inv → s.Ready →
    ∃ t, exec (.demod n) s = .next t ∧
      (t.clamp = true ↔
        s.params.accCap - t.fill < 2 ∧ t.fill - s.fill < 2 * (n / 2) ∧ t.cur ≠ s.params.blockWords)

/-- 42_demodulator.md R136: odd counts are rounded down, counts 0 and 1 and an exhausted block produce nothing and read
no word of RAW (which may hold no value). -/
def Obligations.DemodCountsWholeSamples : Prop :=
  ∀ (n : Nat) (s : State), s.Ready →
    (n % 2 = 1 → exec (.demod n) s = exec (.demod (n - 1)) s) ∧
      (n = 0 ∨ n = 1 → exec (.demod n) s = .next { s with clamp := false }) ∧
      (s.cur = s.params.blockWords → exec (.demod n) s = .next { s with clamp := false }) ∧
      ∀ t, exec (.demod n) s = .next t → (t.fill - s.fill) % 2 = 0

/-! ## EMIT and DRAIN -/

/-- 43_accumulator_framer.md R156 (run by R150 and R155; 20_memory.md R54): EMIT and DRAIN on a ready block with a whole
chunk: the payload, the shift, the submission, and the frame. -/
def Obligations.FramingSubmitsHeaderAndOldestChunk : Prop :=
  ∀ s : State, s.Inv → s.Ready → s.params.chunk ≤ s.fill →
    ∃ t, exec .emit s = .next t ∧ exec .drain s = .next { t with seqOp := .drain } ∧
      t = { s with
        seqOp := .emit
        state := .emit
        pend := true
        fill := s.fill - s.params.chunk
        acc := t.acc
        pay := t.pay } ∧
      (∀ a, a < 5 → t.pay.read a = s.params.hdr.bytes[a]?) ∧
      (∀ a, a < s.params.chunk → t.pay.read (5 + a) = s.acc.read a ∧ (t.pay.read (5 + a)).isSome = true) ∧
      (∀ a, 5 + s.params.chunk ≤ a → t.pay.read a = s.pay.read a) ∧
      (∀ a, a < s.fill - s.params.chunk → t.acc.read a = s.acc.read (a + s.params.chunk)) ∧
      (∀ a, s.fill - s.params.chunk ≤ a → t.acc.read a = none) ∧
      t.offered = .ok (s.params.hdr.bytes ++ s.acc.bytes.take s.params.chunk)

/-- 43_accumulator_framer.md R151. -/
def Obligations.ShortAccumulatorIsNotFramed : Prop :=
  ∀ s : State, s.Ready → s.fill < s.params.chunk → exec .emit s = .next s ∧ exec .drain s = .next s

/-- 43_accumulator_framer.md sections 2 and 3 (its section 3 is the spec's own inference): while a submission is outstanding the sink is offered the header and exactly
one chunk. -/
def Obligations.OfferedPayloadIsHeaderAndOneChunk : Prop :=
  ∀ s : State, s.Inv → s.sendReq = true →
    ∃ pcm, s.offered = .ok (s.params.hdr.bytes ++ pcm) ∧ pcm.length = s.params.chunk

/-- 43_accumulator_framer.md sections 1 and 3, the spec's own inference ("derived") from R156 and R183, with the moves
placed in the agenda (log 4): a DRAIN and its sink answers submit every whole chunk, whatever the answers,
and leave FILL mod CHUNK bytes, in order. -/
def Obligations.DrainSubmitsEveryWholeChunk : Prop :=
  ∀ (s : State) (rs : List SinkAnswer), s.Inv → s.Ready → rs.length = s.fill / s.params.chunk →
    s.agenda = Move.cmd .drain :: rs.map Move.sinkAnswer →
      ∃ t, runSteps (1 + rs.length) s = .next t ∧ t.agenda = [] ∧ t.state = .idle ∧ t.pend = false ∧
        t.fill = s.fill % s.params.chunk ∧
        t.acc.bytes = s.acc.bytes.drop (s.fill / s.params.chunk * s.params.chunk) ∧
        t.sentCnt = s.sentCnt + BitVec.ofNat 32 (rs.count .ok) ∧
        t.dropCnt = s.dropCnt + BitVec.ofNat 32 (rs.count .error) ∧
        t.drop = (s.drop || rs.contains .error)

/-! ## The other agents' steps -/

/-- 41_acquire_align.md R112, 44_sequencer_control.md R181, 20_memory.md R58: a delivery replaces every word at once,
rewinds the cursor, is counted, and continues as the operation in progress says. It is about every state that requests a
block: that a delivery under SEQ_OP NONE, EMIT or DRAIN, which the rules never pair with a request, goes on to ALIGN is the
model's choice (log 15). -/
def Obligations.DeliveryReplacesTheBlock : Prop :=
  ∀ (s : State) (ws : List Word), s.acqReq = true → ws.length = s.params.blockWords →
      ∃ t, takeMove (.deliver ws) s = .next t ∧
        t = { s with
          raw := t.raw
          cur := 0
          blkCnt := s.blkCnt + 1
          state := (if s.seqOp = .acq then .idle else .align)
          seqOp := (if s.seqOp = .acq then .none else s.seqOp) } ∧
        (∀ (i : Nat) (h : i < ws.length), t.rawWord i = ws[i]) ∧ t.raw.Whole t.params.rawBytes

/-- 20_memory.md R53: byte `k` of a held block is bits `8*(k mod 4)+7 .. 8*(k mod 4)` of word `k div 4`, and that is the
word the datapath reads. -/
def Obligations.RawByteViewIsLittleEndian : Prop :=
  ∀ s : State, s.Inv → s.cur < s.params.blockWords →
    (∀ k, k < 4 * s.params.blockWords →
      s.raw.read k = some ((s.rawWord (k / 4)).extractLsb' (8 * (k % 4)) 8)) ∧
      ∀ i, i < s.params.blockWords → readRawWord s i = .ok (s.rawWord i)

/-- 60_exceptions.md R204, 41_acquire_align.md R113: an acquisition fault enters FAULT, and leaves the accumulator, the
counters and the other flags as they were; no submission is outstanding. -/
def Obligations.AcquisitionFaultEntersFault : Prop :=
  ∀ s : State, s.Inv → s.acqReq = true →
    takeMove .acqFault s = .next { s with
      fatal := true
      state := .fault
      run := false
      seqOp := .none
      raw := []
      cur := s.params.blockWords } ∧
      s.pend = false

/-- 44_sequencer_control.md R183, 60_exceptions.md R209 (and 43_accumulator_framer.md R153, R154): what a sink answer counts,
and how the operation in progress goes on, the same after `error` as after `ok`. That PAY's bytes stay listed where no
submission is outstanding afterwards (`t.pay = s.pay`) is the model's choice (log 9): there PAY holds no value to read
(93 I5). -/
def Obligations.SinkAnswerIsCountedAndTheOperationGoesOn : Prop :=
  ∀ (s : State) (r : SinkAnswer), s.Inv → s.sendReq = true →
    ∃ t, takeMove (.sinkAnswer r) s = .next t ∧
      t = { s with
        state := t.state
        seqOp := t.seqOp
        pend := t.pend
        acc := t.acc
        fill := t.fill
        pay := t.pay
        sentCnt := (match r with | .ok => s.sentCnt + 1 | .error => s.sentCnt)
        drop := (match r with | .ok => s.drop | .error => true)
        dropCnt := (match r with | .ok => s.dropCnt | .error => s.dropCnt + 1) } ∧
      (s.seqOp = .emit ∨ s.fill < s.params.chunk →
        t.pend = false ∧ t.acc = s.acc ∧ t.fill = s.fill ∧ t.pay = s.pay ∧
          (s.seqOp = .run → t.state = .acq ∧ t.seqOp = .run) ∧
          (s.seqOp ≠ .run → t.state = .idle ∧ t.seqOp = .none)) ∧
      (s.seqOp ≠ .emit → s.params.chunk ≤ s.fill →
        t.pend = true ∧ t.state = .emit ∧ t.seqOp = s.seqOp ∧ t.fill = s.fill - s.params.chunk ∧
          t.pay.bytes = s.params.hdr.bytes ++ s.acc.bytes.take s.params.chunk ∧
          t.acc.bytes = s.acc.bytes.drop s.params.chunk)

/-- 44_sequencer_control.md R182, state ALIGN: the sequencer runs the aligner on the fresh block and moves to DEMOD. -/
def Obligations.SequencerAlignsTheBlock : Prop :=
  ∀ s : State, s.Inv → s.state = .align →
    ∃ b t, s.raw.read s.params.syncOffset = some b ∧ takeMove .sequencer s = .next t ∧
      (b &&& s.params.syncFlip = s.params.syncFlip →
        t = { s with state := .demod, raw := t.raw, syncfix := true, fixCnt := s.fixCnt + 1 } ∧
          t.raw.read s.params.syncOffset = some (b ^^^ s.params.syncFlip) ∧
          ∀ a, a ≠ s.params.syncOffset → t.raw.read a = s.raw.read a) ∧
      (b &&& s.params.syncFlip ≠ s.params.syncFlip →
        t = { s with state := .demod, syncfix := false })

/-- 44_sequencer_control.md R182, state DEMOD: the sequencer demodulates the whole block as far as the accumulator takes
it, then frames a whole chunk or ends the cycle. That PAY's bytes stay listed where nothing is framed is the model's choice
(log 9). -/
def Obligations.SequencerDemodulatesThenFramesOrEnds : Prop :=
  ∀ s : State, s.Inv → s.state = .demod →
    let m := min (s.params.blockWords / 2) ((s.params.accCap - s.fill) / 2)
    let decoded := s.acc.bytes ++ s.samples m
    ∃ t, takeMove .sequencer s = .next t ∧
      t = { s with
        state := t.state
        seqOp := t.seqOp
        pend := t.pend
        acc := t.acc
        fill := t.fill
        pay := t.pay
        cur := 2 * m
        clamp := decide (m < s.params.blockWords / 2) } ∧
      (s.params.chunk ≤ s.fill + 2 * m →
        t.state = .emit ∧ t.pend = true ∧ t.seqOp = s.seqOp ∧ t.fill = s.fill + 2 * m - s.params.chunk ∧
          t.pay.bytes = s.params.hdr.bytes ++ decoded.take s.params.chunk ∧
          t.acc.bytes = decoded.drop s.params.chunk) ∧
      (s.fill + 2 * m < s.params.chunk →
        t.pend = false ∧ t.fill = s.fill + 2 * m ∧ t.pay = s.pay ∧ t.acc.bytes = decoded ∧
          (s.seqOp = .run → t.state = .acq ∧ t.seqOp = .run) ∧
          (s.seqOp = .cycle → t.state = .idle ∧ t.seqOp = .none))

/-! ## The whole machine -/

/-- Every step of every agent keeps the invariant (10_state.md R21 to R28, R30, 43_accumulator_framer.md R158,
60_exceptions.md R202, R204). -/
def Obligations.EveryStepKeepsTheInvariant : Prop := ∀ s t : State, s.Inv → step s = .next t → t.Inv

/-- 10_state.md R39, R40: reset meets the invariant, for every admissible instance and for the one of log 1. -/
def Obligations.ResetMeetsTheInvariant : Prop :=
  (∀ p : Params, p.Wf → (State.resetOf p).Inv) ∧ State.reset.Inv

/-- 93_implementation_defined.md part 1, I3 to I5 ("never reached by the rules"): no step from a state that meets the invariant
reads a byte that holds no value or leaves a memory; a move whose agent has a step completes. -/
def Obligations.EnabledMovesComplete : Prop :=
  ∀ s : State, s.Inv → (∀ f, step s ≠ .fault f) ∧ (s.enabled s.nextMove → ∃ t, step s = .next t)

/-- 10_state.md R20: no step writes the parameters. -/
def Obligations.NoStepWritesTheParameters : Prop := ∀ s t : State, step s = .next t → t.params = s.params

/-- 44_sequencer_control.md R180, 10_state.md R21: STATE moves as the table says, whichever agent steps. -/
def Obligations.StateMovesByTheTable : Prop :=
  ∀ s t : State, s.Inv → step s = .next t → t.state = s.tableState s.nextMove

/-- 60_exceptions.md R207 (and R201, 10_state.md R35, 44_sequencer_control.md R174): FAULT is left by reset only, and
until then the accumulator and FATAL stay and nothing is submitted; FATAL lasts until reset, and BADCMD with the first
reason and word, and DROP, until CLRST or reset. -/
def Obligations.FaultAndStickyFlagsLastUntilTheirClears : Prop :=
  (∀ s t : State, s.Inv → s.state = .fault → step s = .next t → s.nextMove.resets = false →
    t.state = .fault ∧ t.fatal = true ∧ t.acc = s.acc ∧ t.fill = s.fill ∧ t.pend = false) ∧
    ∀ s t : State, step s = .next t → s.nextMove.resets = false →
      (s.fatal = true → t.fatal = true) ∧
        ((∀ off v, s.nextMove = .hostWrite off v → regAt off = some .cmd → decode v ≠ .ok .clrst) →
          (s.badcmd = true → t.badcmd = true ∧ t.badcode = s.badcode ∧ t.lastbad = s.lastbad) ∧
            (s.drop = true → t.drop = true))

/-- 44_sequencer_control.md R184: run mode ends by an acquisition fault or reset only, and no command but those accepted
always changes a buffer or the sequencer while it lasts. -/
def Obligations.RunModeEndsByFaultOrResetOnly : Prop :=
  (∀ s t : State, s.run = true → step s = .next t → t.run = false →
    s.nextMove = .acqFault ∨ s.nextMove.resets = true) ∧
    ∀ (s t : State) (off : BitVec 8) (c : Word), s.run = true → s.nextMove = .hostWrite off c →
      s.nextMove.resets = false → step s = .next t →
        t.state = s.state ∧ t.seqOp = s.seqOp ∧ t.raw = s.raw ∧ t.cur = s.cur ∧ t.acc = s.acc ∧ t.fill = s.fill ∧
          t.pay = s.pay ∧ t.pend = s.pend

/-- 70_reset_and_hazards.md section 3, the spec's own inference ("derived") from R152 and R156: no step writes PAY while a submission is outstanding, but the one by
which the sink answers it and reset. -/
def Obligations.PayloadIsStableWhileSubmitted : Prop :=
  ∀ s t : State, s.Inv → s.pend = true → step s = .next t → s.nextMove.resets = false →
    (∀ r, s.nextMove ≠ .sinkAnswer r) → t.pay = s.pay ∧ t.pend = true

/-- 10_state.md R29, R31: no rule reads the counters or SYNCFIX; two states that differ in them only step alike, but for
the counters, SYNCFIX and the value a host read returns, which the model records in `rdata` (log 7). -/
def Obligations.CountersSteerNothing : Prop :=
  ∀ (s t : State) (b f n d : Word) (x : Bool), step s = .next t →
    ∃ (b' f' n' d' r' : Word) (x' : Bool),
      step { s with blkCnt := b, fixCnt := f, sentCnt := n, dropCnt := d, syncfix := x } =
        .next { t with blkCnt := b', fixCnt := f', sentCnt := n', dropCnt := d', syncfix := x', rdata := r' }

/-! ## Properties of runs. A run starts at reset of any admissible instance, with any moves placed; what is drawn freely
when none is left is arbitrary, so each statement is about every interleaving (logs 4 and 5). -/

/-- 43_accumulator_framer.md section 3, the spec's own inference ("derived") from R156 and R132: the PCM parts of the
payloads submitted since the last reset, followed by the accumulator, are the bytes Demodulate appended, in order. Every
step of every agent keeps this, from every state that meets the invariant and every history; so it holds in every run. -/
def Obligations.SubmittedBytesAreTheAppendedBytes : Prop :=
  (∀ (s t : State) (h : History), s.Inv → h.Conserved s → step s = .next t →
    (h.observe s.nextMove s t).Conserved t) ∧
    ∀ (p : Params) (ms : List Move) (k : Nat) (s : State) (h : History), p.Wf →
      observedRun k { State.resetOf p with agenda := ms } (History.start false) = some (s, h) → h.Conserved s

/-- 43_accumulator_framer.md section 3, the spec's own inference ("derived") from R156: every submitted payload is the header and exactly one chunk. -/
def Obligations.EverySubmittedPayloadIsHeaderAndChunk : Prop :=
  ∀ (p : Params) (ms : List Move) (k : Nat) (s : State) (h : History), p.Wf →
    observedRun k { State.resetOf p with agenda := ms } (History.start false) = some (s, h) →
      ∀ pl ∈ h.submitted, pl.length = 5 + p.chunk ∧ pl.take 5 = p.hdr.bytes

/-- 43_accumulator_framer.md section 3, the spec's own inference ("derived"): with less than a chunk left, the payloads submitted since reset are the appended
bytes divided by CHUNK, and FILL is the remainder. -/
def Obligations.PayloadCountIsAppendedBytesDivChunk : Prop :=
  ∀ (p : Params) (ms : List Move) (k : Nat) (s : State) (h : History), p.Wf →
    observedRun k { State.resetOf p with agenda := ms } (History.start false) = some (s, h) → s.fill < p.chunk →
      h.submitted.length = h.appended.length / p.chunk ∧ s.fill = h.appended.length % p.chunk

/-- 44_sequencer_control.md section 3, bound (a) of the spec's own inference ("derived") from R182: the sequencer's Demodulate never stops on capacity when it finds room for a
block. -/
def Obligations.SequencerNeverStopsOnCapacity : Prop :=
  ∀ (s t : State), s.Inv → s.state = .demod → s.nextMove = .sequencer →
    s.fill ≤ s.params.accCap - s.params.blockWords → step s = .next t →
      t.clamp = false ∧ t.cur = s.params.blockWords

/-- 44_sequencer_control.md section 3, bound (b) of the spec's own inference ("derived") from R182 and R183: a cycle, or a drain, ends only with less than a chunk left. -/
def Obligations.CyclesEndBelowOneChunk : Prop :=
  ∀ s t : State, s.Inv → s.state = .demod ∨ (s.state = .emit ∧ s.seqOp ≠ .emit) → step s = .next t →
    s.nextMove.resets = false → t.state = .idle ∨ t.state = .acq → t.fill < t.params.chunk

/-- 44_sequencer_control.md section 3, bound (c) of the spec's own inference ("derived") from R182 and R183: in run mode, from a cycle's start with less than a chunk, FILL stays below
`CHUNK + BLOCK_WORDS <= ACC_CAP - CHUNK` at every point, and below CHUNK at every request, ALIGN and DEMOD. -/
def Obligations.RunModeKeepsTheFillBound : Prop :=
  ∀ s t : State, s.Inv → s.run = true → s.Drained → step s = .next t → t.run = true →
    t.Drained ∧ t.params.chunk + t.params.blockWords ≤ t.params.accCap - t.params.chunk

/-- 44_sequencer_control.md section 3, the spec's own inference ("derived") from R182: in run mode the bytes of the blocks
delivered and demodulated are CHUNK times the submissions plus FILL. Every step that stays in run mode keeps this, from
every state that meets the invariant with the run-mode bound on FILL; so, in run mode from reset, when the next block is
requested, the submissions are the delivered bytes divided by CHUNK and FILL is the remainder. -/
def Obligations.RunModeOutputRate : Prop :=
  (∀ (s t : State) (h : History), s.Inv → s.run = true → s.Drained → h.Accounted s → step s = .next t → t.run = true →
    t.Drained ∧ (h.observe s.nextMove s t).Accounted t) ∧
    ∀ (p : Params) (ms : List Move) (k : Nat) (s0 s : State) (h : History), p.Wf →
      exec .run { State.resetOf p with agenda := ms } = .next s0 →
        observedRun k s0 (History.start true) = some (s, h) → h.inRunMode = true → s.state = .acq →
          h.submitted.length = h.blocks * p.blockWords / p.chunk ∧ s.fill = h.blocks * p.blockWords % p.chunk

/-- 30_encoding.md section 3, the spec's own inference ("derived") from R171 and R132, with the moves placed in the agenda
(log 4): the pseudo-instruction `step` (ACQ, ALIGN, DEMOD.ALL, DRAIN, with the agents' steps its waits
stand for) has the effect of CYCLE with the same delivery and answers, when `BLOCK_WORDS <= 65535`: the states reached
differ in SEQ_OP at most, and not at all once idle. -/
def Obligations.HostSteppedCycleEqualsCycle : Prop :=
  ∀ (s : State) (ws : List Word) (rs : List SinkAnswer), s.Inv → s.Ready → s.params.blockWords ≤ 65535 →
    ws.length = s.params.blockWords →
      (∃ t, runSteps 5 { s with agenda := hostSteppedCycle ws rs } = .next t) ∧
        ∀ t, runSteps (5 + rs.length) { s with agenda := hostSteppedCycle ws rs } = .next t →
          ∃ u, runSteps (4 + rs.length) { s with agenda := sequencedCycle ws rs } = .next u ∧
            u = { t with seqOp := u.seqOp } ∧ (t.state = .idle → u = t)
end

