-- ==== Sys2Proof/Laws/Memory.lean ====
section
/-! SUPPORT. The memory operations: read after write, the canonical form kept, and memories that hold a run of bytes
from address 0. -/

namespace Sys2Proof.Machine

open Sys2Proof

@[simp] theorem Memory.read_nil (a : Nat) : Memory.read [] a = none := rfl

theorem Memory.read_cons (k : Nat) (v : Byte) (m : Memory) (a : Nat) :
    Memory.read ((k, v) :: m) a = if a = k then some v else Memory.read m a := rfl

/-- A read after a write gives the value written, and every other byte is left alone. -/
theorem Memory.read_write (m : Memory) (a c : Nat) (b : Byte) :
    Memory.read (Memory.write m a b) c = if c = a then some b else Memory.read m c := by
  induction m with
  | nil => rfl
  | cons kv m ih =>
    obtain ⟨k, v⟩ := kv
    unfold Memory.write
    split
    · simp [Memory.read_cons]
    · split
      · subst_vars; simp only [Memory.read_cons]; split <;> rfl
      · simp only [Memory.read_cons, ih]; split <;> split <;> first | rfl | omega

/-- The bytes from a bound on take no value, those below stay. -/
theorem Memory.read_dropFrom (m : Memory) (n a : Nat) :
    Memory.read (Memory.dropFrom m n) a = if a < n then Memory.read m a else none := by
  induction m with
  | nil => simp [Memory.dropFrom]
  | cons kv m ih =>
    obtain ⟨k, v⟩ := kv
    simp only [Memory.dropFrom, List.filter_cons, Memory.read_cons] at ih ⊢
    by_cases hk : k < n
    · simp only [hk, decide_true, if_true, Memory.read_cons, ih]; split <;> split <;> first | rfl | omega
    · simp only [hk, decide_false, Bool.false_eq_true, if_false, ih]
      by_cases ha : a < n
      · simp only [ha, if_true]; rw [if_neg (by omega)]
      · simp only [ha, if_false]

/-- A written memory lists the address written and no other new one. -/
theorem Memory.mem_write {m : Memory} {a : Nat} {b : Byte} {c : Host.Cell} (h : c ∈ Memory.write m a b) :
    c = (a, b) ∨ c ∈ m := by
  induction m with
  | nil => simpa [Memory.write] using h
  | cons kv m ih =>
    obtain ⟨k, v⟩ := kv
    unfold Memory.write at h
    split at h
    · simpa using h
    · split at h
      · rcases List.mem_cons.mp h with h | h
        · exact .inl h
        · exact .inr (List.mem_cons_of_mem _ h)
      · rcases List.mem_cons.mp h with h | h
        · exact .inr (h ▸ List.mem_cons_self ..)
        · exact (ih h).imp id (List.mem_cons_of_mem _)

/-- A write keeps the canonical form. -/
theorem Memory.wf_write {m : Memory} (h : Memory.wf m) (a : Nat) (b : Byte) : Memory.wf (Memory.write m a b) := by
  induction m with
  | nil => simp [Memory.write, Memory.wf]
  | cons kv m ih =>
    obtain ⟨k, v⟩ := kv
    obtain ⟨hk, hm⟩ := List.pairwise_cons.mp h
    unfold Memory.write
    split
    · rename_i hlt
      refine List.pairwise_cons.mpr ⟨fun c hc => ?_, h⟩
      rcases List.mem_cons.mp hc with rfl | hc
      · exact hlt
      · exact Nat.lt_trans hlt (hk c hc)
    · split
      · rename_i heq
        exact List.pairwise_cons.mpr ⟨fun c hc => heq ▸ hk c hc, hm⟩
      · rename_i h1 h2
        refine List.pairwise_cons.mpr ⟨fun c hc => ?_, ih hm⟩
        rcases Memory.mem_write hc with rfl | hc
        · show k < a; omega
        · exact hk c hc

/-- Dropping values keeps the canonical form. -/
theorem Memory.wf_dropFrom {m : Memory} (h : Memory.wf m) (n : Nat) : Memory.wf (Memory.dropFrom m n) :=
  List.Pairwise.filter _ h

theorem Memory.le_of_mem_ofBytes {bs : List Byte} {a : Nat} {c : Host.Cell} (h : c ∈ Memory.ofBytes a bs) : a ≤ c.1 := by
  induction bs generalizing a with
  | nil => cases h
  | cons b bs ih =>
    rcases List.mem_cons.mp h with rfl | h
    · exact Nat.le_refl _
    · exact Nat.le_of_succ_le (ih h)

/-- A run of bytes is in the canonical form. -/
theorem Memory.wf_ofBytes (a : Nat) (bs : List Byte) : Memory.wf (Memory.ofBytes a bs) := by
  induction bs generalizing a with
  | nil => exact List.Pairwise.nil
  | cons b bs ih => exact List.pairwise_cons.mpr ⟨fun c hc => Memory.le_of_mem_ofBytes hc, ih (a + 1)⟩

theorem Memory.read_ofBytes (a : Nat) (bs : List Byte) (c : Nat) :
    Memory.read (Memory.ofBytes a bs) c = if a ≤ c then bs[c - a]? else none := by
  induction bs generalizing a with
  | nil => simp [Memory.ofBytes]
  | cons b bs ih =>
    simp only [Memory.ofBytes, Memory.read_cons, ih]
    rcases Nat.lt_trichotomy c a with h | rfl | h
    · rw [if_neg (by omega), if_neg (by omega), if_neg (by omega)]
    · simp
    · rw [if_neg (by omega), if_pos (by omega), if_pos (by omega), show c - a = (c - (a + 1)) + 1 by omega]; rfl

/-- Reading a run of bytes from address 0. -/
@[simp] theorem Memory.read_ofBytes_zero (bs : List Byte) (c : Nat) : Memory.read (Memory.ofBytes 0 bs) c = bs[c]? := by
  simp [Memory.read_ofBytes]

@[simp] theorem Memory.bytes_ofBytes (a : Nat) (bs : List Byte) : Memory.bytes (Memory.ofBytes a bs) = bs := by
  induction bs generalizing a with
  | nil => rfl
  | cons b bs ih => simpa [Memory.ofBytes, Memory.bytes] using ih (a + 1)

@[simp] theorem Memory.bytes_nil : Memory.bytes [] = [] := rfl

theorem Memory.whole_ofBytes (bs : List Byte) : Memory.Whole (Memory.ofBytes 0 bs) bs.length := by
  simp [Memory.Whole]

theorem Memory.whole_nil : Memory.Whole [] 0 := by simp [Memory.Whole, Memory.ofBytes]

/-- A whole memory is the run of its bytes. -/
theorem Memory.Whole.exists_bytes {m : Memory} {n : Nat} (h : Memory.Whole m n) :
    ∃ bs : List Byte, m = Memory.ofBytes 0 bs ∧ bs.length = n := ⟨_, h.1, h.2⟩

/-- No address below the first listed one holds a value, in the canonical form. -/
theorem Memory.read_eq_none_of_lt {m : Memory} {a : Nat} (h : ∀ c ∈ m, a < c.1) : Memory.read m a = none := by
  induction m with
  | nil => rfl
  | cons kv m ih =>
    obtain ⟨k, v⟩ := kv
    have hk : a < k := h (k, v) (List.mem_cons_self ..)
    rw [Memory.read_cons, if_neg (by omega)]
    exact ih fun c hc => h c (List.mem_cons_of_mem _ hc)

/-- In the canonical form equal contents are equal data. -/
theorem Memory.ext {m m' : Memory} (h : Memory.wf m) (h' : Memory.wf m')
    (hr : ∀ a, Memory.read m a = Memory.read m' a) : m = m' := by
  induction m generalizing m' with
  | nil =>
    cases m' with
    | nil => rfl
    | cons kv m' =>
      have := hr kv.1
      rw [Memory.read_cons, if_pos rfl] at this
      cases this
  | cons kv m ih =>
    obtain ⟨k, v⟩ := kv
    obtain ⟨hk, hm⟩ := List.pairwise_cons.mp h
    cases m' with
    | nil => simpa [Memory.read_cons] using hr k
    | cons kv' m' =>
      obtain ⟨k', v'⟩ := kv'
      obtain ⟨hk', hm'⟩ := List.pairwise_cons.mp h'
      have key : k = k' := by
        rcases Nat.lt_trichotomy k k' with hlt | rfl | hlt
        · have := hr k
          rw [Memory.read_cons, if_pos rfl, Memory.read_cons, if_neg (by omega),
            Memory.read_eq_none_of_lt fun c hc => Nat.lt_trans hlt (hk' c hc)] at this
          cases this
        · rfl
        · have := hr k'
          rw [Memory.read_cons, if_neg (by omega), Memory.read_cons, if_pos rfl,
            Memory.read_eq_none_of_lt fun c hc => Nat.lt_trans hlt (hk c hc)] at this
          cases this
      subst key
      have hv : v = v' := by have := hr k; simpa [Memory.read_cons] using this
      subst hv
      congr 1
      refine ih hm hm' fun a => ?_
      by_cases ha : a = k
      · subst ha
        rw [Memory.read_eq_none_of_lt fun c hc => hk c hc, Memory.read_eq_none_of_lt fun c hc => hk' c hc]
      · have := hr a
        rwa [Memory.read_cons, if_neg ha, Memory.read_cons, if_neg ha] at this

/-- Writing a byte of a run replaces it. -/
theorem Memory.write_ofBytes (bs : List Byte) (i : Nat) (b : Byte) (h : i < bs.length) :
    Memory.write (Memory.ofBytes 0 bs) i b = Memory.ofBytes 0 (bs.set i b) := by
  refine Memory.ext (Memory.wf_write (Memory.wf_ofBytes _ _) _ _) (Memory.wf_ofBytes _ _) fun a => ?_
  rw [Memory.read_write, Memory.read_ofBytes_zero, Memory.read_ofBytes_zero, List.getElem?_set]
  by_cases ha : a = i
  · subst ha; simp [h]
  · rw [if_neg ha, if_neg (fun h => ha h.symm)]

/-- Writing just behind a run appends the byte. -/
theorem Memory.write_ofBytes_end (bs : List Byte) (b : Byte) :
    Memory.write (Memory.ofBytes 0 bs) bs.length b = Memory.ofBytes 0 (bs ++ [b]) := by
  refine Memory.ext (Memory.wf_write (Memory.wf_ofBytes _ _) _ _) (Memory.wf_ofBytes _ _) fun a => ?_
  rw [Memory.read_write, Memory.read_ofBytes_zero, Memory.read_ofBytes_zero]
  by_cases ha : a = bs.length
  · subst ha; simp
  · rw [if_neg ha]
    rcases Nat.lt_or_ge a bs.length with h | h
    · rw [List.getElem?_append_left h]
    · rw [List.getElem?_eq_none h, List.getElem?_eq_none (by simp; omega)]

/-- Dropping the values from a bound on keeps the bytes before it. -/
theorem Memory.dropFrom_ofBytes (bs : List Byte) (n : Nat) :
    Memory.dropFrom (Memory.ofBytes 0 bs) n = Memory.ofBytes 0 (bs.take n) := by
  refine Memory.ext (Memory.wf_dropFrom (Memory.wf_ofBytes _ _) _) (Memory.wf_ofBytes _ _) fun a => ?_
  rw [Memory.read_dropFrom, Memory.read_ofBytes_zero, Memory.read_ofBytes_zero, List.getElem?_take]

end Sys2Proof.Machine
end

