-- ==== Sys2Proof/Laws/State.lean ====
section
/-! SUPPORT. One lemma per field per named update of the state: later proofs cite these and never unfold an update. -/

namespace Sys2Proof.Machine

open Sys2Proof

/-! ## `raiseBadcmd` -/

@[simp] theorem raiseBadcmd_state (k : BadCode) (c : Word) (s : State) : (raiseBadcmd k c s).state = s.state := rfl
@[simp] theorem raiseBadcmd_seqOp (k : BadCode) (c : Word) (s : State) : (raiseBadcmd k c s).seqOp = s.seqOp := rfl
@[simp] theorem raiseBadcmd_raw (k : BadCode) (c : Word) (s : State) : (raiseBadcmd k c s).raw = s.raw := rfl
@[simp] theorem raiseBadcmd_cur (k : BadCode) (c : Word) (s : State) : (raiseBadcmd k c s).cur = s.cur := rfl
@[simp] theorem raiseBadcmd_acc (k : BadCode) (c : Word) (s : State) : (raiseBadcmd k c s).acc = s.acc := rfl
@[simp] theorem raiseBadcmd_fill (k : BadCode) (c : Word) (s : State) : (raiseBadcmd k c s).fill = s.fill := rfl
@[simp] theorem raiseBadcmd_pay (k : BadCode) (c : Word) (s : State) : (raiseBadcmd k c s).pay = s.pay := rfl
@[simp] theorem raiseBadcmd_pend (k : BadCode) (c : Word) (s : State) : (raiseBadcmd k c s).pend = s.pend := rfl
@[simp] theorem raiseBadcmd_run (k : BadCode) (c : Word) (s : State) : (raiseBadcmd k c s).run = s.run := rfl
@[simp] theorem raiseBadcmd_fatal (k : BadCode) (c : Word) (s : State) : (raiseBadcmd k c s).fatal = s.fatal := rfl
@[simp] theorem raiseBadcmd_badcmd (k : BadCode) (c : Word) (s : State) : (raiseBadcmd k c s).badcmd = true := rfl
@[simp] theorem raiseBadcmd_badcode (k : BadCode) (c : Word) (s : State) : (raiseBadcmd k c s).badcode = (if s.badcmd then s.badcode else k) := rfl
@[simp] theorem raiseBadcmd_lastbad (k : BadCode) (c : Word) (s : State) : (raiseBadcmd k c s).lastbad = (if s.badcmd then s.lastbad else c) := rfl
@[simp] theorem raiseBadcmd_drop (k : BadCode) (c : Word) (s : State) : (raiseBadcmd k c s).drop = s.drop := rfl
@[simp] theorem raiseBadcmd_syncfix (k : BadCode) (c : Word) (s : State) : (raiseBadcmd k c s).syncfix = s.syncfix := rfl
@[simp] theorem raiseBadcmd_clamp (k : BadCode) (c : Word) (s : State) : (raiseBadcmd k c s).clamp = s.clamp := rfl
@[simp] theorem raiseBadcmd_ie (k : BadCode) (c : Word) (s : State) : (raiseBadcmd k c s).ie = s.ie := rfl
@[simp] theorem raiseBadcmd_result (k : BadCode) (c : Word) (s : State) : (raiseBadcmd k c s).result = s.result := rfl
@[simp] theorem raiseBadcmd_blkCnt (k : BadCode) (c : Word) (s : State) : (raiseBadcmd k c s).blkCnt = s.blkCnt := rfl
@[simp] theorem raiseBadcmd_fixCnt (k : BadCode) (c : Word) (s : State) : (raiseBadcmd k c s).fixCnt = s.fixCnt := rfl
@[simp] theorem raiseBadcmd_sentCnt (k : BadCode) (c : Word) (s : State) : (raiseBadcmd k c s).sentCnt = s.sentCnt := rfl
@[simp] theorem raiseBadcmd_dropCnt (k : BadCode) (c : Word) (s : State) : (raiseBadcmd k c s).dropCnt = s.dropCnt := rfl
@[simp] theorem raiseBadcmd_params (k : BadCode) (c : Word) (s : State) : (raiseBadcmd k c s).params = s.params := rfl
@[simp] theorem raiseBadcmd_agenda (k : BadCode) (c : Word) (s : State) : (raiseBadcmd k c s).agenda = s.agenda := rfl
@[simp] theorem raiseBadcmd_draws (k : BadCode) (c : Word) (s : State) : (raiseBadcmd k c s).draws = s.draws := rfl
@[simp] theorem raiseBadcmd_rdata (k : BadCode) (c : Word) (s : State) : (raiseBadcmd k c s).rdata = s.rdata := rfl

/-! ## `raiseAcqFault` -/

@[simp] theorem raiseAcqFault_state (s : State) : (raiseAcqFault s).state = .fault := rfl
@[simp] theorem raiseAcqFault_seqOp (s : State) : (raiseAcqFault s).seqOp = .none := rfl
@[simp] theorem raiseAcqFault_raw (s : State) : (raiseAcqFault s).raw = [] := rfl
@[simp] theorem raiseAcqFault_cur (s : State) : (raiseAcqFault s).cur = s.params.blockWords := rfl
@[simp] theorem raiseAcqFault_acc (s : State) : (raiseAcqFault s).acc = s.acc := rfl
@[simp] theorem raiseAcqFault_fill (s : State) : (raiseAcqFault s).fill = s.fill := rfl
@[simp] theorem raiseAcqFault_pay (s : State) : (raiseAcqFault s).pay = s.pay := rfl
@[simp] theorem raiseAcqFault_pend (s : State) : (raiseAcqFault s).pend = s.pend := rfl
@[simp] theorem raiseAcqFault_run (s : State) : (raiseAcqFault s).run = false := rfl
@[simp] theorem raiseAcqFault_fatal (s : State) : (raiseAcqFault s).fatal = true := rfl
@[simp] theorem raiseAcqFault_badcmd (s : State) : (raiseAcqFault s).badcmd = s.badcmd := rfl
@[simp] theorem raiseAcqFault_badcode (s : State) : (raiseAcqFault s).badcode = s.badcode := rfl
@[simp] theorem raiseAcqFault_lastbad (s : State) : (raiseAcqFault s).lastbad = s.lastbad := rfl
@[simp] theorem raiseAcqFault_drop (s : State) : (raiseAcqFault s).drop = s.drop := rfl
@[simp] theorem raiseAcqFault_syncfix (s : State) : (raiseAcqFault s).syncfix = s.syncfix := rfl
@[simp] theorem raiseAcqFault_clamp (s : State) : (raiseAcqFault s).clamp = s.clamp := rfl
@[simp] theorem raiseAcqFault_ie (s : State) : (raiseAcqFault s).ie = s.ie := rfl
@[simp] theorem raiseAcqFault_result (s : State) : (raiseAcqFault s).result = s.result := rfl
@[simp] theorem raiseAcqFault_blkCnt (s : State) : (raiseAcqFault s).blkCnt = s.blkCnt := rfl
@[simp] theorem raiseAcqFault_fixCnt (s : State) : (raiseAcqFault s).fixCnt = s.fixCnt := rfl
@[simp] theorem raiseAcqFault_sentCnt (s : State) : (raiseAcqFault s).sentCnt = s.sentCnt := rfl
@[simp] theorem raiseAcqFault_dropCnt (s : State) : (raiseAcqFault s).dropCnt = s.dropCnt := rfl
@[simp] theorem raiseAcqFault_params (s : State) : (raiseAcqFault s).params = s.params := rfl
@[simp] theorem raiseAcqFault_agenda (s : State) : (raiseAcqFault s).agenda = s.agenda := rfl
@[simp] theorem raiseAcqFault_draws (s : State) : (raiseAcqFault s).draws = s.draws := rfl
@[simp] theorem raiseAcqFault_rdata (s : State) : (raiseAcqFault s).rdata = s.rdata := rfl

/-! ## `raiseSendError` -/

@[simp] theorem raiseSendError_state (s : State) : (raiseSendError s).state = s.state := rfl
@[simp] theorem raiseSendError_seqOp (s : State) : (raiseSendError s).seqOp = s.seqOp := rfl
@[simp] theorem raiseSendError_raw (s : State) : (raiseSendError s).raw = s.raw := rfl
@[simp] theorem raiseSendError_cur (s : State) : (raiseSendError s).cur = s.cur := rfl
@[simp] theorem raiseSendError_acc (s : State) : (raiseSendError s).acc = s.acc := rfl
@[simp] theorem raiseSendError_fill (s : State) : (raiseSendError s).fill = s.fill := rfl
@[simp] theorem raiseSendError_pay (s : State) : (raiseSendError s).pay = s.pay := rfl
@[simp] theorem raiseSendError_pend (s : State) : (raiseSendError s).pend = s.pend := rfl
@[simp] theorem raiseSendError_run (s : State) : (raiseSendError s).run = s.run := rfl
@[simp] theorem raiseSendError_fatal (s : State) : (raiseSendError s).fatal = s.fatal := rfl
@[simp] theorem raiseSendError_badcmd (s : State) : (raiseSendError s).badcmd = s.badcmd := rfl
@[simp] theorem raiseSendError_badcode (s : State) : (raiseSendError s).badcode = s.badcode := rfl
@[simp] theorem raiseSendError_lastbad (s : State) : (raiseSendError s).lastbad = s.lastbad := rfl
@[simp] theorem raiseSendError_drop (s : State) : (raiseSendError s).drop = true := rfl
@[simp] theorem raiseSendError_syncfix (s : State) : (raiseSendError s).syncfix = s.syncfix := rfl
@[simp] theorem raiseSendError_clamp (s : State) : (raiseSendError s).clamp = s.clamp := rfl
@[simp] theorem raiseSendError_ie (s : State) : (raiseSendError s).ie = s.ie := rfl
@[simp] theorem raiseSendError_result (s : State) : (raiseSendError s).result = s.result := rfl
@[simp] theorem raiseSendError_blkCnt (s : State) : (raiseSendError s).blkCnt = s.blkCnt := rfl
@[simp] theorem raiseSendError_fixCnt (s : State) : (raiseSendError s).fixCnt = s.fixCnt := rfl
@[simp] theorem raiseSendError_sentCnt (s : State) : (raiseSendError s).sentCnt = s.sentCnt := rfl
@[simp] theorem raiseSendError_dropCnt (s : State) : (raiseSendError s).dropCnt = s.dropCnt + 1 := rfl
@[simp] theorem raiseSendError_params (s : State) : (raiseSendError s).params = s.params := rfl
@[simp] theorem raiseSendError_agenda (s : State) : (raiseSendError s).agenda = s.agenda := rfl
@[simp] theorem raiseSendError_draws (s : State) : (raiseSendError s).draws = s.draws := rfl
@[simp] theorem raiseSendError_rdata (s : State) : (raiseSendError s).rdata = s.rdata := rfl

/-! ## `clearSticky` -/

@[simp] theorem clearSticky_state (s : State) : (clearSticky s).state = s.state := rfl
@[simp] theorem clearSticky_seqOp (s : State) : (clearSticky s).seqOp = s.seqOp := rfl
@[simp] theorem clearSticky_raw (s : State) : (clearSticky s).raw = s.raw := rfl
@[simp] theorem clearSticky_cur (s : State) : (clearSticky s).cur = s.cur := rfl
@[simp] theorem clearSticky_acc (s : State) : (clearSticky s).acc = s.acc := rfl
@[simp] theorem clearSticky_fill (s : State) : (clearSticky s).fill = s.fill := rfl
@[simp] theorem clearSticky_pay (s : State) : (clearSticky s).pay = s.pay := rfl
@[simp] theorem clearSticky_pend (s : State) : (clearSticky s).pend = s.pend := rfl
@[simp] theorem clearSticky_run (s : State) : (clearSticky s).run = s.run := rfl
@[simp] theorem clearSticky_fatal (s : State) : (clearSticky s).fatal = s.fatal := rfl
@[simp] theorem clearSticky_badcmd (s : State) : (clearSticky s).badcmd = false := rfl
@[simp] theorem clearSticky_badcode (s : State) : (clearSticky s).badcode = .none := rfl
@[simp] theorem clearSticky_lastbad (s : State) : (clearSticky s).lastbad = 0#32 := rfl
@[simp] theorem clearSticky_drop (s : State) : (clearSticky s).drop = false := rfl
@[simp] theorem clearSticky_syncfix (s : State) : (clearSticky s).syncfix = s.syncfix := rfl
@[simp] theorem clearSticky_clamp (s : State) : (clearSticky s).clamp = s.clamp := rfl
@[simp] theorem clearSticky_ie (s : State) : (clearSticky s).ie = s.ie := rfl
@[simp] theorem clearSticky_result (s : State) : (clearSticky s).result = s.result := rfl
@[simp] theorem clearSticky_blkCnt (s : State) : (clearSticky s).blkCnt = s.blkCnt := rfl
@[simp] theorem clearSticky_fixCnt (s : State) : (clearSticky s).fixCnt = s.fixCnt := rfl
@[simp] theorem clearSticky_sentCnt (s : State) : (clearSticky s).sentCnt = s.sentCnt := rfl
@[simp] theorem clearSticky_dropCnt (s : State) : (clearSticky s).dropCnt = s.dropCnt := rfl
@[simp] theorem clearSticky_params (s : State) : (clearSticky s).params = s.params := rfl
@[simp] theorem clearSticky_agenda (s : State) : (clearSticky s).agenda = s.agenda := rfl
@[simp] theorem clearSticky_draws (s : State) : (clearSticky s).draws = s.draws := rfl
@[simp] theorem clearSticky_rdata (s : State) : (clearSticky s).rdata = s.rdata := rfl

/-! ## `softReset` -/

@[simp] theorem softReset_state (s : State) : (softReset s).state = .idle := rfl
@[simp] theorem softReset_seqOp (s : State) : (softReset s).seqOp = .none := rfl
@[simp] theorem softReset_raw (s : State) : (softReset s).raw = [] := rfl
@[simp] theorem softReset_cur (s : State) : (softReset s).cur = s.params.blockWords := rfl
@[simp] theorem softReset_acc (s : State) : (softReset s).acc = [] := rfl
@[simp] theorem softReset_fill (s : State) : (softReset s).fill = 0 := rfl
@[simp] theorem softReset_pay (s : State) : (softReset s).pay = [] := rfl
@[simp] theorem softReset_pend (s : State) : (softReset s).pend = false := rfl
@[simp] theorem softReset_run (s : State) : (softReset s).run = false := rfl
@[simp] theorem softReset_fatal (s : State) : (softReset s).fatal = false := rfl
@[simp] theorem softReset_badcmd (s : State) : (softReset s).badcmd = false := rfl
@[simp] theorem softReset_badcode (s : State) : (softReset s).badcode = .none := rfl
@[simp] theorem softReset_lastbad (s : State) : (softReset s).lastbad = 0#32 := rfl
@[simp] theorem softReset_drop (s : State) : (softReset s).drop = false := rfl
@[simp] theorem softReset_syncfix (s : State) : (softReset s).syncfix = false := rfl
@[simp] theorem softReset_clamp (s : State) : (softReset s).clamp = false := rfl
@[simp] theorem softReset_ie (s : State) : (softReset s).ie = 0#3 := rfl
@[simp] theorem softReset_result (s : State) : (softReset s).result = 0#32 := rfl
@[simp] theorem softReset_blkCnt (s : State) : (softReset s).blkCnt = 0#32 := rfl
@[simp] theorem softReset_fixCnt (s : State) : (softReset s).fixCnt = 0#32 := rfl
@[simp] theorem softReset_sentCnt (s : State) : (softReset s).sentCnt = 0#32 := rfl
@[simp] theorem softReset_dropCnt (s : State) : (softReset s).dropCnt = 0#32 := rfl
@[simp] theorem softReset_params (s : State) : (softReset s).params = s.params := rfl
@[simp] theorem softReset_agenda (s : State) : (softReset s).agenda = s.agenda := rfl
@[simp] theorem softReset_draws (s : State) : (softReset s).draws = s.draws := rfl
@[simp] theorem softReset_rdata (s : State) : (softReset s).rdata = s.rdata := rfl

/-! ## `startRequest` -/

@[simp] theorem startRequest_state (op : SeqOp) (s : State) : (startRequest op s).state = .acq := rfl
@[simp] theorem startRequest_seqOp (op : SeqOp) (s : State) : (startRequest op s).seqOp = op := rfl
@[simp] theorem startRequest_raw (op : SeqOp) (s : State) : (startRequest op s).raw = s.raw := rfl
@[simp] theorem startRequest_cur (op : SeqOp) (s : State) : (startRequest op s).cur = s.cur := rfl
@[simp] theorem startRequest_acc (op : SeqOp) (s : State) : (startRequest op s).acc = s.acc := rfl
@[simp] theorem startRequest_fill (op : SeqOp) (s : State) : (startRequest op s).fill = s.fill := rfl
@[simp] theorem startRequest_pay (op : SeqOp) (s : State) : (startRequest op s).pay = s.pay := rfl
@[simp] theorem startRequest_pend (op : SeqOp) (s : State) : (startRequest op s).pend = s.pend := rfl
@[simp] theorem startRequest_run (op : SeqOp) (s : State) : (startRequest op s).run = s.run := rfl
@[simp] theorem startRequest_fatal (op : SeqOp) (s : State) : (startRequest op s).fatal = s.fatal := rfl
@[simp] theorem startRequest_badcmd (op : SeqOp) (s : State) : (startRequest op s).badcmd = s.badcmd := rfl
@[simp] theorem startRequest_badcode (op : SeqOp) (s : State) : (startRequest op s).badcode = s.badcode := rfl
@[simp] theorem startRequest_lastbad (op : SeqOp) (s : State) : (startRequest op s).lastbad = s.lastbad := rfl
@[simp] theorem startRequest_drop (op : SeqOp) (s : State) : (startRequest op s).drop = s.drop := rfl
@[simp] theorem startRequest_syncfix (op : SeqOp) (s : State) : (startRequest op s).syncfix = s.syncfix := rfl
@[simp] theorem startRequest_clamp (op : SeqOp) (s : State) : (startRequest op s).clamp = s.clamp := rfl
@[simp] theorem startRequest_ie (op : SeqOp) (s : State) : (startRequest op s).ie = s.ie := rfl
@[simp] theorem startRequest_result (op : SeqOp) (s : State) : (startRequest op s).result = s.result := rfl
@[simp] theorem startRequest_blkCnt (op : SeqOp) (s : State) : (startRequest op s).blkCnt = s.blkCnt := rfl
@[simp] theorem startRequest_fixCnt (op : SeqOp) (s : State) : (startRequest op s).fixCnt = s.fixCnt := rfl
@[simp] theorem startRequest_sentCnt (op : SeqOp) (s : State) : (startRequest op s).sentCnt = s.sentCnt := rfl
@[simp] theorem startRequest_dropCnt (op : SeqOp) (s : State) : (startRequest op s).dropCnt = s.dropCnt := rfl
@[simp] theorem startRequest_params (op : SeqOp) (s : State) : (startRequest op s).params = s.params := rfl
@[simp] theorem startRequest_agenda (op : SeqOp) (s : State) : (startRequest op s).agenda = s.agenda := rfl
@[simp] theorem startRequest_draws (op : SeqOp) (s : State) : (startRequest op s).draws = s.draws := rfl
@[simp] theorem startRequest_rdata (op : SeqOp) (s : State) : (startRequest op s).rdata = s.rdata := rfl

/-! ## `resetOf` -/

@[simp] theorem resetOf_state (p : Params) : (State.resetOf p).state = .idle := rfl
@[simp] theorem resetOf_seqOp (p : Params) : (State.resetOf p).seqOp = .none := rfl
@[simp] theorem resetOf_raw (p : Params) : (State.resetOf p).raw = [] := rfl
@[simp] theorem resetOf_cur (p : Params) : (State.resetOf p).cur = p.blockWords := rfl
@[simp] theorem resetOf_acc (p : Params) : (State.resetOf p).acc = [] := rfl
@[simp] theorem resetOf_fill (p : Params) : (State.resetOf p).fill = 0 := rfl
@[simp] theorem resetOf_pay (p : Params) : (State.resetOf p).pay = [] := rfl
@[simp] theorem resetOf_pend (p : Params) : (State.resetOf p).pend = false := rfl
@[simp] theorem resetOf_run (p : Params) : (State.resetOf p).run = false := rfl
@[simp] theorem resetOf_fatal (p : Params) : (State.resetOf p).fatal = false := rfl
@[simp] theorem resetOf_badcmd (p : Params) : (State.resetOf p).badcmd = false := rfl
@[simp] theorem resetOf_badcode (p : Params) : (State.resetOf p).badcode = .none := rfl
@[simp] theorem resetOf_lastbad (p : Params) : (State.resetOf p).lastbad = 0#32 := rfl
@[simp] theorem resetOf_drop (p : Params) : (State.resetOf p).drop = false := rfl
@[simp] theorem resetOf_syncfix (p : Params) : (State.resetOf p).syncfix = false := rfl
@[simp] theorem resetOf_clamp (p : Params) : (State.resetOf p).clamp = false := rfl
@[simp] theorem resetOf_ie (p : Params) : (State.resetOf p).ie = 0#3 := rfl
@[simp] theorem resetOf_result (p : Params) : (State.resetOf p).result = 0#32 := rfl
@[simp] theorem resetOf_blkCnt (p : Params) : (State.resetOf p).blkCnt = 0#32 := rfl
@[simp] theorem resetOf_fixCnt (p : Params) : (State.resetOf p).fixCnt = 0#32 := rfl
@[simp] theorem resetOf_sentCnt (p : Params) : (State.resetOf p).sentCnt = 0#32 := rfl
@[simp] theorem resetOf_dropCnt (p : Params) : (State.resetOf p).dropCnt = 0#32 := rfl
@[simp] theorem resetOf_params (p : Params) : (State.resetOf p).params = p := rfl
@[simp] theorem resetOf_agenda (p : Params) : (State.resetOf p).agenda = [] := rfl
@[simp] theorem resetOf_draws (p : Params) : (State.resetOf p).draws = 0 := rfl
@[simp] theorem resetOf_rdata (p : Params) : (State.resetOf p).rdata = 0#32 := rfl

/-! ## Replacing a memory -/

@[simp] theorem mem_raw (s : State) : s.mem .raw = s.raw := rfl
@[simp] theorem setMem_raw (s : State) (m : Memory) : s.setMem .raw m = { s with raw := m } := rfl
@[simp] theorem spaceSize_raw (p : Params) : spaceSize p .raw = p.rawBytes := rfl
@[simp] theorem mem_acc (s : State) : s.mem .acc = s.acc := rfl
@[simp] theorem setMem_acc (s : State) (m : Memory) : s.setMem .acc m = { s with acc := m } := rfl
@[simp] theorem spaceSize_acc (p : Params) : spaceSize p .acc = p.accCap := rfl
@[simp] theorem mem_pay (s : State) : s.mem .pay = s.pay := rfl
@[simp] theorem setMem_pay (s : State) (m : Memory) : s.setMem .pay m = { s with pay := m } := rfl
@[simp] theorem spaceSize_pay (p : Params) : spaceSize p .pay = p.payLen := rfl

/-! ## `endCycle` -/

@[simp] theorem endCycle_raw (s : State) : (endCycle s).raw = s.raw := by unfold endCycle; split <;> rfl
@[simp] theorem endCycle_cur (s : State) : (endCycle s).cur = s.cur := by unfold endCycle; split <;> rfl
@[simp] theorem endCycle_acc (s : State) : (endCycle s).acc = s.acc := by unfold endCycle; split <;> rfl
@[simp] theorem endCycle_fill (s : State) : (endCycle s).fill = s.fill := by unfold endCycle; split <;> rfl
@[simp] theorem endCycle_pay (s : State) : (endCycle s).pay = s.pay := by unfold endCycle; split <;> rfl
@[simp] theorem endCycle_pend (s : State) : (endCycle s).pend = s.pend := by unfold endCycle; split <;> rfl
@[simp] theorem endCycle_run (s : State) : (endCycle s).run = s.run := by unfold endCycle; split <;> rfl
@[simp] theorem endCycle_fatal (s : State) : (endCycle s).fatal = s.fatal := by unfold endCycle; split <;> rfl
@[simp] theorem endCycle_badcmd (s : State) : (endCycle s).badcmd = s.badcmd := by unfold endCycle; split <;> rfl
@[simp] theorem endCycle_badcode (s : State) : (endCycle s).badcode = s.badcode := by unfold endCycle; split <;> rfl
@[simp] theorem endCycle_lastbad (s : State) : (endCycle s).lastbad = s.lastbad := by unfold endCycle; split <;> rfl
@[simp] theorem endCycle_drop (s : State) : (endCycle s).drop = s.drop := by unfold endCycle; split <;> rfl
@[simp] theorem endCycle_syncfix (s : State) : (endCycle s).syncfix = s.syncfix := by unfold endCycle; split <;> rfl
@[simp] theorem endCycle_clamp (s : State) : (endCycle s).clamp = s.clamp := by unfold endCycle; split <;> rfl
@[simp] theorem endCycle_ie (s : State) : (endCycle s).ie = s.ie := by unfold endCycle; split <;> rfl
@[simp] theorem endCycle_result (s : State) : (endCycle s).result = s.result := by unfold endCycle; split <;> rfl
@[simp] theorem endCycle_blkCnt (s : State) : (endCycle s).blkCnt = s.blkCnt := by unfold endCycle; split <;> rfl
@[simp] theorem endCycle_fixCnt (s : State) : (endCycle s).fixCnt = s.fixCnt := by unfold endCycle; split <;> rfl
@[simp] theorem endCycle_sentCnt (s : State) : (endCycle s).sentCnt = s.sentCnt := by unfold endCycle; split <;> rfl
@[simp] theorem endCycle_dropCnt (s : State) : (endCycle s).dropCnt = s.dropCnt := by unfold endCycle; split <;> rfl
@[simp] theorem endCycle_params (s : State) : (endCycle s).params = s.params := by unfold endCycle; split <;> rfl
@[simp] theorem endCycle_agenda (s : State) : (endCycle s).agenda = s.agenda := by unfold endCycle; split <;> rfl
@[simp] theorem endCycle_draws (s : State) : (endCycle s).draws = s.draws := by unfold endCycle; split <;> rfl
@[simp] theorem endCycle_rdata (s : State) : (endCycle s).rdata = s.rdata := by unfold endCycle; split <;> rfl

/-! ## `afterDelivery` -/

@[simp] theorem afterDelivery_raw (s : State) : (afterDelivery s).raw = s.raw := by unfold afterDelivery; split <;> rfl
@[simp] theorem afterDelivery_cur (s : State) : (afterDelivery s).cur = s.cur := by unfold afterDelivery; split <;> rfl
@[simp] theorem afterDelivery_acc (s : State) : (afterDelivery s).acc = s.acc := by unfold afterDelivery; split <;> rfl
@[simp] theorem afterDelivery_fill (s : State) : (afterDelivery s).fill = s.fill := by unfold afterDelivery; split <;> rfl
@[simp] theorem afterDelivery_pay (s : State) : (afterDelivery s).pay = s.pay := by unfold afterDelivery; split <;> rfl
@[simp] theorem afterDelivery_pend (s : State) : (afterDelivery s).pend = s.pend := by unfold afterDelivery; split <;> rfl
@[simp] theorem afterDelivery_run (s : State) : (afterDelivery s).run = s.run := by unfold afterDelivery; split <;> rfl
@[simp] theorem afterDelivery_fatal (s : State) : (afterDelivery s).fatal = s.fatal := by unfold afterDelivery; split <;> rfl
@[simp] theorem afterDelivery_badcmd (s : State) : (afterDelivery s).badcmd = s.badcmd := by unfold afterDelivery; split <;> rfl
@[simp] theorem afterDelivery_badcode (s : State) : (afterDelivery s).badcode = s.badcode := by unfold afterDelivery; split <;> rfl
@[simp] theorem afterDelivery_lastbad (s : State) : (afterDelivery s).lastbad = s.lastbad := by unfold afterDelivery; split <;> rfl
@[simp] theorem afterDelivery_drop (s : State) : (afterDelivery s).drop = s.drop := by unfold afterDelivery; split <;> rfl
@[simp] theorem afterDelivery_syncfix (s : State) : (afterDelivery s).syncfix = s.syncfix := by unfold afterDelivery; split <;> rfl
@[simp] theorem afterDelivery_clamp (s : State) : (afterDelivery s).clamp = s.clamp := by unfold afterDelivery; split <;> rfl
@[simp] theorem afterDelivery_ie (s : State) : (afterDelivery s).ie = s.ie := by unfold afterDelivery; split <;> rfl
@[simp] theorem afterDelivery_result (s : State) : (afterDelivery s).result = s.result := by unfold afterDelivery; split <;> rfl
@[simp] theorem afterDelivery_blkCnt (s : State) : (afterDelivery s).blkCnt = s.blkCnt := by unfold afterDelivery; split <;> rfl
@[simp] theorem afterDelivery_fixCnt (s : State) : (afterDelivery s).fixCnt = s.fixCnt := by unfold afterDelivery; split <;> rfl
@[simp] theorem afterDelivery_sentCnt (s : State) : (afterDelivery s).sentCnt = s.sentCnt := by unfold afterDelivery; split <;> rfl
@[simp] theorem afterDelivery_dropCnt (s : State) : (afterDelivery s).dropCnt = s.dropCnt := by unfold afterDelivery; split <;> rfl
@[simp] theorem afterDelivery_params (s : State) : (afterDelivery s).params = s.params := by unfold afterDelivery; split <;> rfl
@[simp] theorem afterDelivery_agenda (s : State) : (afterDelivery s).agenda = s.agenda := by unfold afterDelivery; split <;> rfl
@[simp] theorem afterDelivery_draws (s : State) : (afterDelivery s).draws = s.draws := by unfold afterDelivery; split <;> rfl
@[simp] theorem afterDelivery_rdata (s : State) : (afterDelivery s).rdata = s.rdata := by unfold afterDelivery; split <;> rfl

/-! ## `recordAnswer` -/

@[simp] theorem recordAnswer_state (r : SinkAnswer) (s : State) : (recordAnswer r s).state = s.state := by cases r <;> rfl
@[simp] theorem recordAnswer_seqOp (r : SinkAnswer) (s : State) : (recordAnswer r s).seqOp = s.seqOp := by cases r <;> rfl
@[simp] theorem recordAnswer_raw (r : SinkAnswer) (s : State) : (recordAnswer r s).raw = s.raw := by cases r <;> rfl
@[simp] theorem recordAnswer_cur (r : SinkAnswer) (s : State) : (recordAnswer r s).cur = s.cur := by cases r <;> rfl
@[simp] theorem recordAnswer_acc (r : SinkAnswer) (s : State) : (recordAnswer r s).acc = s.acc := by cases r <;> rfl
@[simp] theorem recordAnswer_fill (r : SinkAnswer) (s : State) : (recordAnswer r s).fill = s.fill := by cases r <;> rfl
@[simp] theorem recordAnswer_pay (r : SinkAnswer) (s : State) : (recordAnswer r s).pay = s.pay := by cases r <;> rfl
@[simp] theorem recordAnswer_run (r : SinkAnswer) (s : State) : (recordAnswer r s).run = s.run := by cases r <;> rfl
@[simp] theorem recordAnswer_fatal (r : SinkAnswer) (s : State) : (recordAnswer r s).fatal = s.fatal := by cases r <;> rfl
@[simp] theorem recordAnswer_badcmd (r : SinkAnswer) (s : State) : (recordAnswer r s).badcmd = s.badcmd := by cases r <;> rfl
@[simp] theorem recordAnswer_badcode (r : SinkAnswer) (s : State) : (recordAnswer r s).badcode = s.badcode := by cases r <;> rfl
@[simp] theorem recordAnswer_lastbad (r : SinkAnswer) (s : State) : (recordAnswer r s).lastbad = s.lastbad := by cases r <;> rfl
@[simp] theorem recordAnswer_syncfix (r : SinkAnswer) (s : State) : (recordAnswer r s).syncfix = s.syncfix := by cases r <;> rfl
@[simp] theorem recordAnswer_clamp (r : SinkAnswer) (s : State) : (recordAnswer r s).clamp = s.clamp := by cases r <;> rfl
@[simp] theorem recordAnswer_ie (r : SinkAnswer) (s : State) : (recordAnswer r s).ie = s.ie := by cases r <;> rfl
@[simp] theorem recordAnswer_result (r : SinkAnswer) (s : State) : (recordAnswer r s).result = s.result := by cases r <;> rfl
@[simp] theorem recordAnswer_blkCnt (r : SinkAnswer) (s : State) : (recordAnswer r s).blkCnt = s.blkCnt := by cases r <;> rfl
@[simp] theorem recordAnswer_fixCnt (r : SinkAnswer) (s : State) : (recordAnswer r s).fixCnt = s.fixCnt := by cases r <;> rfl
@[simp] theorem recordAnswer_params (r : SinkAnswer) (s : State) : (recordAnswer r s).params = s.params := by cases r <;> rfl
@[simp] theorem recordAnswer_agenda (r : SinkAnswer) (s : State) : (recordAnswer r s).agenda = s.agenda := by cases r <;> rfl
@[simp] theorem recordAnswer_draws (r : SinkAnswer) (s : State) : (recordAnswer r s).draws = s.draws := by cases r <;> rfl
@[simp] theorem recordAnswer_rdata (r : SinkAnswer) (s : State) : (recordAnswer r s).rdata = s.rdata := by cases r <;> rfl

@[simp] theorem recordAnswer_pend (r : SinkAnswer) (s : State) : (recordAnswer r s).pend = false := by cases r <;> rfl

/-! ## `advance` -/

@[simp] theorem advance_state (s : State) : (s.advance).state = s.state := by unfold State.advance; split <;> rfl
@[simp] theorem advance_seqOp (s : State) : (s.advance).seqOp = s.seqOp := by unfold State.advance; split <;> rfl
@[simp] theorem advance_raw (s : State) : (s.advance).raw = s.raw := by unfold State.advance; split <;> rfl
@[simp] theorem advance_cur (s : State) : (s.advance).cur = s.cur := by unfold State.advance; split <;> rfl
@[simp] theorem advance_acc (s : State) : (s.advance).acc = s.acc := by unfold State.advance; split <;> rfl
@[simp] theorem advance_fill (s : State) : (s.advance).fill = s.fill := by unfold State.advance; split <;> rfl
@[simp] theorem advance_pay (s : State) : (s.advance).pay = s.pay := by unfold State.advance; split <;> rfl
@[simp] theorem advance_pend (s : State) : (s.advance).pend = s.pend := by unfold State.advance; split <;> rfl
@[simp] theorem advance_run (s : State) : (s.advance).run = s.run := by unfold State.advance; split <;> rfl
@[simp] theorem advance_fatal (s : State) : (s.advance).fatal = s.fatal := by unfold State.advance; split <;> rfl
@[simp] theorem advance_badcmd (s : State) : (s.advance).badcmd = s.badcmd := by unfold State.advance; split <;> rfl
@[simp] theorem advance_badcode (s : State) : (s.advance).badcode = s.badcode := by unfold State.advance; split <;> rfl
@[simp] theorem advance_lastbad (s : State) : (s.advance).lastbad = s.lastbad := by unfold State.advance; split <;> rfl
@[simp] theorem advance_drop (s : State) : (s.advance).drop = s.drop := by unfold State.advance; split <;> rfl
@[simp] theorem advance_syncfix (s : State) : (s.advance).syncfix = s.syncfix := by unfold State.advance; split <;> rfl
@[simp] theorem advance_clamp (s : State) : (s.advance).clamp = s.clamp := by unfold State.advance; split <;> rfl
@[simp] theorem advance_ie (s : State) : (s.advance).ie = s.ie := by unfold State.advance; split <;> rfl
@[simp] theorem advance_result (s : State) : (s.advance).result = s.result := by unfold State.advance; split <;> rfl
@[simp] theorem advance_blkCnt (s : State) : (s.advance).blkCnt = s.blkCnt := by unfold State.advance; split <;> rfl
@[simp] theorem advance_fixCnt (s : State) : (s.advance).fixCnt = s.fixCnt := by unfold State.advance; split <;> rfl
@[simp] theorem advance_sentCnt (s : State) : (s.advance).sentCnt = s.sentCnt := by unfold State.advance; split <;> rfl
@[simp] theorem advance_dropCnt (s : State) : (s.advance).dropCnt = s.dropCnt := by unfold State.advance; split <;> rfl
@[simp] theorem advance_params (s : State) : (s.advance).params = s.params := by unfold State.advance; split <;> rfl
@[simp] theorem advance_rdata (s : State) : (s.advance).rdata = s.rdata := by unfold State.advance; split <;> rfl

end Sys2Proof.Machine
end

