-- ==== Sys2Proof/Laws/Access.lean ====
section
/-! SUPPORT. Accesses to the internal memories: when they succeed, and everything they can do. -/

namespace Sys2Proof.Machine

open Sys2Proof

@[simp] theorem toOutcome_ok (s : State) : toOutcome (.ok s) = .next s := rfl

@[simp] theorem toOutcome_error (f : Fault) : toOutcome (.error f) = .fault f := rfl

theorem toOutcome_eq_next {r : Except Fault State} {t : State} : toOutcome r = .next t ↔ r = .ok t := by
  cases r <;> simp [toOutcome]

theorem toOutcome_eq_fault {r : Except Fault State} {f : Fault} : toOutcome r = .fault f ↔ r = .error f := by
  cases r <;> simp [toOutcome]

theorem toOutcome_ne_refused (r : Except Fault State) (e : Refusal) : toOutcome r ≠ .refused e := by
  cases r <;> simp [toOutcome]

/-! ## Replacing a memory -/

@[simp] theorem setMem_mem_self (s : State) (sp : Space) (m : Memory) : (s.setMem sp m).mem sp = m := by cases sp <;> rfl

@[simp] theorem setMem_params (s : State) (sp : Space) (m : Memory) : (s.setMem sp m).params = s.params := by
  cases sp <;> rfl

@[simp] theorem setMem_setMem (s : State) (sp : Space) (m m' : Memory) :
    (s.setMem sp m).setMem sp m' = s.setMem sp m' := by cases sp <;> rfl

@[simp] theorem setMem_self (s : State) (sp : Space) : s.setMem sp (s.mem sp) = s := by cases sp <;> rfl

/-! ## One byte -/

/-- A byte is read exactly when it lies in the space and holds a value. -/
theorem readByte_eq_ok {s : State} {sp : Space} {a : Nat} {b : Byte} :
    readByte s sp a = .ok b ↔ a < spaceSize s.params sp ∧ (s.mem sp).read a = some b := by
  unfold readByte
  split
  · split <;> simp_all
  · simp_all

/-- A byte is written exactly when it lies in the space, and nothing else changes. -/
theorem writeByte_eq_ok {s t : State} {sp : Space} {a : Nat} {b : Byte} :
    writeByte s sp a b = .ok t ↔ a < spaceSize s.params sp ∧ t = s.setMem sp ((s.mem sp).write a b) := by
  unfold writeByte
  split <;> simp_all [eq_comm]

/-! ## Several bytes -/

theorem loadBytes_zero (s : State) (sp : Space) (a : Nat) : loadBytes s sp a 0 = .ok [] := rfl

/-- A load of bytes that hold a value gives them in rising address. -/
theorem loadBytes_whole {s : State} {sp : Space} {bs : List Byte} (hm : s.mem sp = Memory.ofBytes 0 bs) {a n : Nat}
    (hlen : a + n ≤ bs.length) (hsize : a + n ≤ spaceSize s.params sp) :
    loadBytes s sp a n = .ok ((bs.drop a).take n) := by
  induction n generalizing a with
  | zero => simp [loadBytes]
  | succ n ih =>
    have hb : a < bs.length := by omega
    have hr : readByte s sp a = .ok bs[a] :=
      readByte_eq_ok.mpr ⟨by omega, by rw [hm, Memory.read_ofBytes_zero, List.getElem?_eq_getElem hb]⟩
    simp only [loadBytes, hr, ih (a := a + 1) (by omega) (by omega)]
    rw [List.drop_eq_getElem_cons hb, List.take_succ_cons]

/-- A load gives as many bytes as asked for, each the value its address holds. -/
theorem loadBytes_eq_ok {s : State} {sp : Space} {a n : Nat} {bs : List Byte} (h : loadBytes s sp a n = .ok bs) :
    bs.length = n ∧ ∀ i, i < n → a + i < spaceSize s.params sp ∧ (s.mem sp).read (a + i) = bs[i]? := by
  induction n generalizing a bs with
  | zero => simp only [loadBytes, Except.ok.injEq] at h; subst h; simp
  | succ n ih =>
    simp only [loadBytes] at h
    split at h
    · cases h
    · rename_i b hb
      split at h
      · cases h
      · rename_i bs' hbs
        obtain ⟨hlen, hread⟩ := ih hbs
        cases h
        obtain ⟨h1, h2⟩ := readByte_eq_ok.mp hb
        refine ⟨by simp [hlen], fun i hi => ?_⟩
        cases i with
        | zero => exact ⟨h1, by simpa using h2⟩
        | succ i =>
          have := hread i (by omega)
          rw [show a + (i + 1) = a + 1 + i by omega]
          simpa using this

/-- Everything a store can do: it writes its bytes from `a` on and changes nothing else. -/
theorem storeBytes_eq_ok {s t : State} {sp : Space} {a : Nat} {bs : List Byte} (h : storeBytes s sp a bs = .ok t) :
    ∃ m, t = s.setMem sp m ∧ (Memory.wf (s.mem sp) → Memory.wf m) ∧
      ∀ c, Memory.read m c = if a ≤ c ∧ c < a + bs.length then bs[c - a]? else (s.mem sp).read c := by
  induction bs generalizing s a with
  | nil =>
    simp only [storeBytes, Except.ok.injEq] at h
    subst h
    exact ⟨s.mem sp, by simp, id, fun c => by rw [if_neg (by simp)]⟩
  | cons b bs ih =>
    simp only [storeBytes] at h
    split at h
    · cases h
    · rename_i s' hs
      obtain ⟨h1, rfl⟩ := writeByte_eq_ok.mp hs
      obtain ⟨m, rfl, hwf, hr⟩ := ih h
      refine ⟨m, by simp, fun hw => hwf (by simpa using Memory.wf_write hw a b), fun c => ?_⟩
      rw [hr c, setMem_mem_self, Memory.read_write]
      simp only [List.length_cons]
      by_cases h1 : c = a
      · subst h1; rw [if_neg (by omega), if_pos (by omega)]; simp
      · by_cases h2 : a ≤ c ∧ c < a + (bs.length + 1)
        · rw [if_pos (by omega), if_pos h2, show c - a = (c - (a + 1)) + 1 by omega]; simp
        · rw [if_neg (by omega), if_neg h2, if_neg h1]

/-- A store that fits the space completes. -/
theorem storeBytes_completes {s : State} {sp : Space} {a : Nat} {bs : List Byte}
    (hsize : a + bs.length ≤ spaceSize s.params sp) : ∃ t, storeBytes s sp a bs = .ok t := by
  induction bs generalizing s a with
  | nil => exact ⟨s, rfl⟩
  | cons b bs ih =>
    simp only [List.length_cons] at hsize
    have hw : writeByte s sp a b = .ok (s.setMem sp ((s.mem sp).write a b)) := writeByte_eq_ok.mpr ⟨by omega, rfl⟩
    simp only [storeBytes, hw]
    exact ih (by simp only [setMem_params]; omega)

/-- A store just behind a run of bytes appends. -/
theorem storeBytes_append {s : State} {sp : Space} {l : List Byte} (hm : s.mem sp = Memory.ofBytes 0 l) {bs : List Byte}
    (hsize : l.length + bs.length ≤ spaceSize s.params sp) :
    storeBytes s sp l.length bs = .ok (s.setMem sp (Memory.ofBytes 0 (l ++ bs))) := by
  obtain ⟨t, ht⟩ := storeBytes_completes hsize
  obtain ⟨m, rfl, hwf, hr⟩ := storeBytes_eq_ok ht
  rw [ht]
  congr 2
  refine Memory.ext (hwf (hm ▸ Memory.wf_ofBytes 0 l)) (Memory.wf_ofBytes _ _) fun c => ?_
  rw [hr c, hm, Memory.read_ofBytes_zero, Memory.read_ofBytes_zero]
  by_cases h1 : c < l.length
  · rw [if_neg (by omega), List.getElem?_append_left h1]
  · rw [List.getElem?_append_right (by omega)]
    by_cases h2 : c < l.length + bs.length
    · rw [if_pos (by omega)]
    · rw [if_neg (by omega), List.getElem?_eq_none (by omega), List.getElem?_eq_none (by omega)]

/-- A store from address 0 replaces the first bytes of a run. -/
theorem storeBytes_zero {s : State} {sp : Space} {l : List Byte} (hm : s.mem sp = Memory.ofBytes 0 l) {bs : List Byte}
    (hsize : bs.length ≤ spaceSize s.params sp) :
    storeBytes s sp 0 bs = .ok (s.setMem sp (Memory.ofBytes 0 (bs ++ l.drop bs.length))) := by
  obtain ⟨t, ht⟩ := storeBytes_completes (s := s) (sp := sp) (a := 0) (bs := bs) (by omega)
  obtain ⟨m, rfl, hwf, hr⟩ := storeBytes_eq_ok ht
  rw [ht]
  congr 2
  refine Memory.ext (hwf (hm ▸ Memory.wf_ofBytes 0 l)) (Memory.wf_ofBytes _ _) fun c => ?_
  rw [hr c, hm, Memory.read_ofBytes_zero, Memory.read_ofBytes_zero]
  by_cases h1 : c < bs.length
  · rw [if_pos (by omega), List.getElem?_append_left h1, Nat.sub_zero]
  · rw [if_neg (by omega), List.getElem?_append_right (by omega), List.getElem?_drop]
    congr 1; omega

/-! ## Words of the raw block -/

/-- A word of a held block is read through its little-endian byte view. -/
theorem readRawWord_whole {s : State} {bs : List Byte} (hm : s.raw = Memory.ofBytes 0 bs) {i : Nat}
    (hlen : 4 * i + 4 ≤ bs.length) (hsize : 4 * i + 4 ≤ s.params.rawBytes) : readRawWord s i = .ok (s.rawWord i) := by
  have hl : loadBytes s .raw (4 * i) 4 = .ok ((bs.drop (4 * i)).take 4) := loadBytes_whole (sp := .raw) hm hlen hsize
  have hd : (bs.drop (4 * i)).take 4 =
      [bs[4 * i], bs[4 * i + 1], bs[4 * i + 2], bs[4 * i + 3]] := by
    rw [List.drop_eq_getElem_cons (by omega), List.drop_eq_getElem_cons (by omega),
      List.drop_eq_getElem_cons (by omega), List.drop_eq_getElem_cons (by omega)]
    rfl
  simp only [readRawWord, hl, hd, State.rawWord, hm, Memory.read_ofBytes_zero]
  rw [List.getElem?_eq_getElem (by omega), List.getElem?_eq_getElem (by omega), List.getElem?_eq_getElem (by omega),
    List.getElem?_eq_getElem (by omega)]
  rfl

end Sys2Proof.Machine
end

