-- ==== Sys2Proof/Laws/Ops.lean ====
section
/-! SUPPORT. The shared rules: what each can change whatever the state (the `_frame` lemmas), and what it does where the
bytes it needs are held (the `_spec` lemmas). -/

namespace Sys2Proof.Machine

open Sys2Proof

/-! ## Accepting a command -/

/-- Everything `accept` can do: run the body, or record reason 3 or reason 4. -/
theorem accept_cases {i : Instr} {s t : State} {body : Except Fault State} (h : accept i s body = .ok t) :
    (body = .ok t ∧ (i.always = true ∨ (s.fatal = false ∧ s.state = .idle ∧ s.run = false))) ∨
      (i.always = false ∧ s.fatal = true ∧ t = raiseBadcmd .faulted (encode i) s) ∨
      (i.always = false ∧ s.fatal = false ∧ (s.state ≠ .idle ∨ s.run = true) ∧
        t = raiseBadcmd .busy (encode i) s) := by
  unfold accept at h
  split at h
  · exact .inl ⟨h, .inl ‹_›⟩
  · split at h
    · cases h; exact .inr (.inl ⟨by simp_all, ‹_›, rfl⟩)
    · split at h
      · cases h; exact .inr (.inr ⟨by simp_all, by simp_all, ‹_›, rfl⟩)
      · exact .inl ⟨h, .inr ⟨by simp_all, by simp_all, by simp_all⟩⟩

/-- An always-accepted command runs in every state. -/
theorem accept_always {i : Instr} (hi : i.always = true) (s : State) (body : Except Fault State) :
    accept i s body = body := by simp [accept, hi]

/-- A ready block runs every command. -/
theorem accept_ready {s : State} (h : s.Ready) (i : Instr) (body : Except Fault State) : accept i s body = body := by
  simp [accept, h.1, h.2.1, h.2.2]

/-- A faulted block records reason 3 for a command outside the always-accepted set. -/
theorem accept_faulted {i : Instr} (hi : i.always = false) {s : State} (h : s.fatal = true) (body : Except Fault State) :
    accept i s body = .ok (raiseBadcmd .faulted (encode i) s) := by simp [accept, hi, h]

/-- A busy block, or one in run mode, records reason 4 for a command outside the always-accepted set. -/
theorem accept_busy {i : Instr} (hi : i.always = false) {s : State} (hf : s.fatal = false)
    (h : s.state ≠ .idle ∨ s.run = true) (body : Except Fault State) :
    accept i s body = .ok (raiseBadcmd .busy (encode i) s) := by simp [accept, hi, hf, h]

/-! ## The sync aligner -/

/-- The aligner changes RAW, SYNCFIX and FIX_CNT at most. -/
theorem syncAlign_frame {s t : State} (h : syncAlign s = .ok t) :
    t = { s with raw := t.raw, syncfix := t.syncfix, fixCnt := t.fixCnt } := by
  unfold syncAlign at h
  split at h
  · cases h; rfl
  · split at h
    · cases h
    · split at h
      · split at h
        · cases h
        · rename_i hw
          obtain ⟨-, rfl⟩ := writeByte_eq_ok.mp hw
          cases h; rfl
      · cases h; rfl

/-- On an exhausted block the aligner reads nothing and clears SYNCFIX. -/
theorem syncAlign_exhausted {s : State} (h : s.cur = s.params.blockWords) :
    syncAlign s = .ok { s with syncfix := false } := by simp [syncAlign, h]

/-- Where the sync byte is held: corrected when it matches the mask, left alone otherwise. -/
theorem syncAlign_spec {s : State} {b : Byte} (hc : s.cur ≠ s.params.blockWords)
    (ho : s.params.syncOffset < s.params.rawBytes) (hb : s.raw.read s.params.syncOffset = some b) :
    syncAlign s = .ok (if b &&& s.params.syncFlip = s.params.syncFlip then
      { s with
        raw := s.raw.write s.params.syncOffset (b ^^^ s.params.syncFlip)
        syncfix := true
        fixCnt := s.fixCnt + 1 }
      else { s with syncfix := false }) := by
  have hr : readByte s .raw s.params.syncOffset = .ok b := readByte_eq_ok.mpr ⟨ho, hb⟩
  have hw : writeByte s .raw s.params.syncOffset (b ^^^ s.params.syncFlip) =
      .ok { s with raw := s.raw.write s.params.syncOffset (b ^^^ s.params.syncFlip) } :=
    writeByte_eq_ok.mpr ⟨ho, rfl⟩
  unfold syncAlign
  rw [if_neg hc, hr]
  dsimp only
  split
  · rw [hw]
  · rfl

/-! ## Demodulate -/

@[simp] theorem sampleLow_decodeWord (p : Params) (w : Word) : sampleLow (decodeWord p w) = symtab p (w.extractLsb' 0 16) := by
  unfold sampleLow decodeWord lowHalf
  ext i hi
  simp only [BitVec.getElem_extractLsb', BitVec.getLsbD_append]
  simp [hi]

@[simp] theorem sampleHigh_decodeWord (p : Params) (w : Word) :
    sampleHigh (decodeWord p w) = symtab p (w.extractLsb' 16 16) := by
  unfold sampleHigh decodeWord highHalf
  ext i hi
  simp only [BitVec.getElem_extractLsb', BitVec.getLsbD_append]
  simp [hi]

/-- One sample changes ACC, FILL and CUR only; FILL and CUR advance by 2. -/
theorem demodPair_frame {s t : State} (h : demodPair s = .ok t) :
    t = { s with acc := t.acc, fill := s.fill + 2, cur := s.cur + 2 } := by
  unfold demodPair at h
  split at h
  · cases h
  · split at h
    · cases h
    · rename_i hs
      obtain ⟨m, rfl, -⟩ := storeBytes_eq_ok hs
      cases h; rfl

/-- `m` samples change ACC, FILL and CUR only; FILL and CUR advance by `2*m`. -/
theorem demodPairs_frame {m : Nat} {s t : State} (h : demodPairs m s = .ok t) :
    t = { s with acc := t.acc, fill := s.fill + 2 * m, cur := s.cur + 2 * m } := by
  induction m generalizing s with
  | zero => simp only [demodPairs, Except.ok.injEq] at h; subst h; rfl
  | succ m ih =>
    simp only [demodPairs] at h
    split at h
    · cases h
    · rename_i s' hs
      have h1 := demodPair_frame hs
      have h2 := ih h
      have e1 : s'.fill = s.fill + 2 := by rw [h1]
      have e2 : s'.cur = s.cur + 2 := by rw [h1]
      rw [e1, e2] at h2
      rw [h1] at h2
      rw [h2]
      simp only [State.mk.injEq, true_and, and_true]
      omega

/-- Demodulate changes ACC, FILL, CUR and CLAMP only; FILL and CUR advance by twice the number of samples. -/
theorem demodulate_frame {n : Nat} {s t : State} (h : demodulate n s = .ok t) :
    t = { s with
      acc := t.acc
      fill := s.fill + 2 * s.demodCount n
      cur := s.cur + 2 * s.demodCount n
      clamp := s.clampOf n } := by
  unfold demodulate at h
  split at h
  · cases h
  · rename_i s' hs
    have h1 := demodPairs_frame hs
    cases h
    rw [h1]

/-- The first sample of a list of samples. -/
theorem samples_succ (s : State) (m : Nat) :
    s.samples (m + 1) =
      [symtab s.params ((s.rawWord (dataIndex s.params s.cur)).extractLsb' 0 16),
        symtab s.params ((s.rawWord (dataIndex s.params s.cur)).extractLsb' 16 16)] ++
      ({ s with cur := s.cur + 2 } : State).samples m := by
  unfold State.samples
  rw [List.range_succ_eq_map, List.flatMap_cons, List.flatMap_map]
  congr 1
  refine congrArg (fun f => List.flatMap f (List.range m)) (funext fun j => ?_)
  simp only [State.rawWord]
  rw [show s.cur + 2 * (j + 1) + s.params.dataPhase.val = s.cur + 2 + 2 * j + s.params.dataPhase.val by omega]

@[simp] theorem samples_zero (s : State) : s.samples 0 = [] := rfl

/-- A sample is two bytes. -/
@[simp] theorem samples_length (s : State) (m : Nat) : (s.samples m).length = 2 * m := by
  induction m generalizing s with
  | zero => rfl
  | succ m ih => rw [samples_succ, List.length_append, ih]; simp; omega

/-- The samples depend on RAW, CUR and the parameters only. -/
theorem samples_congr {s t : State} (hr : t.raw = s.raw) (hc : t.cur = s.cur) (hp : t.params = s.params) (m : Nat) :
    t.samples m = s.samples m := by
  unfold State.samples State.rawWord
  rw [hr, hc, hp]

/-- One sample of a held block, with room for it. -/
theorem demodPair_spec {s : State} {bs l : List Byte} (hraw : s.raw = Memory.ofBytes 0 bs)
    (hlen : bs.length = s.params.rawBytes) (hcur : s.cur + 2 ≤ s.params.blockWords) (hacc : s.acc = Memory.ofBytes 0 l)
    (hfill : l.length = s.fill) (hroom : s.fill + 2 ≤ s.params.accCap) :
    demodPair s = .ok { s with
      acc := Memory.ofBytes 0 (l ++
        [symtab s.params ((s.rawWord (dataIndex s.params s.cur)).extractLsb' 0 16),
          symtab s.params ((s.rawWord (dataIndex s.params s.cur)).extractLsb' 16 16)])
      fill := s.fill + 2
      cur := s.cur + 2 } := by
  have hd : dataIndex s.params s.cur < s.params.blockWords := by
    have := s.params.dataPhase.isLt
    simp only [dataIndex]; omega
  have hb : s.params.rawBytes = 4 * s.params.blockWords := rfl
  have hw := readRawWord_whole (s := s) (i := dataIndex s.params s.cur) hraw (by omega) (by omega)
  have hst := storeBytes_append (s := s) (sp := .acc) (l := l) hacc
    (bs := [sampleLow (decodeWord s.params (s.rawWord (dataIndex s.params s.cur))),
      sampleHigh (decodeWord s.params (s.rawWord (dataIndex s.params s.cur)))])
    (by simp only [List.length_cons, List.length_nil, spaceSize_acc]; omega)
  rw [hfill] at hst
  simp only [demodPair, hw, hst, setMem_acc]
  simp only [sampleLow_decodeWord, sampleHigh_decodeWord]

/-- `m` samples of a held block, with room for them: their bytes are appended in pair order. -/
theorem demodPairs_spec {m : Nat} {s : State} {bs l : List Byte} (hraw : s.raw = Memory.ofBytes 0 bs)
    (hlen : bs.length = s.params.rawBytes) (hcur : s.cur + 2 * m ≤ s.params.blockWords)
    (hacc : s.acc = Memory.ofBytes 0 l) (hfill : l.length = s.fill) (hroom : s.fill + 2 * m ≤ s.params.accCap) :
    demodPairs m s = .ok { s with
      acc := Memory.ofBytes 0 (l ++ s.samples m)
      fill := s.fill + 2 * m
      cur := s.cur + 2 * m } := by
  induction m generalizing s l with
  | zero => simp [demodPairs, ← hacc]
  | succ m ih =>
    simp only [demodPairs, demodPair_spec hraw hlen (by omega) hacc hfill (by omega)]
    refine (ih (s := { s with acc := _, fill := s.fill + 2, cur := s.cur + 2 }) hraw hlen ?_ rfl ?_ ?_).trans ?_
    · show s.cur + 2 + 2 * m ≤ s.params.blockWords; omega
    · simp [hfill]
    · show s.fill + 2 + 2 * m ≤ s.params.accCap; omega
    · rw [samples_succ, ← List.append_assoc]
      simp only [Except.ok.injEq, State.mk.injEq, true_and, and_true]
      exact ⟨by omega, rfl, by omega⟩

theorem demodCount_le (s : State) (n : Nat) :
    s.demodCount n ≤ demodWant n ∧ s.demodCount n ≤ s.pairsLeft ∧ s.demodCount n ≤ s.room := by
  unfold State.demodCount; omega

/-- Demodulate under the buffers' invariant: the samples' bytes are appended, in pair order. -/
theorem demodulate_spec {s : State} (hi : s.DataInv) (n : Nat) :
    demodulate n s = .ok { s with
      acc := Memory.ofBytes 0 (s.acc.bytes ++ s.samples (s.demodCount n))
      fill := s.fill + 2 * s.demodCount n
      cur := s.cur + 2 * s.demodCount n
      clamp := s.clampOf n } := by
  obtain ⟨-, hp, hr⟩ := demodCount_le s n
  have hcur : s.cur + 2 * s.demodCount n ≤ s.params.blockWords := by
    have := hi.curLe
    unfold State.pairsLeft at hp; omega
  have hroom : s.fill + 2 * s.demodCount n ≤ s.params.accCap := by
    have := hi.fillLe
    unfold State.room at hr; omega
  rcases hi.raw with hw | ⟨-, hw⟩
  · simp only [demodulate, demodPairs_spec hw.1 hw.2 hcur hi.acc.1 hi.acc.2 hroom]
  · have h0 : s.demodCount n = 0 := by unfold State.pairsLeft at hp; omega
    simp only [demodulate, h0, demodPairs, samples_zero, List.append_nil, Nat.mul_zero, Nat.add_zero]
    rw [← hi.acc.1]

/-! ## Frame -/

/-- Frame changes ACC, FILL, PAY, PEND and STATE only. -/
theorem frame_frame {s t : State} (h : frame s = .ok t) :
    t = { s with acc := t.acc, fill := s.fill - s.params.chunk, pay := t.pay, pend := true, state := .emit } := by
  unfold frame at h
  split at h
  · cases h
  · split at h
    · cases h
    · split at h
      · cases h
      · rename_i h1
        split at h
        · cases h
        · rename_i h2
          obtain ⟨m1, rfl, -⟩ := storeBytes_eq_ok h1
          obtain ⟨m2, rfl, -⟩ := storeBytes_eq_ok h2
          cases h; rfl

@[simp] theorem header_bytes_length (h : Header) : h.bytes.length = 5 := rfl

/-- Frame with a whole chunk held: the header and the oldest chunk in PAY, the rest shifted to index 0. -/
theorem frame_spec {s : State} {l q : List Byte} (hacc : s.acc = Memory.ofBytes 0 l) (hfill : l.length = s.fill)
    (hchunk : s.params.chunk ≤ s.fill) (hcap : s.fill ≤ s.params.accCap) (hpay : s.pay = Memory.ofBytes 0 q)
    (hq : q.length ≤ s.params.payLen) :
    frame s = .ok { s with
      acc := Memory.ofBytes 0 (l.drop s.params.chunk)
      fill := s.fill - s.params.chunk
      pay := Memory.ofBytes 0 (s.params.hdr.bytes ++ l.take s.params.chunk)
      pend := true
      state := .emit } := by
  have h1 : loadBytes s .acc 0 s.params.chunk = .ok (l.take s.params.chunk) := by
    simpa using loadBytes_whole (s := s) (sp := .acc) (bs := l) hacc (a := 0) (n := s.params.chunk) (by omega)
      (by simp only [spaceSize_acc]; omega)
  have h2 : loadBytes s .acc s.params.chunk (s.fill - s.params.chunk) = .ok (l.drop s.params.chunk) := by
    rw [loadBytes_whole (s := s) (sp := .acc) (bs := l) hacc (by omega) (by simp only [spaceSize_acc]; omega),
      List.take_of_length_le (by simp; omega)]
  have h3 : storeBytes s .pay 0 (s.params.hdr.bytes ++ l.take s.params.chunk) =
      .ok { s with pay := Memory.ofBytes 0 (s.params.hdr.bytes ++ l.take s.params.chunk) } := by
    rw [storeBytes_zero (s := s) (sp := .pay) (l := q) hpay
      (by simp only [spaceSize_pay, Params.payLen, hdrLen, List.length_append, header_bytes_length, List.length_take]; omega)]
    rw [List.drop_of_length_le (l := q) (by
      simp only [Params.payLen, hdrLen] at hq
      simp only [List.length_append, header_bytes_length, List.length_take]; omega), List.append_nil]
    rfl
  have h4 : storeBytes { s with pay := Memory.ofBytes 0 (s.params.hdr.bytes ++ l.take s.params.chunk) } .acc 0
      (l.drop s.params.chunk) = .ok { s with
        pay := Memory.ofBytes 0 (s.params.hdr.bytes ++ l.take s.params.chunk)
        acc := Memory.ofBytes 0 (l.drop s.params.chunk ++ l.drop (l.drop s.params.chunk).length) } := by
    have := storeBytes_zero (s := { s with pay := Memory.ofBytes 0 (s.params.hdr.bytes ++ l.take s.params.chunk) })
      (sp := .acc) (l := l) hacc (bs := l.drop s.params.chunk) (by simp only [spaceSize_acc, List.length_drop]; omega)
    exact this
  simp only [frame, h1, h2, h3, h4, Memory.dropFrom_ofBytes]
  rw [List.take_append_of_le_length (by simp; omega), List.take_of_length_le (by simp; omega)]

/-- Frame under the buffers' invariant. -/
theorem frame_inv_spec {s : State} (hi : s.DataInv) (hchunk : s.params.chunk ≤ s.fill) :
    frame s = .ok { s with
      acc := Memory.ofBytes 0 (s.acc.bytes.drop s.params.chunk)
      fill := s.fill - s.params.chunk
      pay := Memory.ofBytes 0 (s.params.hdr.bytes ++ s.acc.bytes.take s.params.chunk)
      pend := true
      state := .emit } := by
  rcases hi.pay with h | ⟨h, -⟩
  · exact frame_spec hi.acc.1 hi.acc.2 hchunk hi.fillLe (q := []) h (by simp)
  · exact frame_spec hi.acc.1 hi.acc.2 hchunk hi.fillLe h.1 (by omega)

end Sys2Proof.Machine
end

