-- ==== Sys2Proof/Laws/Effects.lean ====
section
/-! SUPPORT. What each command and each agent's move does, said once: the next state written out, under the buffers'
invariant where the meaning reads a buffer. -/

namespace Sys2Proof.Machine

open Sys2Proof

/-! ## The buffers' invariant -/

/-- The buffers' invariant reads the parameters and the buffers only. -/
theorem dataInv_congr {s t : State} (h : s.DataInv) (hp : t.params = s.params) (hr : t.raw = s.raw) (hc : t.cur = s.cur)
    (ha : t.acc = s.acc) (hf : t.fill = s.fill) (hy : t.pay = s.pay) : t.DataInv := by
  refine ⟨?_, ?_, ?_, ?_, ?_, ?_, ?_⟩
  · rw [hp]; exact h.params
  · rw [hp, hr, hc]; exact h.raw
  · rw [hp, hc]; exact h.curLe
  · rw [hc]; exact h.curEven
  · rw [ha, hf]; exact h.acc
  · rw [hf, hp]; exact h.fillLe
  · rw [hy, hp]; exact h.pay

/-- A block that is not exhausted is held, and so is its sync byte. -/
theorem syncByte_held {s : State} (h : s.DataInv) (hc : s.cur ≠ s.params.blockWords) :
    ∃ b, s.raw.read s.params.syncOffset = some b ∧ s.params.syncOffset < s.params.rawBytes ∧
      s.raw.Whole s.params.rawBytes := by
  rcases h.raw with hr | ⟨-, hr⟩
  · have ho : s.params.syncOffset < s.params.rawBytes := h.params.syncOffset.1
    refine ⟨s.raw.bytes[s.params.syncOffset]'(by rw [hr.2]; exact ho), ?_, ho, hr⟩
    conv_lhs => rw [hr.1]
    rw [Memory.read_ofBytes_zero, List.getElem?_eq_getElem]
  · exact absurd hr hc

/-- Demodulate stays within the block and the accumulator. -/
theorem demodCount_bounds {s : State} (h : s.DataInv) (n : Nat) :
    s.cur + 2 * s.demodCount n ≤ s.params.blockWords ∧ s.fill + 2 * s.demodCount n ≤ s.params.accCap := by
  obtain ⟨-, hp, hr⟩ := demodCount_le s n
  have := h.curLe
  have := h.fillLe
  unfold State.pairsLeft at hp
  unfold State.room at hr
  constructor <;> omega

/-- The byte view of a block of `n` words has `4*n` bytes. -/
theorem blockBytes_length (ws : List Word) : (blockBytes ws).length = 4 * ws.length := by
  induction ws with
  | nil => rfl
  | cons w ws ih => simp only [blockBytes, List.flatMap_cons, List.length_append, wordBytes] at ih ⊢; simp [ih]; omega

/-- After reset every memory is in the canonical form. -/
theorem resetOf_memories_wf (p : Params) (sp : Space) : Memory.wf ((State.resetOf p).mem sp) := by
  cases sp <;> exact List.Pairwise.nil

/-- A whole memory is in the canonical form. -/
theorem Memory.Whole.wf {m : Memory} {n : Nat} (h : Memory.Whole m n) : Memory.wf m := by
  rw [h.1]; exact Memory.wf_ofBytes _ _

/-! ## The datapath, as total functions -/

/-- The state after Demodulate (42_demodulator.md R132). -/
def demodulated (n : Nat) (s : State) : State :=
  { s with
    acc := Memory.ofBytes 0 (s.acc.bytes ++ s.samples (s.demodCount n))
    fill := s.fill + 2 * s.demodCount n
    cur := s.cur + 2 * s.demodCount n
    clamp := s.clampOf n }

theorem demodulate_eq {s : State} (h : s.DataInv) (n : Nat) : demodulate n s = .ok (demodulated n s) := demodulate_spec h n

/-- The state after Frame (43_accumulator_framer.md R156). -/
def framed (s : State) : State :=
  { s with
    acc := Memory.ofBytes 0 (s.acc.bytes.drop s.params.chunk)
    fill := s.fill - s.params.chunk
    pay := Memory.ofBytes 0 (s.params.hdr.bytes ++ s.acc.bytes.take s.params.chunk)
    pend := true
    state := .emit }

theorem frame_eq {s : State} (h : s.DataInv) (hc : s.params.chunk ≤ s.fill) : frame s = .ok (framed s) := frame_inv_spec h hc

/-- Demodulate keeps the buffers' invariant. -/
theorem demodulated_dataInv {s : State} (h : s.DataInv) (n : Nat) : (demodulated n s).DataInv := by
  obtain ⟨b1, b2⟩ := demodCount_bounds h n
  refine ⟨h.params, ?_, b1, ?_, ?_, b2, h.pay⟩
  · rcases h.raw with hr | ⟨hr, hc⟩
    · exact .inl hr
    · refine .inr ⟨hr, ?_⟩
      show s.cur + 2 * s.demodCount n = s.params.blockWords
      omega
  · have := h.curEven
    show (s.cur + 2 * s.demodCount n) % 2 = 0
    omega
  · have := Memory.whole_ofBytes (s.acc.bytes ++ s.samples (s.demodCount n))
    rw [List.length_append, samples_length, h.acc.2] at this
    exact this

/-- Frame keeps the buffers' invariant, and PAY holds a value after it. -/
theorem framed_dataInv {s : State} (h : s.DataInv) (hc : s.params.chunk ≤ s.fill) :
    (framed s).DataInv ∧ (framed s).pay ≠ [] := by
  have hl := h.acc.2
  refine ⟨⟨h.params, h.raw, h.curLe, h.curEven, ?_, ?_, .inr ⟨?_, ?_⟩⟩, ?_⟩
  · have := Memory.whole_ofBytes (s.acc.bytes.drop s.params.chunk)
    rw [List.length_drop, hl] at this
    exact this
  · have := h.fillLe
    show s.fill - s.params.chunk ≤ s.params.accCap
    omega
  · have := Memory.whole_ofBytes (s.params.hdr.bytes ++ s.acc.bytes.take s.params.chunk)
    rw [List.length_append, header_bytes_length, List.length_take, hl, Nat.min_eq_left hc] at this
    exact this
  · show (Memory.bytes (Memory.ofBytes 0 (s.params.hdr.bytes ++ s.acc.bytes.take s.params.chunk))).take 5 = _
    rw [Memory.bytes_ofBytes]
    rfl
  · simp [framed, Header.bytes, Memory.ofBytes]

/-- The aligner completes, and changes RAW, SYNCFIX and FIX_CNT at most. -/
theorem syncAlign_completes {s : State} (h : s.DataInv) :
    ∃ r f n, syncAlign s = .ok { s with raw := r, syncfix := f, fixCnt := n } := by
  by_cases hc : s.cur = s.params.blockWords
  · exact ⟨_, _, _, syncAlign_exhausted hc⟩
  · obtain ⟨b, hb, ho, -⟩ := syncByte_held h hc
    have e := syncAlign_spec hc ho hb
    split at e
    · exact ⟨_, _, _, e⟩
    · exact ⟨_, _, _, e⟩

/-- The aligner keeps the buffers' invariant. -/
theorem syncAlign_dataInv {s t : State} (h : s.DataInv) (ht : syncAlign s = .ok t) : t.DataInv := by
  by_cases hc : s.cur = s.params.blockWords
  · rw [syncAlign_exhausted hc] at ht
    cases ht
    exact dataInv_congr h rfl rfl rfl rfl rfl rfl
  · obtain ⟨b, hb, ho, hw⟩ := syncByte_held h hc
    rw [syncAlign_spec hc ho hb] at ht
    split at ht <;> cases ht
    · refine ⟨h.params, .inl ?_, h.curLe, h.curEven, h.acc, h.fillLe, h.pay⟩
      obtain ⟨bs, hbs, hl⟩ := hw.exists_bytes
      show Memory.Whole (s.raw.write s.params.syncOffset _) s.params.rawBytes
      rw [hbs, Memory.write_ofBytes bs _ _ (by omega)]
      have := Memory.whole_ofBytes (bs.set s.params.syncOffset (b ^^^ s.params.syncFlip))
      rwa [List.length_set, hl] at this
    · exact dataInv_congr h rfl rfl rfl rfl rfl rfl

/-! ## The agents' moves -/

/-- A delivery that is enabled. -/
theorem deliver_eq {s : State} {ws : List Word} (hs : s.state = .acq) (hl : ws.length = s.params.blockWords) :
    deliver ws s =
      .next (afterDelivery { s with raw := Memory.ofBytes 0 (blockBytes ws), cur := 0, blkCnt := s.blkCnt + 1 }) := by
  unfold deliver
  rw [if_neg (by simp [State.acqReq, hs]), if_neg (by simp [hl])]

/-- An acquisition fault that is enabled. -/
theorem acqFault_eq {s : State} (hs : s.state = .acq) : acqFault s = .next (raiseAcqFault s) := by
  unfold acqFault
  rw [if_neg (by simp [State.acqReq, hs])]

/-- A sink answer that is enabled: counted, then the operation in progress goes on. -/
theorem sinkAnswer_eq {s : State} (h : s.DataInv) (hp : s.pend = true) (r : SinkAnswer) :
    sinkAnswer r s = .next (
      if s.seqOp = .emit then { recordAnswer r s with state := .idle, seqOp := .none }
      else if s.params.chunk ≤ s.fill then framed (recordAnswer r s)
      else endCycle (recordAnswer r s)) := by
  have hd : (recordAnswer r s).DataInv := dataInv_congr h (by simp) (by simp) (by simp) (by simp) (by simp) (by simp)
  unfold sinkAnswer
  rw [if_neg (by simp [State.sendReq, hp])]
  unfold afterAnswer
  rw [recordAnswer_seqOp]
  split
  · rfl
  · unfold frameOrEnd
    rw [recordAnswer_params, recordAnswer_fill]
    split
    · rw [frame_eq hd (by simpa using ‹_›)]; rfl
    · rfl

theorem sequencerStep_align {s : State} (hs : s.state = .align) : sequencerStep s = toOutcome (alignStep s) := by
  unfold sequencerStep; rw [hs]

theorem sequencerStep_demod {s : State} (hs : s.state = .demod) : sequencerStep s = toOutcome (demodStep s) := by
  unfold sequencerStep; rw [hs]

/-- The sequencer's step in DEMOD. -/
theorem demodStep_eq {s : State} (h : s.DataInv) :
    demodStep s = .ok (
      if s.params.chunk ≤ s.fill + 2 * s.demodCount s.params.blockWords then framed (demodulated s.params.blockWords s)
      else endCycle (demodulated s.params.blockWords s)) := by
  unfold demodStep
  rw [demodulate_eq h]
  dsimp only [frameOrEnd]
  split
  · rw [if_pos (by assumption), frame_eq (demodulated_dataInv h _) (by assumption)]
  · rw [if_neg (by assumption)]

/-! ## The commands -/

/-- The body of EMIT and DRAIN. -/
theorem startFraming_eq {s : State} (h : s.DataInv) (op : SeqOp) :
    startFraming op s = .ok (if s.fill < s.params.chunk then s else framed { s with seqOp := op }) := by
  unfold startFraming
  split
  · rfl
  · rw [frame_eq (s := { s with seqOp := op }) (dataInv_congr h rfl rfl rfl rfl rfl rfl) (by dsimp only; omega)]

/-- What an accepted command outside NOP, TLOOK, CLRST and SRST does on a ready block. -/
theorem exec_ready {s : State} (h : s.DataInv) (hr : s.Ready) :
    exec .acq s = .next (startRequest .acq s) ∧ exec .cycle s = .next (startRequest .cycle s) ∧
      exec .run s = .next { startRequest .run s with run := true } ∧ exec .align s = toOutcome (syncAlign s) ∧
      (∀ n, exec (.demod n) s = .next (demodulated n s)) ∧
      exec .emit s = .next (if s.fill < s.params.chunk then s else framed { s with seqOp := .emit }) ∧
      exec .drain s = .next (if s.fill < s.params.chunk then s else framed { s with seqOp := .drain }) := by
  simp only [exec, execAcq, execCycle, execRun, execAlign, execDemod, execEmit, execDrain, accept_ready hr,
    demodulate_eq h, startFraming_eq h, toOutcome_ok, implies_true, and_self]

/-- A block that is not ready records a refusal of every command outside NOP, TLOOK, CLRST and SRST. -/
theorem exec_not_ready {s : State} (hn : ¬ s.Ready) {i : Instr} (hi : i.always = false) :
    ∃ k, (k = .faulted ∨ k = .busy) ∧ exec i s = .next (raiseBadcmd k (encode i) s) := by
  by_cases hf : s.fatal = true
  · refine ⟨.faulted, .inl rfl, ?_⟩
    cases i <;> first
      | (simp [Instr.always] at hi; done)
      | simp only [exec, execAcq, execAlign, execDemod, execEmit, execDrain, execCycle, execRun, accept_faulted hi hf,
          toOutcome_ok]
  · have hf' : s.fatal = false := by simpa using hf
    have hb : s.state ≠ .idle ∨ s.run = true := by
      by_contra hc
      push Not at hc
      exact hn ⟨hf', hc.1, by simpa using hc.2⟩
    refine ⟨.busy, .inr rfl, ?_⟩
    cases i <;> first
      | (simp [Instr.always] at hi; done)
      | simp only [exec, execAcq, execAlign, execDemod, execEmit, execDrain, execCycle, execRun, accept_busy hi hf' hb,
          toOutcome_ok]

/-- Everything a host write can do: a word that is no command is recorded, a command runs, another register takes the
value or ignores it. -/
theorem hostWrite_cases {off : BitVec 8} {v : Word} {s t : State} (h : hostWrite off v s = .next t) :
    (regAt off = some .cmd ∧ ∃ e, decode v = .error e ∧ t = raiseBadcmd (refusalReason e) v s) ∨
      (regAt off = some .cmd ∧ ∃ i, decode v = .ok i ∧ exec i s = .next t) ∨
      (regAt off ≠ some .cmd ∧ ∃ e, t = { s with ie := e }) := by
  unfold hostWrite at h
  split at h
  · rename_i hr
    unfold command at h
    split at h
    · cases h; exact .inl ⟨hr, _, by assumption, rfl⟩
    · exact .inr (.inl ⟨hr, _, by assumption, h⟩)
  · rename_i hr; cases h; exact .inr (.inr ⟨by rw [hr]; decide, _, rfl⟩)
  · rename_i h1 h2; cases h; exact .inr (.inr ⟨h1, s.ie, rfl⟩)

/-- A step with a move placed takes that move. -/
theorem step_placed {s : State} {m : Move} {rest : List Move} (h : s.agenda = m :: rest) :
    step s = takeMove m { s with agenda := rest } := by
  simp only [step, State.nextMove, State.advance, h]

/-- Taking a move off the agenda, or drawing one, keeps the invariant. -/
theorem advance_inv {s : State} (h : s.Inv) : s.advance.Inv := by
  unfold State.advance
  split <;>
    exact ⟨dataInv_congr h.toDataInv rfl rfl rfl rfl rfl rfl, ⟨h.pend, h.payHeld, h.seqOpNone, h.acqOp, h.cycleOp,
      h.emitOp, h.freshBlock, h.fatal, h.run, h.badcode, h.lastbad⟩⟩

end Sys2Proof.Machine
end

