-- ==== Sys2Proof/Laws/PerInstr.lean ====
section
/-! SUPPORT. Statements made per instruction, and one lemma per constructor: the fields of an encoded command word. -/

namespace Sys2Proof.Laws

open Sys2Proof

/-- The three fields of the word of a command: its opcode, a zero RSV, its operand (30_encoding.md R80). -/
def EncodedFields.Statement (i : Instr) : Prop :=
  opcOf (encode i) = i.opc ∧ rsvOf (encode i) = 0#8 ∧ immOf (encode i) = i.imm

/-- The fields of the concatenation `{imm, 0x00, opc}`. -/
theorem fields_of_word (imm : Half) (opc : Byte) :
    opcOf (imm ++ 0x00#8 ++ opc) = opc ∧ rsvOf (imm ++ 0x00#8 ++ opc) = 0#8 ∧ immOf (imm ++ 0x00#8 ++ opc) = imm := by
  refine ⟨?_, ?_, ?_⟩
  · ext i hi
    simp only [opcOf, BitVec.getElem_extractLsb', BitVec.getLsbD_append]
    simp [hi]
  · ext i hi
    simp only [rsvOf, BitVec.getElem_extractLsb', BitVec.getLsbD_append]
    simp [hi]
  · ext i hi
    simp only [immOf, BitVec.getElem_extractLsb', BitVec.getLsbD_append]
    rw [if_neg (by omega), if_neg (by omega), show 16 + i - 8 - 8 = i by omega]
    exact BitVec.getLsbD_eq_getElem hi

theorem EncodedFields.nop : EncodedFields.Statement .nop := fields_of_word _ _

theorem EncodedFields.acq : EncodedFields.Statement .acq := fields_of_word _ _

theorem EncodedFields.align : EncodedFields.Statement .align := fields_of_word _ _

theorem EncodedFields.demod (n : Nat) : EncodedFields.Statement (.demod n) := fields_of_word _ _

theorem EncodedFields.emit : EncodedFields.Statement .emit := fields_of_word _ _

theorem EncodedFields.drain : EncodedFields.Statement .drain := fields_of_word _ _

theorem EncodedFields.cycle : EncodedFields.Statement .cycle := fields_of_word _ _

theorem EncodedFields.run : EncodedFields.Statement .run := fields_of_word _ _

theorem EncodedFields.tlook (h : Half) : EncodedFields.Statement (.tlook h) := fields_of_word _ _

theorem EncodedFields.clrst : EncodedFields.Statement .clrst := fields_of_word _ _

theorem EncodedFields.srst : EncodedFields.Statement .srst := fields_of_word _ _

end Sys2Proof.Laws
end

