-- ==== Sys2Proof/Tests/Slice0.lean ====
section
/-! SUPPORT. The smoke tests, the words written out from spec/30_encoding.md, one-step tests from the vectors of
spec/95_test_vectors.md (each names its vector), and for each statement with hypotheses a state that meets them. -/

namespace Sys2Proof.Tests

open Sys2Proof Sys2Proof.Machine

/-! ## Well-formedness: one ill-formed term for each check -/

theorem test_wf_demod_count_too_large : (Instr.demod 65536).wf = false := by decide

theorem test_wf_demod_count_largest : (Instr.demod 65535).wf = true := by decide

theorem test_wf_block_words_odd : ¬ ({ Config.tc1 with blockWords := 5 } : Params).BlockWordsOk := by decide

theorem test_wf_chunk_zero : ¬ ({ Config.tc1 with chunk := 0 } : Params).ChunkOk := by decide

theorem test_wf_acc_cap_too_small : ¬ ({ Config.tc1 with accCap := 11 } : Params).AccCapOk := by decide

theorem test_wf_sync_offset_outside_block : ¬ ({ Config.tc1 with syncOffset := 16 } : Params).SyncOffsetOk := by decide

theorem test_wf_sync_flip_zero : ¬ ({ Config.tc1 with syncFlip := 0 } : Params).SyncFlipOk := by decide

theorem test_wf_symtab_not_inverting : ¬ ({ Config.tc1 with symtab := [(0xCCCC#16, 0x01#8)] } : Params).SymtabOk :=
  fun h => absurd (h 0x00#8 false) (by decide)

theorem tc1_wf : Config.tc1.Wf := ⟨by decide, by decide, by decide, by decide, by decide, by decide⟩

/-! ## Decoding: words written out bit by bit, `IMM16` at 31:16, `RSV` at 15:8, `OPC` at 7:0 (30_encoding.md R80, R82) -/

theorem test_decode_nop : decode 0b0000000000000000_00000000_00000000#32 = .ok .nop := by decide

theorem test_decode_acq : decode 0b0000000000000000_00000000_00000001#32 = .ok .acq := by decide

theorem test_decode_align : decode 0b0000000000000000_00000000_00000010#32 = .ok .align := by decide

theorem test_decode_demod : decode 0b0000000000000100_00000000_00000011#32 = .ok (.demod 4) := by decide

theorem test_decode_emit : decode 0b0000000000000000_00000000_00000100#32 = .ok .emit := by decide

theorem test_decode_drain : decode 0b0000000000000000_00000000_00000101#32 = .ok .drain := by decide

theorem test_decode_cycle : decode 0b0000000000000000_00000000_00000110#32 = .ok .cycle := by decide

theorem test_decode_run : decode 0b0000000000000000_00000000_00000111#32 = .ok .run := by decide

theorem test_decode_tlook : decode 0b1011001100110011_00000000_00001000#32 = .ok (.tlook 0xB333#16) := by decide

theorem test_decode_clrst : decode 0b0000000000000000_00000000_00001001#32 = .ok .clrst := by decide

theorem test_decode_srst : decode 0b0000000000000000_00000000_00001010#32 = .ok .srst := by decide

/-- K1 and K3 of section 7: RSV, and IMM16 on a command without operand. -/
theorem test_decode_illegal_bits :
    decode 0x00000100#32 = .error .illegalBits ∧ decode 0x00010001#32 = .error .illegalBits := by decide

/-- K5 and K6 of section 7: the ends of the reserved opcodes. -/
theorem test_decode_reserved_opcode :
    decode 0x0000000B#32 = .error .reservedOpcode ∧ decode 0x000000FF#32 = .error .reservedOpcode := by decide

/-- Check 1 comes before check 2 (44_sequencer_control.md R170): a reserved opcode with RSV set is reason 1. -/
theorem test_decode_check_order : decode 0x0000010B#32 = .error .illegalBits := by decide

theorem test_decode_table_word : decodeTableWord 32 0x00040003 = some (.demod 4) ∧ decodeTableWord 8 0x0A = some .srst := by
  decide

/-! ## Small states -/

/-- The next state of a step, where there is one. -/
def after (o : Host.Outcome State Fault Refusal) : Option State :=
  match o with
  | .next s => some s
  | .fault _ => none
  | .refused _ => none

/-- Block B1 of S5. -/
def b1 : List Word := [0x001B0000#32, 0xCB532CB3#32, 0x00000000#32, 0xCD54D4B4#32]

/-- TC1, idle, block B1 held (Q2). -/
def held : State := { State.reset with raw := Memory.ofBytes 0 (blockBytes b1), cur := 0, blkCnt := 1 }

/-- TC1, idle, one chunk in the accumulator and the block used up (M5). -/
def full : State := { held with acc := Memory.ofBytes 0 [0x12, 0x34, 0x56, 0x78], fill := 4, cur := 4 }

/-- TC1, a block requested by the command `op`. -/
def requesting (op : SeqOp) : State := { State.reset with seqOp := op, state := .acq, run := op == .run }

/-- TC1, the sequencer in ALIGN or DEMOD on block B1, working for the command `op`. -/
def sequencing (q : SeqState) (op : SeqOp) : State := { held with seqOp := op, state := q, run := op == .run }

/-- TC1, one payload submitted by the command `op`, and a whole chunk left. -/
def submitting (op : SeqOp) : State :=
  { full with
    seqOp := op
    state := .emit
    run := op == .run
    pend := true
    pay := Memory.ofBytes 0 [0x01, 0x10, 0x02, 0x00, 0x00, 0x0A, 0x0B, 0x0C, 0x0D] }

/-- TC1 after an acquisition fault (Q3). -/
def faulted : State := { State.reset with fatal := true, state := .fault }

/-- A state of TC1 meets the invariant when its fields do. -/
theorem inv_of {s : State} (hp : s.params = Config.tc1)
    (h : (s.raw.Whole 16 ∨ (s.raw = [] ∧ s.cur = 4)) ∧ s.cur ≤ 4 ∧ s.cur % 2 = 0 ∧ s.acc.Whole s.fill ∧ s.fill ≤ 12 ∧
      (s.pay = [] ∨ (s.pay.Whole 9 ∧ s.pay.bytes.take 5 = Config.tc1.hdr.bytes)) ∧
      (s.pend = true ↔ s.state = .emit) ∧ (s.pend = true → s.pay ≠ []) ∧
      (s.seqOp = .none ↔ s.state = .idle ∨ s.state = .fault) ∧
      (s.state = .acq → s.seqOp = .acq ∨ s.seqOp = .cycle ∨ s.seqOp = .run) ∧
      (s.state = .align ∨ s.state = .demod → s.seqOp = .cycle ∨ s.seqOp = .run) ∧ (s.state = .emit → s.seqOp ≠ .acq) ∧
      (s.state = .align ∨ s.state = .demod → s.cur = 0) ∧ (s.fatal = true ↔ s.state = .fault) ∧
      (s.run = true ↔ s.seqOp = .run) ∧ (s.badcmd = true ↔ s.badcode ≠ .none) ∧ (s.badcmd = false → s.lastbad = 0#32)) :
    s.Inv := by
  obtain ⟨h1, h2, h3, h4, h5, h6, h7, h8, h9, h10, h11, h12, h13, h14, h15, h16, h17⟩ := h
  refine ⟨⟨hp ▸ tc1_wf, ?_, ?_, h3, h4, ?_, ?_⟩, ⟨h7, h8, h9, h10, h11, h12, h13, h14, h15, h16, h17⟩⟩
  · rw [hp]; exact h1
  · rw [hp]; exact h2
  · rw [hp]; exact h5
  · rw [hp]; exact h6

/-! ## One step of each command -/

/-- K8: NOP in FAULT is accepted and changes nothing. -/
theorem test_nop_in_fault : after (exec .nop faulted) = some faulted := by decide

/-- Q1: STATUS after ACQ. -/
theorem test_acq_status : (after (exec .acq State.reset)).map State.status = some 0x00000011#32 := by decide

/-- A1: the sync byte 0x1B becomes 0x11, STATUS 0x00000820. -/
theorem test_align_corrects :
    (after (exec .align held)).map (fun s => (s.rawWord 0, s.rawWord 1, s.status, s.fixCnt)) =
      some (0x00110000#32, 0xCB532CB3#32, 0x00000820#32, 1#32) := by decide

/-- A9: ALIGN from reset reads no word of RAW. -/
theorem test_align_exhausted : after (exec .align State.reset) = some State.reset := by decide

/-- M5: DEMOD 4 appends both samples, low byte first. -/
theorem test_demod_block :
    (after (exec (.demod 4) held)).map (fun s => (s.acc.bytes, s.cur, s.status)) =
      some ([0x12, 0x34, 0x56, 0x78], 4, 0x00000040#32) := by decide

/-- M12: no room, so CLAMP is set and CUR stays. -/
theorem test_demod_clamps :
    (after (exec (.demod 2) { held with acc := Memory.ofBytes 0 (List.replicate 12 0#8), fill := 12 })).map
      (fun s => (s.fill, s.cur, s.status)) = some (12, 0, 0x000000E0#32) := by decide

/-- E1: the payload, and STATUS while it is outstanding. -/
theorem test_emit_payload :
    (after (exec .emit full)).map (fun s => (s.pay.bytes, s.fill, s.acc, s.status)) =
      some ([0x01, 0x10, 0x02, 0x00, 0x00, 0x12, 0x34, 0x56, 0x78], 0, [], 0x00000014#32) := by decide

/-- E3: `CHUNK = 3`, `ACC_CAP = 10`: the tail byte moves to index 0. -/
theorem test_emit_shifts :
    (after (exec .emit { full with params := { Config.tc1 with chunk := 3, accCap := 10 } })).map
      (fun s => (s.pay.bytes, s.acc.bytes, s.status)) =
      some ([0x01, 0x10, 0x02, 0x00, 0x00, 0x12, 0x34, 0x56], [0x78], 0x00000014#32) := by decide

/-- E5, its first step: `CHUNK = 1`, `ACC_CAP = 6`. -/
theorem test_drain_first_payload :
    (after (exec .drain { full with params := { Config.tc1 with chunk := 1, accCap := 6 } })).map
      (fun s => (s.pay.bytes, s.acc.bytes, s.seqOp)) =
      some ([0x01, 0x10, 0x02, 0x00, 0x00, 0x12], [0x34, 0x56, 0x78], .drain) := by decide

/-- E2: less than a chunk is not framed. -/
theorem test_drain_short : after (exec .drain { full with acc := Memory.ofBytes 0 [0x12, 0x34], fill := 2 }) =
    some { full with acc := Memory.ofBytes 0 [0x12, 0x34], fill := 2 } := by decide

/-- Y1: STATUS after CYCLE. -/
theorem test_cycle_status : (after (exec .cycle State.reset)).map State.status = some 0x00000011#32 := by decide

/-- K9: CYCLE in run mode is refused with reason 4. -/
theorem test_cycle_in_run_mode :
    (after (exec .cycle (requesting .run))).map (fun s => (s.status, s.lastbad)) = some (0x00004219#32, 0x00000006#32) := by
  decide

/-- Y3: STATUS after RUN. -/
theorem test_run_status : (after (exec .run State.reset)).map State.status = some 0x00000019#32 := by decide

/-- K7: RUN in FAULT is refused with reason 3. -/
theorem test_run_in_fault :
    (after (exec .run faulted)).map (fun s => (s.status, s.lastbad)) = some (0x00003307#32, 0x00000007#32) := by decide

/-- Section 3: the row of 0xDEAD, no valid pattern. -/
theorem test_tlook_invalid_pattern : (after (exec (.tlook 0xDEAD) State.reset)).map State.result = some 0x000000BA#32 := by
  decide

/-- T1: TLOOK in FAULT. -/
theorem test_tlook_in_fault :
    (after (exec (.tlook 0x5555) faulted)).map (fun s => (s.result, s.status)) = some (0x000000FF#32, 0x00000107#32) := by
  decide

/-- P3: CLRST after a refusal. -/
theorem test_clrst_clears :
    (after (exec .clrst (raiseBadcmd .illegalBits 0x101#32 State.reset))).map (fun s => (s.status, s.lastbad)) =
      some (0#32, 0#32) := by decide

/-- K8: CLRST leaves FAULT and FATAL. -/
theorem test_clrst_in_fault : (after (exec .clrst faulted)).map State.status = some 0x00000107#32 := by decide

/-- K12: SRST abandons an outstanding submission. -/
theorem test_srst_abandons : after (exec .srst (submitting .emit)) = some State.reset := by decide

/-- P1: the sink's answer ends EMIT and is counted. -/
theorem test_sink_answer_ends_emit :
    (after (takeMove (.sinkAnswer .ok) (submitting .emit))).map (fun s => (s.state, s.sentCnt, s.pend)) =
      some (.idle, 1#32, false) := by decide

/-- Registers from reset (section 7): CFG_SYNC, CFG_HDR0, CURSOR, and STATUS at an unaligned offset. -/
theorem test_register_reads :
    [0x38#8, 0x3C#8, 0x10#8, 0x05#8].map State.reset.hostReadValue =
      [0x010A0002#32, 0x00021001#32, 0x00000004#32, 0x00000000#32] := by decide

/-- The word placed by `withFetchWord` runs as the very next step. -/
theorem test_fetch_word_runs :
    (after (step (State.reset.withFetchWord 32 0xB3330008))).map State.result = some 0x00000001#32 := by decide

/-! ## Witnesses: states that meet the hypotheses of the statements -/

/-- DecodeOfEncodeIsTheCommand, at the largest operand. -/
theorem witness_encode : (Instr.demod 65535).wf = true ∧ (Instr.tlook 0xFFFF).wf = true := by decide

/-- EncodeOfDecodeIsTheWord. -/
theorem witness_decode : ∃ c i, decode c = .ok i := ⟨0xFFFF0003#32, .demod 65535, by decide⟩

/-- StepRunsTheDecodedCommand, at the last byte offset of CMD. -/
theorem witness_step_command :
    ∃ (s : State) (off : BitVec 8) (c : Word) (rest : List Move) (i : Instr),
      s.agenda = .hostWrite off c :: rest ∧ off &&& 0xFC#8 = 0#8 ∧ decode c = .ok i :=
  ⟨{ State.reset with agenda := [.hostWrite 0x03#8 0x00000001#32] }, 0x03#8, 0x00000001#32, [], .acq, by decide⟩

/-- StepRecordsAWordThatIsNoCommand: both clauses, both reasons. -/
theorem witness_step_no_command :
    (∃ (s : State) (off : BitVec 8) (c : Word) (rest : List Move),
      s.agenda = .hostWrite off c :: rest ∧ off &&& 0xFC#8 = 0#8 ∧ decode c = .error .illegalBits ∧ s.badcmd = false) ∧
      ∃ (s : State) (off : BitVec 8) (c : Word) (rest : List Move),
        s.agenda = .hostWrite off c :: rest ∧ off &&& 0xFC#8 = 0#8 ∧ decode c = .error .reservedOpcode ∧ s.badcmd = true :=
  ⟨⟨{ State.reset with agenda := [.hostWrite 0x00#8 0x00000101#32] }, 0x00#8, 0x00000101#32, [], by decide⟩,
    ⟨{ State.reset with agenda := [.hostWrite 0x00#8 0x0000000B#32], badcmd := true, badcode := .busy }, 0x00#8,
      0x0000000B#32, [], by decide⟩⟩

/-- StepTakesThePlacedOrTheFreeMove: a move placed, and none. -/
theorem witness_placed_or_free :
    (∃ (s : State) (m : Move) (rest : List Move), s.agenda = m :: rest) ∧ State.reset.agenda = [] :=
  ⟨⟨State.reset.withFetchWord 32 0, .hostWrite 0x00#8 0#32, [], by decide⟩, by decide⟩

/-- StepIsRefusedExactlyWhenTheAgentHasNone: a move with a step, and one without. -/
theorem witness_enabled :
    (State.Inv { requesting .acq with agenda := [.deliver b1] } ∧
      State.enabled { requesting .acq with agenda := [.deliver b1] } (.deliver b1)) ∧
      State.Inv { State.reset with agenda := [.sequencer] } ∧
        ¬ State.enabled { State.reset with agenda := [.sequencer] } .sequencer :=
  ⟨⟨inv_of rfl (by decide), by decide, by decide⟩, inv_of rfl (by decide), by rintro (h | h) <;> cases h⟩

/-- DecodingIgnoresPolarity, DataWordDecodesToItsSample, ConfigurationRegistersReadTheParameters and every statement
about all admissible instances. -/
theorem witness_admissible_instance : ∃ p : Params, p.Wf ∧ p.SymtabOk := ⟨Config.tc1, tc1_wf, tc1_wf.symtab⟩

/-- TlookReturnsTheTableEntry: the reference table, no patch; a TLOOK word with RSV set. -/
theorem witness_tlook :
    State.reset.params.symtab = [] ∧
      (0xB3330108#32).extractLsb' 0 8 = 0x08#8 ∧ (0xB3330108#32).extractLsb' 8 8 ≠ 0#8 := by decide

/-- ElementRegistersReadTheirElement: a state that meets the invariant, and the ends of both ranges of offsets. -/
theorem witness_element_registers :
    full.Inv ∧ (0x0C ≤ (0x0C#8).toNat ∧ (0x2B#8).toNat < 0x2C) ∧ 0x14 ≤ (0x14#8).toNat := ⟨inv_of rfl (by decide), by decide⟩

/-- ConfigurationRegistersReadTheParameters: a step, and the ends of the range of offsets. -/
theorem witness_configuration_registers :
    (∃ t, step { State.reset with agenda := [Move.cmd .srst] } = .next t) ∧
      0x2C ≤ (0x2C#8).toNat ∧ (0x43#8).toNat < 0x44 := ⟨⟨_, rfl⟩, by decide⟩

/-- HostAccessesActOnOneRegister: the ends of the unmapped offsets, and of the offsets whose writes have no effect. -/
theorem witness_host_accesses :
    (0x44 ≤ (0x44#8).toNat ∧ 0x44 ≤ (0xFF#8).toNat) ∧
      (0x04#8 &&& 0xFC#8 ≠ 0x00#8 ∧ 0x07#8 &&& 0xFC#8 ≠ 0x08#8) ∧ 0x0C#8 &&& 0xFC#8 ≠ 0x08#8 := by decide

/-- NopChangesNothing: an opcode 0 with another bit set. -/
theorem witness_nop_word : (0x80000000#32).extractLsb' 0 8 = 0#8 ∧ 0x80000000#32 ≠ 0#32 := by decide

/-- ClrstClearsTheStickyFlags: a recorded refusal with its interrupt enabled, a step of CLRST, and vector K4. -/
theorem witness_clrst :
    (∃ s t : State, exec .clrst s = .next t ∧ s.badcmd = true ∧ s.badcode = .illegalBits ∧
      s.hostReadValue 0x08#8 = 0x200#32) ∧
      (0x12340009#32).extractLsb' 0 8 = 0x09#8 ∧ 0x12340009#32 ≠ 0x00000009#32 :=
  ⟨⟨{ raiseBadcmd .illegalBits 0x101#32 State.reset with ie := 2#3 }, _, rfl, by decide⟩, by decide⟩

/-- RequestCommandsStartABlockRequest, ShortAccumulatorIsNotFramed (at `FILL = CHUNK - 1`), DemodCountsWholeSamples. -/
theorem witness_ready :
    State.reset.Ready ∧ (∃ t, exec .run State.reset = .next t) ∧
      State.Ready { full with acc := Memory.ofBytes 0 [1, 2, 3], fill := 3 } ∧ 3 < full.params.chunk ∧
      State.reset.cur = State.reset.params.blockWords ∧ ∃ t, exec (.demod 3) held = .next t :=
  ⟨by decide, ⟨_, rfl⟩, by decide, by decide, by decide, ⟨_, rfl⟩⟩

/-- CommandsAreRefusedWhileFaultedOrBusy: a faulted block, a busy one, and one in run mode. -/
theorem witness_refused :
    decode 0x00000004#32 = .ok .emit ∧ faulted.fatal = true ∧
      ((requesting .acq).fatal = false ∧ (requesting .acq).state ≠ .idle) ∧
      (requesting .run).fatal = false ∧ (requesting .run).run = true := by decide

/-- AlignCorrectsTheSyncByte and the three statements after it: a correction, no match, an exhausted block. -/
theorem witness_align :
    (held.Inv ∧ held.Ready ∧ held.cur ≠ held.params.blockWords ∧ ∃ t, exec .align held = .next t ∧ t.syncfix = true) ∧
      (State.Inv { held with raw := Memory.ofBytes 0 (blockBytes [0x00120000#32, 0, 0, 0]) } ∧
        0x12#8 &&& held.params.syncFlip ≠ held.params.syncFlip) ∧
      (State.reset.Inv ∧ State.reset.cur = State.reset.params.blockWords) ∧
      held.params.syncOffset / 4 % 2 ≠ held.params.dataPhase.val :=
  ⟨⟨inv_of rfl (by decide), by decide, by decide,
      ⟨_, rfl, by decide⟩⟩,
    ⟨inv_of rfl (by decide), by decide⟩, ⟨inv_of rfl (by decide), by decide⟩, by decide⟩

/-- AlignLeavesOtherSamplesAlone, its second case: the sync byte in a data word already demodulated. -/
theorem witness_align_behind_cursor :
    ∃ s : State, s.params.syncOffset / 4 % 2 = s.params.dataPhase.val ∧ s.params.syncOffset / 4 < s.cur ∧ s.Ready :=
  ⟨{ held with params := { Config.tc1 with syncOffset := 6, syncFlip := 0x01 }, cur := 2 }, by decide⟩

/-- DemodAppendsDecodedSamples, ClampMarksACapacityStop: a sample appended, and addresses on both sides of it. -/
theorem witness_demod :
    held.Inv ∧ held.Ready ∧ 0 < min (4 / 2) (min ((held.params.blockWords - held.cur) / 2)
      ((held.params.accCap - held.fill) / 2)) := ⟨inv_of rfl (by decide), by decide, by decide⟩

/-- FramingSubmitsHeaderAndOldestChunk, at `FILL = CHUNK`. -/
theorem witness_framing : full.Inv ∧ full.Ready ∧ full.params.chunk = full.fill := ⟨inv_of rfl (by decide), by decide, by decide⟩

/-- OfferedPayloadIsHeaderAndOneChunk, PayloadIsStableWhileSubmitted: a submission outstanding, and another agent's
step. -/
theorem witness_submitted :
    State.Inv { submitting .drain with agenda := [.hostRead 0x04#8] } ∧ (submitting .drain).sendReq = true ∧
      (submitting .drain).pend = true ∧ (Move.hostRead 0x04#8).resets = false ∧
      (∃ t, step { submitting .drain with agenda := [.hostRead 0x04#8] } = .next t) ∧
      ∀ r, Move.hostRead 0x04#8 ≠ .sinkAnswer r :=
  ⟨inv_of rfl (by decide), by decide, by decide, by decide,
    ⟨_, rfl⟩, fun r h => by cases h⟩

/-- DrainSubmitsEveryWholeChunk: two chunks, one answered `error`. -/
theorem witness_drain :
    ∃ (s : State) (rs : List SinkAnswer), s.Inv ∧ s.Ready ∧ rs.length = s.fill / s.params.chunk ∧ rs.length = 2 ∧
      s.agenda = Move.cmd .drain :: rs.map Move.sinkAnswer :=
  ⟨{ full with
      acc := Memory.ofBytes 0 [1, 2, 3, 4, 5, 6, 7, 8, 9]
      fill := 9
      agenda := [Move.cmd .drain, .sinkAnswer .ok, .sinkAnswer .error] }, [.ok, .error], inv_of rfl (by decide), by decide,
    by decide, by decide, by decide⟩

/-- DeliveryReplacesTheBlock. -/
theorem witness_delivery :
    ∃ s : State, s.acqReq = true ∧ b1.length = s.params.blockWords := ⟨requesting .cycle, by decide⟩

/-- RawByteViewIsLittleEndian: a held block, at the ends of both ranges. -/
theorem witness_raw_view :
    held.Inv ∧ held.cur < held.params.blockWords ∧ 15 < 4 * held.params.blockWords ∧ 3 < held.params.blockWords :=
  ⟨inv_of rfl (by decide), by decide, by decide, by decide⟩

/-- AcquisitionFaultEntersFault. -/
theorem witness_acq_fault : (requesting .run).Inv ∧ (requesting .run).acqReq = true :=
  ⟨inv_of rfl (by decide), by decide⟩

/-- SinkAnswerIsCountedAndTheOperationGoesOn: EMIT's end, a chain's next payload, a run-mode cycle's end. -/
theorem witness_sink_answer :
    ((submitting .emit).Inv ∧ (submitting .emit).sendReq = true) ∧
      ((submitting .drain).Inv ∧ (submitting .drain).params.chunk = (submitting .drain).fill) ∧
      State.Inv { submitting .run with acc := Memory.ofBytes 0 [1, 2, 3], fill := 3 } :=
  ⟨⟨inv_of rfl (by decide), by decide⟩, ⟨inv_of rfl (by decide), by decide⟩, inv_of rfl (by decide)⟩

/-- SequencerAlignsTheBlock, both cases. -/
theorem witness_sequencer_align :
    ((sequencing .align .cycle).Inv ∧ (sequencing .align .cycle).state = .align ∧
      0x1B#8 &&& Config.tc1.syncFlip = Config.tc1.syncFlip ∧ held.raw.read 2 = some 0x1B#8) ∧
      State.Inv { sequencing .align .run with raw := Memory.ofBytes 0 (blockBytes [0x00120000#32, 0, 0, 0]) } :=
  ⟨⟨inv_of rfl (by decide), by decide, by decide, by decide⟩, inv_of rfl (by decide)⟩

/-- SequencerDemodulatesThenFramesOrEnds: a chunk framed; and, with `CHUNK = 5`, a cycle's end. -/
theorem witness_sequencer_demod :
    ((sequencing .demod .cycle).Inv ∧ (sequencing .demod .cycle).state = .demod) ∧
      State.Inv { sequencing .demod .run with params := { Config.tc1 with chunk := 5, accCap := 14 } } := by
  refine ⟨⟨inv_of rfl (by decide), by decide⟩, ⟨⟨⟨by decide, by decide, by decide, by decide, by decide, tc1_wf.symtab⟩, .inl (by decide),
    by decide, by decide, by decide, by decide, .inl (by decide)⟩, ?_⟩⟩
  constructor <;> decide

/-- EveryStepKeepsTheInvariant, EnabledMovesComplete, NoStepWritesTheParameters, StateMovesByTheTable,
CountersSteerNothing: a state that meets the invariant and takes a step. -/
theorem witness_step :
    ∃ s t : State, s.Inv ∧ step s = .next t ∧ s.enabled s.nextMove :=
  ⟨{ held with agenda := [Move.cmd .align] }, _, inv_of rfl (by decide), rfl, trivial⟩

/-- FaultAndStickyFlagsLastUntilTheirClears: a command accepted in FAULT; and, with every sticky flag set, a step that is
neither CLRST nor a reset. -/
theorem witness_fault :
    (State.Inv { faulted with agenda := [Move.cmd .clrst] } ∧ faulted.state = .fault ∧ (Move.cmd .clrst).resets = false ∧
      ∃ t, step { faulted with agenda := [Move.cmd .clrst] } = .next t) ∧
      ∃ s t : State, step s = .next t ∧ s.nextMove.resets = false ∧ s.fatal = true ∧ s.badcmd = true ∧ s.drop = true ∧
        ∀ off v, s.nextMove = .hostWrite off v → regAt off = some .cmd → decode v ≠ .ok .clrst :=
  ⟨⟨inv_of rfl (by decide), by decide, by decide, ⟨_, rfl⟩⟩,
    ⟨{ faulted with badcmd := true, badcode := .faulted, drop := true, agenda := [.hostRead 0x04#8] }, _, rfl, by decide,
      by decide, by decide, by decide, fun _ _ h => by cases h⟩⟩

/-- RunModeEndsByFaultOrResetOnly: run mode ended, and a command refused in it. -/
theorem witness_run_mode :
    (∃ s t : State, s.run = true ∧ step s = .next t ∧ t.run = false) ∧
      ∃ (s t : State) (c : Word), s.run = true ∧ s.nextMove = .hostWrite 0x00#8 c ∧ s.nextMove.resets = false ∧
        step s = .next t :=
  ⟨⟨{ requesting .run with agenda := [.acqFault] }, _, by decide, rfl, by decide⟩,
    ⟨{ requesting .run with agenda := [Move.cmd .nop] }, _, 0#32, by decide, rfl, by decide, rfl⟩⟩

/-- The runs' statements, with a delivery, a sink answer and a reset: SubmittedBytesAreTheAppendedBytes,
EverySubmittedPayloadIsHeaderAndChunk, PayloadCountIsAppendedBytesDivChunk. -/
theorem witness_run :
    ∃ s h, observedRun 5 { State.resetOf Config.tc1 with
        agenda := [Move.cmd .cycle, .deliver b1, .sequencer, .sequencer, .sinkAnswer .ok] } (History.start false) =
          some (s, h) ∧ s.fill < Config.tc1.chunk ∧ h.submitted.length = 1 :=
  ⟨_, _, rfl, by decide, by decide⟩

/-- SubmittedBytesAreTheAppendedBytes, its step: one payload submitted, a whole chunk left, and the sink's answer. -/
theorem witness_conserving_step :
    ∃ (s t : State) (h : History), s.Inv ∧ h.Conserved s ∧ h.submitted.length = 1 ∧ step s = .next t :=
  ⟨{ submitting .drain with agenda := [.sinkAnswer .ok] }, _,
    { appended := [0x0A, 0x0B, 0x0C, 0x0D, 0x12, 0x34, 0x56, 0x78]
      submitted := [[0x01, 0x10, 0x02, 0x00, 0x00, 0x0A, 0x0B, 0x0C, 0x0D]]
      blocks := 2
      inRunMode := false }, inv_of rfl (by decide), by decide, by decide, rfl⟩

/-- SequencerNeverStopsOnCapacity, at the largest FILL it speaks of. -/
theorem witness_no_capacity_stop :
    ∃ s t : State, s.Inv ∧ s.state = .demod ∧ s.nextMove = .sequencer ∧
      s.fill = s.params.accCap - s.params.blockWords ∧ step s = .next t :=
  ⟨{ sequencing .demod .cycle with
      acc := Memory.ofBytes 0 [1, 2, 3, 4, 5, 6, 7, 8], fill := 8, agenda := [.sequencer] }, _, inv_of rfl (by decide), rfl,
    rfl, rfl, rfl⟩

/-- CyclesEndBelowOneChunk: a drain's last answer, with `FILL = CHUNK - 1`. -/
theorem witness_cycle_end :
    ∃ s t : State, s.Inv ∧ s.state = .emit ∧ s.seqOp ≠ .emit ∧ step s = .next t ∧ s.nextMove.resets = false ∧
      t.state = .idle :=
  ⟨{ submitting .drain with acc := Memory.ofBytes 0 [1, 2, 3], fill := 3, agenda := [.sinkAnswer .ok] }, _,
    inv_of rfl (by decide), by decide, by decide, rfl, by decide, by decide⟩

/-- RunModeKeepsTheFillBound, at the largest FILL before a run-mode Demodulate. -/
theorem witness_fill_bound :
    ∃ s t : State, s.Inv ∧ s.run = true ∧ s.Drained ∧ step s = .next t ∧ t.run = true :=
  ⟨{ sequencing .demod .run with acc := Memory.ofBytes 0 [1, 2, 3], fill := 3, agenda := [.sequencer] }, _,
    inv_of rfl (by decide), by decide, by decide, rfl, by decide⟩

/-- RunModeOutputRate: one block delivered in run mode, and the next requested. -/
theorem witness_output_rate :
    ∃ s0 s h, exec .run { State.resetOf Config.tc1 with agenda := [.deliver b1, .sequencer, .sequencer, .sinkAnswer .ok] } =
        .next s0 ∧ observedRun 4 s0 (History.start true) = some (s, h) ∧ h.inRunMode = true ∧ s.state = .acq ∧ h.blocks = 1 :=
  ⟨_, _, _, rfl, rfl, by decide, by decide, by decide⟩

/-- RunModeOutputRate, its step: the second block of a run is demodulated, one payload was submitted. -/
theorem witness_output_rate_step :
    ∃ (s t : State) (h : History), s.Inv ∧ s.run = true ∧ s.Drained ∧ h.Accounted s ∧ h.blocks = 2 ∧ step s = .next t ∧
      t.run = true :=
  ⟨{ sequencing .demod .run with agenda := [.sequencer] }, _,
    { appended := [0x0A, 0x0B, 0x0C, 0x0D]
      submitted := [[0x01, 0x10, 0x02, 0x00, 0x00, 0x0A, 0x0B, 0x0C, 0x0D]]
      blocks := 2
      inRunMode := true }, inv_of rfl (by decide), by decide, by decide, by decide, by decide, rfl, by decide⟩

/-- HostSteppedCycleEqualsCycle: a run of the host's steps to the end, with one payload. -/
theorem witness_host_stepped :
    State.reset.Inv ∧ State.reset.Ready ∧ State.reset.params.blockWords ≤ 65535 ∧
      b1.length = State.reset.params.blockWords ∧
      ∃ t, runSteps 6 { State.reset with agenda := hostSteppedCycle b1 [.ok] } = .next t ∧ t.state = .idle :=
  ⟨inv_of rfl (by decide), by decide, by decide, by decide, ⟨_, rfl, by decide⟩⟩

end Sys2Proof.Tests
end

section
/-! PROOF. Every move whose agent has a step completes, and a move whose agent has none is refused: no step faults
(93_implementation_defined.md part 1, I3 to I5 and I18). -/

namespace Sys2Proof.Machine

open Sys2Proof

/-! ## Commands and host writes -/

/-- An always-accepted command completes in every state: its rule reads no buffer. -/
theorem exec_always_completes {i : Instr} (hi : i.always = true) (s : State) : ∃ t, exec i s = .next t := by
  cases i with
  | nop => exact ⟨s, rfl⟩
  | tlook h => exact ⟨{ s with result := (symtab s.params h).setWidth 32 }, rfl⟩
  | clrst => exact ⟨clearSticky s, rfl⟩
  | srst => exact ⟨softReset s, rfl⟩
  | _ => cases hi

/-- A ready block completes every command that it can also refuse. -/
theorem exec_ready_completes {s : State} (h : s.DataInv) (hr : s.Ready) {i : Instr} (hi : i.always = false) :
    ∃ t, exec i s = .next t := by
  obtain ⟨hacq, hcycle, hrun, halign, hdemod, hemit, hdrain⟩ := exec_ready h hr
  cases i with
  | acq => exact ⟨_, hacq⟩
  | cycle => exact ⟨_, hcycle⟩
  | run => exact ⟨_, hrun⟩
  | align =>
    obtain ⟨_, _, _, hsync⟩ := syncAlign_completes h
    exact ⟨_, halign.trans (congrArg toOutcome hsync)⟩
  | demod n => exact ⟨_, hdemod n⟩
  | emit => exact ⟨_, hemit⟩
  | drain => exact ⟨_, hdrain⟩
  | _ => cases hi

/-- Every command completes, run or refused with a record (44_sequencer_control.md R170). -/
theorem exec_completes {s : State} (h : s.DataInv) (i : Instr) : ∃ t, exec i s = .next t := by
  cases hi : i.always with
  | true => exact exec_always_completes hi s
  | false =>
    by_cases hr : s.Ready
    · exact exec_ready_completes h hr hi
    · obtain ⟨k, -, hk⟩ := exec_not_ready hr hi
      exact ⟨_, hk⟩

/-- The host's writes complete, whatever the offset and the word (20_memory.md R57). -/
theorem hostWrite_completes {s : State} (h : s.DataInv) (off : BitVec 8) (v : Word) :
    ∃ t, hostWrite off v s = .next t := by
  unfold hostWrite
  split
  · unfold command
    split
    · exact ⟨_, rfl⟩
    · exact exec_completes h _
  · exact ⟨_, rfl⟩
  · exact ⟨_, rfl⟩

/-! ## The agents' moves -/

/-- The sequencer's step in ALIGN completes. -/
theorem alignStep_completes {s : State} (h : s.DataInv) : ∃ t, alignStep s = .ok t := by
  obtain ⟨_, _, _, hsync⟩ := syncAlign_completes h
  exact ⟨_, by rw [alignStep, hsync]⟩

/-- A move whose agent has a step completes: every byte it reads is held, every byte it writes is inside its memory. -/
theorem takeMove_completes {s : State} (h : s.DataInv) {m : Move} (he : s.enabled m) : ∃ t, takeMove m s = .next t := by
  cases m with
  | hostWrite off v => exact hostWrite_completes h off v
  | hostRead off => exact ⟨_, rfl⟩
  | deliver ws => exact ⟨_, deliver_eq he.1 he.2⟩
  | acqFault => exact ⟨_, acqFault_eq he⟩
  | sinkAnswer r => exact ⟨_, sinkAnswer_eq h he r⟩
  | sequencer =>
    rcases he with hs | hs
    · obtain ⟨t, ht⟩ := alignStep_completes h
      exact ⟨t, (sequencerStep_align hs).trans (congrArg toOutcome ht)⟩
    · exact ⟨_, (sequencerStep_demod hs).trans (congrArg toOutcome (demodStep_eq h))⟩
  | resetInput => exact ⟨_, rfl⟩

/-- A move whose agent has no step is refused, in any state (93_implementation_defined.md I18; log 6). -/
theorem takeMove_refused {s : State} {m : Move} (hn : ¬ s.enabled m) : ∃ r, takeMove m s = .refused r := by
  cases m with
  | hostWrite off v => exact absurd trivial hn
  | hostRead off => exact absurd trivial hn
  | deliver ws =>
    by_cases hs : s.state = .acq
    · have hl : ws.length ≠ s.params.blockWords := fun hl => hn ⟨hs, hl⟩
      exact ⟨.notOneWholeBlock, by simp [takeMove, deliver, State.acqReq, hs, hl]⟩
    · exact ⟨.noBlockRequest, by simp [takeMove, deliver, State.acqReq, hs]⟩
  | acqFault =>
    have hs : s.state ≠ .acq := hn
    exact ⟨.noBlockRequest, by simp [takeMove, acqFault, State.acqReq, hs]⟩
  | sinkAnswer r =>
    have hp : s.pend = false := Bool.eq_false_of_not_eq_true hn
    exact ⟨.noSubmission, by simp [takeMove, sinkAnswer, State.sendReq, hp]⟩
  | sequencer =>
    refine ⟨.noSequencerStep, ?_⟩
    show sequencerStep s = _
    unfold sequencerStep
    split
    · exact absurd (.inl ‹_›) hn
    · exact absurd (.inr ‹_›) hn
    all_goals rfl
  | resetInput => exact absurd trivial hn

/-! ## The step -/

/-- Whether a move has a step does not depend on the moves still to come. -/
theorem enabled_advance (s : State) (m : Move) : s.advance.enabled m ↔ s.enabled m := by
  cases m <;> simp [State.enabled]

/-- A step whose move's agent has one completes. -/
theorem step_completes {s : State} (h : s.Inv) (he : s.enabled s.nextMove) : ∃ t, step s = .next t :=
  takeMove_completes (advance_inv h).toDataInv ((enabled_advance s _).mpr he)

/-- A step whose move's agent has none is refused. -/
theorem step_refused {s : State} (hn : ¬ s.enabled s.nextMove) : ∃ r, step s = .refused r :=
  takeMove_refused (mt (enabled_advance s _).mp hn)

/-- Settles O46: a step either completes, when its move is enabled, or is refused, when it is not, so it never faults. -/
theorem enabledMovesComplete : Obligations.EnabledMovesComplete := by
  intro s h
  refine ⟨fun f hf => ?_, step_completes h⟩
  by_cases he : s.enabled s.nextMove
  · obtain ⟨t, ht⟩ := step_completes h he
    cases ht.symm.trans hf
  · obtain ⟨r, hr⟩ := step_refused he
    cases hr.symm.trans hf

end Sys2Proof.Machine
end

section
/-! PROOF. The host register port, register by register: the register map, what each register reads, and which writes
are ignored (10_state.md R33 to R38, 20_memory.md R57). -/

namespace Sys2Proof.Machine

open Sys2Proof

/-! ## The register map -/

/-- The byte offset of a register (10_state.md R33). -/
def Reg.offset : Reg → Nat
  | .cmd => 0x00
  | .status => 0x04
  | .ie => 0x08
  | .fill => 0x0C
  | .cursor => 0x10
  | .result => 0x14
  | .lastbad => 0x18
  | .blkCnt => 0x1C
  | .fixCnt => 0x20
  | .sentCnt => 0x24
  | .dropCnt => 0x28
  | .cfgChunk => 0x2C
  | .cfgBlock => 0x30
  | .cfgAccCap => 0x34
  | .cfgSync => 0x38
  | .cfgHdr0 => 0x3C
  | .cfgHdr1 => 0x40

/-- Ignoring bits 1:0 of an offset rounds it down to a multiple of 4. -/
theorem wordOffset_toNat : ∀ off : BitVec 8, (off &&& 0xFC#8).toNat = 4 * (off.toNat / 4) := by decide

/-- A register answers at its own offset and the three bytes after it, and nowhere else. -/
theorem offset_of_regAt {off : BitVec 8} {r : Reg} (h : regAt off = some r) :
    r.offset ≤ off.toNat ∧ off.toNat < r.offset + 4 := by
  unfold regAt at h
  rw [wordOffset_toNat] at h
  split at h <;> cases h <;> simp only [Reg.offset] <;> omega

theorem regAt_ne {off : BitVec 8} {r : Reg} (h : r.offset + 4 ≤ off.toNat) : regAt off ≠ some r :=
  fun hr => absurd (offset_of_regAt hr).2 (Nat.not_lt.mpr h)

/-! ## What a read returns -/

theorem hostReadValue_eq {off : BitVec 8} {r : Reg} (h : regAt off = some r) (s : State) :
    s.hostReadValue off = s.readReg r := by rw [State.hostReadValue, h]

theorem hostReadValue_unmapped {off : BitVec 8} (h : regAt off = none) (s : State) : s.hostReadValue off = 0#32 := by
  rw [State.hostReadValue, h]

/-- A write to a register other than CMD and IE changes nothing, whatever the value (20_memory.md R57). -/
theorem hostWrite_ignored {off : BitVec 8} (hc : regAt off ≠ some .cmd) (hi : regAt off ≠ some .ie) (v : Word)
    (s : State) : hostWrite off v s = .next s := by
  unfold hostWrite
  split
  · exact absurd ‹_› hc
  · exact absurd ‹_› hi
  · rfl

/-! ## STATUS -/

/-- The flags of STATUS, the one at bit 3 first (10_state.md R35). -/
def State.flags (s : State) : List Bool :=
  [s.run, s.busy, s.blkvalid, s.chunkrdy, s.clamp, s.fatal, s.badcmd, s.drop, s.syncfix]

/-- Every bit of STATUS: the code of STATE, the flags, the code of BADCODE, zeros. -/
theorem status_getLsbD (s : State) {i : Nat} (hi : i < 32) :
    s.status.getLsbD i =
      if i < 3 then s.state.code.getLsbD i
      else if i < 12 then s.flags.getD (i - 3) false
      else s.badcode.code.getLsbD (i - 12) := by
  unfold State.status
  show BitVec.getLsbD (w := 16 + 4 + 1 + 1 + 1 + 1 + 1 + 1 + 1 + 1 + 1 + 3) _ i = _
  simp only [BitVec.getLsbD_append, BitVec.getLsbD_ofBool]
  interval_cases i <;> simp [State.flags]

theorem status_state (s : State) : s.status.extractLsb' 0 3 = s.state.code := by
  ext i hi
  rw [BitVec.getElem_extractLsb', status_getLsbD s (by omega), if_pos (by omega), Nat.zero_add,
    BitVec.getLsbD_eq_getElem]

theorem status_badcode (s : State) : s.status.extractLsb' 12 4 = s.badcode.code := by
  ext i hi
  rw [BitVec.getElem_extractLsb', status_getLsbD s (by omega), if_neg (by omega), if_neg (by omega),
    Nat.add_sub_cancel_left, BitVec.getLsbD_eq_getElem]

theorem status_reserved (s : State) : s.status.extractLsb' 16 16 = 0#16 := by
  ext i hi
  rw [BitVec.getElem_extractLsb', status_getLsbD s (by omega), if_neg (by omega), if_neg (by omega),
    BitVec.getLsbD_of_ge _ _ (by omega), BitVec.getElem_zero]

/-- The flag at bit `3 + j` of STATUS. -/
theorem status_flag (s : State) (j : Nat) (hj : j < 9) : s.status.getLsbD (3 + j) = s.flags.getD j false := by
  rw [status_getLsbD s (by omega), if_neg (by omega), if_pos (by omega), Nat.add_sub_cancel_left]

/-- `BUSY` is 1 exactly in the four states of an operation in progress (10_state.md R35). -/
theorem busy_iff (s : State) :
    s.busy = true ↔ s.state = .acq ∨ s.state = .align ∨ s.state = .demod ∨ s.state = .emit := by
  unfold State.busy
  split <;> simp_all

/-- After reset no flag is set: no block is held, and a chunk is not empty. -/
theorem flags_resetOf {p : Params} (h : p.ChunkOk) : (State.resetOf p).flags = List.replicate 9 false := by
  have hvalid : (State.resetOf p).blkvalid = false := decide_eq_false (Nat.lt_irrefl _)
  have hready : (State.resetOf p).chunkrdy = false := decide_eq_false (Nat.not_le.mpr h.1)
  rw [State.flags, hvalid, hready]
  rfl

theorem status_resetOf {p : Params} (h : p.ChunkOk) : (State.resetOf p).status = 0#32 := by
  refine BitVec.eq_of_getLsbD_eq fun i hi => ?_
  rw [status_getLsbD _ hi, flags_resetOf h, resetOf_state, resetOf_badcode]
  split
  · simp [SeqState.code]
  · split
    · rw [List.getD_replicate _ (by omega), BitVec.getLsbD_zero]
    · simp [BadCode.code]

/-- Settles O16: each field is the part of STATUS that holds it, and the flags BUSY, BLKVALID and CHUNKRDY are the
conditions the rule gives. -/
theorem statusRegisterFields : Obligations.StatusRegisterFields := by
  refine ⟨fun s => ?_, fun _ _ => rfl, fun p hp => status_resetOf hp.chunk⟩
  have hread : s.hostReadValue 0x04#8 = s.status := rfl
  simp only [hread]
  refine ⟨?_, status_flag s 0 (by decide), ?_, ?_, ?_, status_flag s 4 (by decide), status_flag s 5 (by decide),
    status_flag s 6 (by decide), status_flag s 7 (by decide), status_flag s 8 (by decide), ?_, status_reserved s⟩
  · rw [status_state]
    cases s.state <;> rfl
  · rw [status_flag s 1 (by decide)]
    exact busy_iff s
  · rw [status_flag s 2 (by decide)]
    exact decide_eq_true_iff
  · rw [status_flag s 3 (by decide)]
    exact decide_eq_true_iff
  · rw [status_badcode]
    cases s.badcode <;> rfl

/-! ## IE -/

/-- Storing the three enables and reading them back masks the value with `0x700`. -/
theorem ieReg_ieOf (v : Word) : 0#21 ++ ieOf v ++ 0#8 = v &&& 0x00000700#32 := by
  refine BitVec.eq_of_getLsbD_eq fun i hi => ?_
  unfold ieOf
  show BitVec.getLsbD (w := 21 + 3 + 8) _ i = _
  simp only [BitVec.getLsbD_append]
  interval_cases i <;> simp

theorem ieReg_resetOf (p : Params) : (State.resetOf p).ieReg = 0#32 := by
  rw [State.ieReg, resetOf_ie]
  decide

/-- Settles O17. -/
theorem interruptEnablesKeepThreeBits : Obligations.InterruptEnablesKeepThreeBits := by
  refine ⟨fun s v => ⟨{ s with ie := ieOf v }, rfl, rfl, ieReg_ieOf v, ?_, ?_, ?_⟩, fun p => ieReg_resetOf p⟩ <;>
    simp [ieOf]

/-! ## The element registers -/

/-- After reset RESULT, LASTBAD and the counters read 0: the registers at offsets `0x14` to `0x28`. -/
theorem readReg_resetOf {r : Reg} (hlo : 0x10 < r.offset) (hhi : r.offset < 0x2C) (p : Params) :
    (State.resetOf p).readReg r = 0#32 := by
  cases r with
  | result | lastbad | blkCnt | fixCnt | sentCnt | dropCnt => rfl
  | _ => exfalso; revert hlo hhi; decide

/-- Settles O18: the bounds on the parameters keep FILL and CUR below `2^32`, and the map gives offsets `0x0C` to `0x2B`
to the eight element registers alone. -/
theorem elementRegistersReadTheirElement : Obligations.ElementRegistersReadTheirElement := by
  refine ⟨fun s h => ⟨?_, ?_, rfl, rfl, rfl, rfl, rfl, rfl⟩, fun s v off hlo hhi => ?_, fun p hp => ⟨rfl, ?_, ?_⟩⟩
  · have hle := h.fillLe
    have hcap := h.params.accCap.2
    exact Nat.mod_eq_of_lt (by omega)
  · have hle := h.curLe
    have hblock := h.params.blockWords.2.2
    exact Nat.mod_eq_of_lt (by omega)
  · exact hostWrite_ignored (regAt_ne (Nat.le_trans (by decide) hlo)) (regAt_ne (Nat.le_trans (by decide) hlo)) v s
  · have hblock := hp.blockWords.2.2
    exact Nat.mod_eq_of_lt (show p.blockWords < 2 ^ 32 by omega)
  · intro off hlo hhi
    cases hr : regAt off with
    | none => exact hostReadValue_unmapped hr _
    | some r =>
      obtain ⟨hle, hlt⟩ := offset_of_regAt hr
      rw [hostReadValue_eq hr]
      exact readReg_resetOf (by omega) (by omega) p

end Sys2Proof.Machine
end

section
/-! PROOF. No step writes the parameters, so the configuration registers are constant (10_state.md R20,
R38). -/

namespace Sys2Proof.Machine

open Sys2Proof

/-! ## A command is its acceptance and its rule -/

/-- What a command does once it is accepted (44_sequencer_control.md R170: "then the command's own rule"). -/
def commandRule : Instr → State → Except Fault State
  | .nop, s => .ok s
  | .acq, s => .ok (startRequest .acq s)
  | .align, s => syncAlign s
  | .demod n, s => demodulate n s
  | .emit, s => startFraming .emit s
  | .drain, s => startFraming .drain s
  | .cycle, s => .ok (startRequest .cycle s)
  | .run, s => .ok { startRequest .run s with run := true }
  | .tlook h, s => .ok { s with result := (symtab s.params h).setWidth 32 }
  | .clrst, s => .ok (clearSticky s)
  | .srst, s => .ok (softReset s)

theorem exec_eq_accept (i : Instr) (s : State) : exec i s = toOutcome (accept i s (commandRule i s)) := by
  cases i <;> rfl

theorem exec_eq_next {i : Instr} {s t : State} : exec i s = .next t ↔ accept i s (commandRule i s) = .ok t := by
  rw [exec_eq_accept, toOutcome_eq_next]

/-! ## The shared rules keep the parameters -/

theorem syncAlign_params {s t : State} (h : syncAlign s = .ok t) : t.params = s.params := by rw [syncAlign_frame h]

theorem demodulate_params {n : Nat} {s t : State} (h : demodulate n s = .ok t) : t.params = s.params := by
  rw [demodulate_frame h]

theorem frame_params {s t : State} (h : frame s = .ok t) : t.params = s.params := by rw [frame_frame h]

theorem startFraming_params {op : SeqOp} {s t : State} (h : startFraming op s = .ok t) : t.params = s.params := by
  unfold startFraming at h
  split at h
  · cases h; rfl
  · exact frame_params (s := { s with seqOp := op }) h

theorem frameOrEnd_params {s t : State} (h : frameOrEnd s = .ok t) : t.params = s.params := by
  unfold frameOrEnd at h
  split at h
  · exact frame_params h
  · cases h; exact endCycle_params s

/-! ## Every move keeps the parameters -/

theorem commandRule_params {i : Instr} {s t : State} (h : commandRule i s = .ok t) : t.params = s.params := by
  cases i with
  | align => exact syncAlign_params h
  | demod n => exact demodulate_params h
  | emit | drain => exact startFraming_params h
  | nop | acq | cycle | run | tlook | clrst | srst => cases h; rfl

/-- A refusal only records, so a command keeps the parameters whether it is accepted or not. -/
theorem exec_params {i : Instr} {s t : State} (h : exec i s = .next t) : t.params = s.params := by
  rcases accept_cases (exec_eq_next.mp h) with ⟨hrule, -⟩ | ⟨-, -, rfl⟩ | ⟨-, -, -, rfl⟩
  · exact commandRule_params hrule
  · rfl
  · rfl

theorem hostWrite_params {off : BitVec 8} {v : Word} {s t : State} (h : hostWrite off v s = .next t) :
    t.params = s.params := by
  rcases hostWrite_cases h with ⟨-, e, -, rfl⟩ | ⟨-, i, -, hexec⟩ | ⟨-, e, rfl⟩
  · rfl
  · exact exec_params hexec
  · rfl

theorem deliver_params {ws : List Word} {s t : State} (h : deliver ws s = .next t) : t.params = s.params := by
  unfold deliver at h
  split at h
  · cases h
  · split at h
    · cases h
    · cases h; exact afterDelivery_params _

theorem acqFault_params {s t : State} (h : acqFault s = .next t) : t.params = s.params := by
  unfold acqFault at h
  split at h
  · cases h
  · cases h; rfl

theorem afterAnswer_params {s t : State} (h : afterAnswer s = .ok t) : t.params = s.params := by
  unfold afterAnswer at h
  split at h
  · cases h; rfl
  · exact frameOrEnd_params h

theorem sinkAnswer_params {r : SinkAnswer} {s t : State} (h : sinkAnswer r s = .next t) : t.params = s.params := by
  unfold sinkAnswer at h
  split at h
  · cases h
  · exact (afterAnswer_params (toOutcome_eq_next.mp h)).trans (recordAnswer_params r s)

theorem alignStep_params {s t : State} (h : alignStep s = .ok t) : t.params = s.params := by
  unfold alignStep at h
  split at h
  · cases h
  · rename_i s' hsync
    cases h
    exact (syncAlign_params hsync :)

theorem demodStep_params {s t : State} (h : demodStep s = .ok t) : t.params = s.params := by
  unfold demodStep at h
  split at h
  · cases h
  · rename_i s' hdemod
    exact (frameOrEnd_params h).trans (demodulate_params hdemod)

theorem sequencerStep_params {s t : State} (h : sequencerStep s = .next t) : t.params = s.params := by
  unfold sequencerStep at h
  split at h
  · exact alignStep_params (toOutcome_eq_next.mp h)
  · exact demodStep_params (toOutcome_eq_next.mp h)
  all_goals cases h

theorem takeMove_params {m : Move} {s t : State} (h : takeMove m s = .next t) : t.params = s.params := by
  cases m with
  | hostWrite off v => exact hostWrite_params h
  | hostRead off => cases h; rfl
  | deliver ws => exact deliver_params h
  | acqFault => exact acqFault_params h
  | sinkAnswer r => exact sinkAnswer_params h
  | sequencer => exact sequencerStep_params h
  | resetInput => cases h; rfl

theorem step_params {s t : State} (h : step s = .next t) : t.params = s.params :=
  (takeMove_params h).trans (advance_params s)

/-- Settles O47: every move of every agent keeps the parameters, and so does taking it off the agenda. -/
theorem noStepWritesTheParameters : Obligations.NoStepWritesTheParameters := fun _ _ => step_params

/-! ## The configuration registers -/

/-- What a configuration register reads depends on the parameters only. -/
theorem readReg_config {r : Reg} (hr : 0x28 < r.offset) {s t : State} (hp : t.params = s.params) :
    t.readReg r = s.readReg r := by
  cases r with
  | cfgChunk | cfgBlock | cfgAccCap | cfgSync | cfgHdr0 | cfgHdr1 => simp only [State.readReg, hp]
  | _ => exfalso; revert hr; decide

/-- The four bytes of a word written as their concatenation, as in CFG_HDR0. -/
theorem bytes_of_append (b3 b2 b1 b0 : Byte) :
    (b3 ++ b2 ++ b1 ++ b0).extractLsb' 0 8 = b0 ∧ (b3 ++ b2 ++ b1 ++ b0).extractLsb' 8 8 = b1 ∧
      (b3 ++ b2 ++ b1 ++ b0).extractLsb' 16 8 = b2 ∧ (b3 ++ b2 ++ b1 ++ b0).extractLsb' 24 8 = b3 := by
  simp (disch := omega) only [BitVec.extractLsb'_append_eq_of_le, BitVec.extractLsb'_append_eq_of_add_le, Nat.reduceSub,
    BitVec.extractLsb'_eq_self, and_self]

/-- The four fields of a word laid out as CFG_SYNC is. -/
theorem fields_of_sync (phase : BitVec 1) (flip : Byte) (offset : Half) :
    (0#7 ++ phase ++ flip ++ offset).extractLsb' 0 16 = offset ∧
      (0#7 ++ phase ++ flip ++ offset).extractLsb' 16 8 = flip ∧
      (0#7 ++ phase ++ flip ++ offset).extractLsb' 24 1 = phase ∧
      (0#7 ++ phase ++ flip ++ offset).extractLsb' 25 7 = 0#7 := by
  simp (disch := omega) only [BitVec.extractLsb'_append_eq_of_le, BitVec.extractLsb'_append_eq_of_add_le, Nat.reduceSub,
    BitVec.extractLsb'_eq_self, and_self]

/-- The two fields of a zero-extended byte. -/
theorem fields_of_setWidth (b : Byte) :
    (b.setWidth 32).extractLsb' 0 8 = b ∧ (b.setWidth 32).extractLsb' 8 24 = 0#24 := by
  refine ⟨?_, ?_⟩ <;> ext i hi <;> rw [BitVec.getElem_extractLsb', BitVec.getLsbD_setWidth]
  · rw [Nat.zero_add, BitVec.getLsbD_eq_getElem hi, decide_eq_true (by omega), Bool.true_and]
  · rw [BitVec.getLsbD_of_ge b _ (by omega), Bool.and_false, BitVec.getElem_zero]

/-- Settles O19: the bounds on the parameters make each number fit its field; and a step keeps the parameters, on which
alone the registers from offset `0x2C` on depend. -/
theorem configurationRegistersReadTheParameters : Obligations.ConfigurationRegistersReadTheParameters := by
  refine ⟨fun s hp => ?_, fun s t off hlo hhi h => ?_⟩
  · obtain ⟨hoffset, hflip, hphase, hzero⟩ :=
      fields_of_sync (BitVec.ofNat 1 s.params.dataPhase.val) s.params.syncFlip (BitVec.ofNat 16 s.params.syncOffset)
    obtain ⟨h0, h1, h2, h3⟩ := bytes_of_append s.params.hdr.b3 s.params.hdr.b2 s.params.hdr.b1 s.params.hdr.b0
    obtain ⟨h4, h4zero⟩ := fields_of_setWidth s.params.hdr.b4
    have hchunk := hp.chunk.2
    have hblock := hp.blockWords.2.2
    have hcap := hp.accCap.2
    have hsync := hp.syncOffset.2
    refine ⟨Nat.mod_eq_of_lt (by omega), Nat.mod_eq_of_lt (by omega), Nat.mod_eq_of_lt hcap,
      (congrArg BitVec.toNat hoffset).trans (Nat.mod_eq_of_lt (by omega)), hflip,
      (congrArg BitVec.toNat hphase).trans (Nat.mod_eq_of_lt s.params.dataPhase.isLt), hzero, h0, h1, h2, h3, h4, h4zero⟩
  · cases hr : regAt off with
    | none => rw [hostReadValue_unmapped hr, hostReadValue_unmapped hr]
    | some r =>
      obtain ⟨-, hlt⟩ := offset_of_regAt hr
      rw [hostReadValue_eq hr, hostReadValue_eq hr]
      exact readReg_config (by omega) (step_params h)

end Sys2Proof.Machine
end

section
/-! PROOF. The counters, SYNCFIX and the value a host read returned steer nothing: a step from a state that differs in
them only is the same step (10_state.md R29, R31; log 7). -/

namespace Sys2Proof.Machine

open Sys2Proof

/-! ## What no rule reads -/

/-- The elements that no rule reads: the four counters, SYNCFIX, and the model's own `rdata`. -/
structure Tallies where
  blkCnt : Word
  fixCnt : Word
  sentCnt : Word
  dropCnt : Word
  syncfix : Bool
  rdata : Word

/-- The tallies right after reset (10_state.md R39), `rdata` kept (log 11). -/
def Tallies.reset (c : Tallies) : Tallies :=
  { blkCnt := 0#32, fixCnt := 0#32, sentCnt := 0#32, dropCnt := 0#32, syncfix := false, rdata := c.rdata }

/-- The state with other values of the elements that no rule reads. -/
def State.withTallies (s : State) (c : Tallies) : State :=
  { s with
    blkCnt := c.blkCnt
    fixCnt := c.fixCnt
    sentCnt := c.sentCnt
    dropCnt := c.dropCnt
    syncfix := c.syncfix
    rdata := c.rdata }

@[simp] theorem withTallies_seqOp (s : State) (c : Tallies) : (s.withTallies c).seqOp = s.seqOp := rfl
@[simp] theorem withTallies_cur (s : State) (c : Tallies) : (s.withTallies c).cur = s.cur := rfl
@[simp] theorem withTallies_fill (s : State) (c : Tallies) : (s.withTallies c).fill = s.fill := rfl
@[simp] theorem withTallies_params (s : State) (c : Tallies) : (s.withTallies c).params = s.params := rfl
@[simp] theorem withTallies_agenda (s : State) (c : Tallies) : (s.withTallies c).agenda = s.agenda := rfl

@[simp] theorem withTallies_demodCount (s : State) (c : Tallies) (n : Nat) :
    (s.withTallies c).demodCount n = s.demodCount n := rfl

@[simp] theorem withTallies_clampOf (s : State) (c : Tallies) (n : Nat) :
    (s.withTallies c).clampOf n = s.clampOf n := rfl

/-! ## The accesses and the datapath carry the tallies along -/

section

variable (s : State) (c : Tallies)

theorem readByte_withTallies (sp : Space) (a : Nat) : readByte (s.withTallies c) sp a = readByte s sp a := by
  cases sp <;> rfl

theorem writeByte_withTallies (sp : Space) (a : Nat) (b : Byte) :
    writeByte (s.withTallies c) sp a b = (writeByte s sp a b).map (·.withTallies c) := by
  have hmem : (s.withTallies c).setMem sp (((s.withTallies c).mem sp).write a b) =
      (s.setMem sp ((s.mem sp).write a b)).withTallies c := by cases sp <;> rfl
  unfold writeByte
  rw [hmem]
  split
  · rw [if_pos (by assumption)]; rfl
  · rw [if_neg (by assumption)]; rfl

theorem loadBytes_withTallies (sp : Space) (a n : Nat) : loadBytes (s.withTallies c) sp a n = loadBytes s sp a n := by
  induction n generalizing a with
  | zero => rfl
  | succ n ih => simp only [loadBytes, readByte_withTallies, ih]

theorem storeBytes_withTallies (sp : Space) (a : Nat) (bs : List Byte) :
    storeBytes (s.withTallies c) sp a bs = (storeBytes s sp a bs).map (·.withTallies c) := by
  induction bs generalizing s a with
  | nil => rfl
  | cons b bs ih =>
    simp only [storeBytes, writeByte_withTallies]
    cases writeByte s sp a b with
    | error f => rfl
    | ok s' => exact ih s' (a + 1)

theorem readRawWord_withTallies (i : Nat) : readRawWord (s.withTallies c) i = readRawWord s i := by
  simp only [readRawWord, loadBytes_withTallies]

theorem demodPair_withTallies : demodPair (s.withTallies c) = (demodPair s).map (·.withTallies c) := by
  simp only [demodPair, readRawWord_withTallies, storeBytes_withTallies, withTallies_params, withTallies_cur,
    withTallies_fill]
  cases readRawWord s (dataIndex s.params s.cur) with
  | error f => rfl
  | ok w =>
    dsimp only
    cases storeBytes s .acc s.fill _ with
    | error f => rfl
    | ok s' => rfl

theorem demodPairs_withTallies (m : Nat) :
    demodPairs m (s.withTallies c) = (demodPairs m s).map (·.withTallies c) := by
  induction m generalizing s with
  | zero => rfl
  | succ m ih =>
    simp only [demodPairs, demodPair_withTallies]
    cases demodPair s with
    | error f => rfl
    | ok s' => exact ih s'

theorem demodulate_withTallies (n : Nat) :
    demodulate n (s.withTallies c) = (demodulate n s).map (·.withTallies c) := by
  simp only [demodulate, demodPairs_withTallies, withTallies_demodCount, withTallies_clampOf]
  cases demodPairs (s.demodCount n) s with
  | error f => rfl
  | ok s' => rfl

theorem frame_withTallies : frame (s.withTallies c) = (frame s).map (·.withTallies c) := by
  simp only [frame, loadBytes_withTallies, storeBytes_withTallies, withTallies_params, withTallies_fill]
  cases loadBytes s .acc 0 s.params.chunk with
  | error f => rfl
  | ok chunk =>
    dsimp only
    cases loadBytes s .acc s.params.chunk (s.fill - s.params.chunk) with
    | error f => rfl
    | ok rest =>
      dsimp only
      cases storeBytes s .pay 0 (s.params.hdr.bytes ++ chunk) with
      | error f => rfl
      | ok s1 =>
        simp only [Except.map, storeBytes_withTallies]
        cases storeBytes s1 .acc 0 rest with
        | error f => rfl
        | ok s2 => rfl

theorem startFraming_withTallies (op : SeqOp) :
    startFraming op (s.withTallies c) = (startFraming op s).map (·.withTallies c) := by
  unfold startFraming
  rw [apply_ite (Except.map fun t : State => t.withTallies c)]
  exact if_congr Iff.rfl rfl (frame_withTallies { s with seqOp := op } c)

theorem endCycle_withTallies : endCycle (s.withTallies c) = (endCycle s).withTallies c := by
  unfold endCycle
  rw [apply_ite fun t : State => t.withTallies c]
  exact if_congr Iff.rfl rfl rfl

theorem frameOrEnd_withTallies : frameOrEnd (s.withTallies c) = (frameOrEnd s).map (·.withTallies c) := by
  unfold frameOrEnd
  rw [apply_ite (Except.map fun t : State => t.withTallies c)]
  exact if_congr Iff.rfl (frame_withTallies s c) (congrArg Except.ok (endCycle_withTallies s c))

theorem afterAnswer_withTallies : afterAnswer (s.withTallies c) = (afterAnswer s).map (·.withTallies c) := by
  unfold afterAnswer
  rw [apply_ite (Except.map fun t : State => t.withTallies c)]
  exact if_congr Iff.rfl rfl (frameOrEnd_withTallies s c)

theorem demodStep_withTallies : demodStep (s.withTallies c) = (demodStep s).map (·.withTallies c) := by
  simp only [demodStep, demodulate_withTallies, withTallies_params]
  cases demodulate s.params.blockWords s with
  | error f => rfl
  | ok s' => exact frameOrEnd_withTallies s' c

theorem afterDelivery_withTallies : afterDelivery (s.withTallies c) = (afterDelivery s).withTallies c := by
  unfold afterDelivery
  rw [apply_ite fun t : State => t.withTallies c]
  exact if_congr Iff.rfl rfl rfl

theorem advance_withTallies : (s.withTallies c).advance = s.advance.withTallies c := by
  simp only [State.advance, withTallies_agenda]
  cases s.agenda <;> rfl

end

/-! ## The rules that count: the same step, with other tallies -/

/-- Where the aligner finds a block that is not exhausted, it has read the sync byte. -/
theorem syncAlign_reads {s t : State} (hc : s.cur ≠ s.params.blockWords) (h : syncAlign s = .ok t) :
    ∃ b, s.params.syncOffset < s.params.rawBytes ∧ s.raw.read s.params.syncOffset = some b := by
  unfold syncAlign at h
  rw [if_neg hc] at h
  split at h
  · cases h
  · rename_i b hread
    exact ⟨b, readByte_eq_ok.mp hread⟩

theorem syncAlign_withTallies {s t : State} (c : Tallies) (h : syncAlign s = .ok t) :
    ∃ c', syncAlign (s.withTallies c) = .ok (t.withTallies c') := by
  by_cases hc : s.cur = s.params.blockWords
  · rw [syncAlign_exhausted hc] at h
    cases h
    exact ⟨{ c with syncfix := false }, syncAlign_exhausted (s := s.withTallies c) hc⟩
  · obtain ⟨b, ho, hb⟩ := syncAlign_reads hc h
    rw [syncAlign_spec hc ho hb] at h
    rw [syncAlign_spec (s := s.withTallies c) hc ho hb]
    by_cases hflip : b &&& s.params.syncFlip = s.params.syncFlip
    · rw [if_pos hflip] at h
      cases h
      exact ⟨{ c with syncfix := true, fixCnt := c.fixCnt + 1 }, congrArg Except.ok (if_pos hflip)⟩
    · rw [if_neg hflip] at h
      cases h
      exact ⟨{ c with syncfix := false }, congrArg Except.ok (if_neg hflip)⟩

theorem alignStep_withTallies {s t : State} (c : Tallies) (h : alignStep s = .ok t) :
    ∃ c', alignStep (s.withTallies c) = .ok (t.withTallies c') := by
  unfold alignStep at h
  split at h
  · cases h
  · rename_i s' hsync
    cases h
    obtain ⟨c', hc'⟩ := syncAlign_withTallies c hsync
    exact ⟨c', by rw [alignStep, hc']; rfl⟩

theorem recordAnswer_withTallies (r : SinkAnswer) (s : State) (c : Tallies) :
    ∃ c', recordAnswer r (s.withTallies c) = (recordAnswer r s).withTallies c' := by
  cases r with
  | ok => exact ⟨{ c with sentCnt := c.sentCnt + 1 }, rfl⟩
  | error => exact ⟨{ c with dropCnt := c.dropCnt + 1 }, rfl⟩

theorem commandRule_withTallies {i : Instr} {s t : State} (c : Tallies) (h : commandRule i s = .ok t) :
    ∃ c', commandRule i (s.withTallies c) = .ok (t.withTallies c') := by
  cases i with
  | align => exact syncAlign_withTallies c h
  | demod n => exact ⟨c, (demodulate_withTallies s c n).trans (congrArg _ h)⟩
  | emit | drain => exact ⟨c, (startFraming_withTallies s c _).trans (congrArg _ h)⟩
  | srst => cases h; exact ⟨c.reset, rfl⟩
  | nop | acq | cycle | run | tlook | clrst => cases h; exact ⟨c, rfl⟩

/-! ## Every move -/

theorem exec_withTallies {i : Instr} {s t : State} (c : Tallies) (h : exec i s = .next t) :
    ∃ c', exec i (s.withTallies c) = .next (t.withTallies c') := by
  simp only [exec_eq_next] at h ⊢
  rcases accept_cases h with ⟨hrule, hi | hready⟩ | ⟨hi, hf, rfl⟩ | ⟨hi, hf, hb, rfl⟩
  · obtain ⟨c', hc'⟩ := commandRule_withTallies c hrule
    exact ⟨c', (accept_always hi _ _).trans hc'⟩
  · obtain ⟨c', hc'⟩ := commandRule_withTallies c hrule
    exact ⟨c', (accept_ready (s := s.withTallies c) hready _ _).trans hc'⟩
  · exact ⟨c, accept_faulted (s := s.withTallies c) hi hf _⟩
  · exact ⟨c, accept_busy (s := s.withTallies c) hi hf hb _⟩

theorem hostWrite_withTallies {off : BitVec 8} {v : Word} {s t : State} (c : Tallies)
    (h : hostWrite off v s = .next t) : ∃ c', hostWrite off v (s.withTallies c) = .next (t.withTallies c') := by
  unfold hostWrite at h ⊢
  split at h
  · unfold command at h ⊢
    split at h
    · cases h; exact ⟨c, rfl⟩
    · exact exec_withTallies c h
  · cases h; exact ⟨c, rfl⟩
  · cases h; exact ⟨c, rfl⟩

theorem deliver_withTallies {ws : List Word} {s t : State} (c : Tallies) (h : deliver ws s = .next t) :
    ∃ c', deliver ws (s.withTallies c) = .next (t.withTallies c') := by
  unfold deliver at h
  split at h
  · cases h
  · rename_i hreq
    split at h
    · cases h
    · rename_i hlen
      cases h
      refine ⟨{ c with blkCnt := c.blkCnt + 1 }, ?_⟩
      rw [← afterDelivery_withTallies]
      exact (if_neg hreq).trans (if_neg hlen)

theorem acqFault_withTallies {s t : State} (c : Tallies) (h : acqFault s = .next t) :
    ∃ c', acqFault (s.withTallies c) = .next (t.withTallies c') := by
  unfold acqFault at h
  split at h
  · cases h
  · rename_i hreq
    cases h
    exact ⟨c, if_neg hreq⟩

theorem sinkAnswer_withTallies {r : SinkAnswer} {s t : State} (c : Tallies) (h : sinkAnswer r s = .next t) :
    ∃ c', sinkAnswer r (s.withTallies c) = .next (t.withTallies c') := by
  unfold sinkAnswer at h
  split at h
  · cases h
  · rename_i hreq
    obtain ⟨c', hc'⟩ := recordAnswer_withTallies r s c
    refine ⟨c', (if_neg hreq).trans ?_⟩
    rw [hc', toOutcome_eq_next, afterAnswer_withTallies, toOutcome_eq_next.mp h]
    rfl

theorem sequencerStep_withTallies {s t : State} (c : Tallies) (h : sequencerStep s = .next t) :
    ∃ c', sequencerStep (s.withTallies c) = .next (t.withTallies c') := by
  unfold sequencerStep at h
  split at h
  · rename_i hs
    obtain ⟨c', hc'⟩ := alignStep_withTallies c (toOutcome_eq_next.mp h)
    exact ⟨c', (sequencerStep_align (s := s.withTallies c) hs).trans (congrArg toOutcome hc')⟩
  · rename_i hs
    refine ⟨c, (sequencerStep_demod (s := s.withTallies c) hs).trans ?_⟩
    rw [demodStep_withTallies, toOutcome_eq_next.mp h]
    rfl
  all_goals cases h

theorem takeMove_withTallies {m : Move} {s t : State} (c : Tallies) (h : takeMove m s = .next t) :
    ∃ c', takeMove m (s.withTallies c) = .next (t.withTallies c') := by
  cases m with
  | hostWrite off v => exact hostWrite_withTallies c h
  | hostRead off => cases h; exact ⟨{ c with rdata := (s.withTallies c).hostReadValue off }, rfl⟩
  | deliver ws => exact deliver_withTallies c h
  | acqFault => exact acqFault_withTallies c h
  | sinkAnswer r => exact sinkAnswer_withTallies c h
  | sequencer => exact sequencerStep_withTallies c h
  | resetInput => cases h; exact ⟨c.reset, rfl⟩

theorem step_withTallies {s t : State} (c : Tallies) (h : step s = .next t) :
    ∃ c', step (s.withTallies c) = .next (t.withTallies c') := by
  obtain ⟨c', hc'⟩ := takeMove_withTallies c h
  exact ⟨c', by rw [step, advance_withTallies]; exact hc'⟩

/-- Settles O52: the step from other tallies is the same step, to other tallies. -/
theorem countersSteerNothing : Obligations.CountersSteerNothing := by
  intro s t b f n d x h
  obtain ⟨c', hc'⟩ := step_withTallies
    { blkCnt := b, fixCnt := f, sentCnt := n, dropCnt := d, syncfix := x, rdata := s.rdata } h
  exact ⟨c'.blkCnt, c'.fixCnt, c'.sentCnt, c'.dropCnt, c'.rdata, c'.syncfix, hc'⟩

end Sys2Proof.Machine
end

section
/-! PROOF. A placed command runs in one step; reset gives every element its value and meets the invariant (10_state.md
R34, R39, R40). -/

namespace Sys2Proof.Machine

open Sys2Proof

/-! ## A placed command -/

/-- CMD answers at the offsets whose bits 7:2 are 0. -/
theorem regAt_cmd {off : BitVec 8} (h : off &&& 0xFC#8 = 0#8) : regAt off = some .cmd := by
  unfold regAt
  rw [h]
  rfl

theorem hostWrite_command {off : BitVec 8} {v : Word} {i : Instr} (hr : regAt off = some .cmd) (hd : decode v = .ok i)
    (s : State) : hostWrite off v s = exec i s := by
  simp only [hostWrite, hr, command, hd]

/-- Settles O5: the placed move is a host write to CMD, which runs the command it decodes to. -/
theorem stepRunsTheDecodedCommand : Obligations.StepRunsTheDecodedCommand := by
  intro s off c rest i hagenda hoff hdecode
  calc step s = takeMove (.hostWrite off c) { s with agenda := rest } := step_placed hagenda
    _ = hostWrite off c { s with agenda := rest } := rfl
    _ = exec i { s with agenda := rest } := hostWrite_command (regAt_cmd hoff) hdecode _

/-! ## Reset -/

theorem exec_srst (s : State) : exec .srst s = .next (softReset s) := rfl

theorem takeMove_resetInput (s : State) : takeMove .resetInput s = .next (softReset s) := rfl

/-- After reset no byte of any memory holds a value. -/
theorem read_softReset (s : State) (sp : Space) (a : Nat) : ((softReset s).mem sp).read a = none := by
  cases sp <;> rfl

/-- Settles O24: SRST and the reset input both lead to `softReset`, the table of R39. -/
theorem resetGivesEveryElementItsValue : Obligations.ResetGivesEveryElementItsValue := fun s =>
  ⟨(exec_srst s).trans (takeMove_resetInput s).symm, softReset s, exec_srst s, rfl, rfl, rfl, rfl, read_softReset s⟩

/-! ## The invariant at reset -/

/-- After reset the buffers are empty and the block is exhausted; CUR is even as `BLOCK_WORDS` is. -/
theorem resetOf_dataInv {p : Params} (h : p.Wf) : (State.resetOf p).DataInv where
  params := h
  raw := .inr ⟨rfl, rfl⟩
  curLe := Nat.le_refl _
  curEven := h.blockWords.1
  acc := Memory.whole_nil
  fillLe := Nat.zero_le _
  pay := .inl rfl

/-- After reset the sequencer is idle and no flag is set, whatever the parameters. -/
theorem resetOf_ctrlInv (p : Params) : (State.resetOf p).CtrlInv := by
  constructor <;> simp

theorem resetOf_inv {p : Params} (h : p.Wf) : (State.resetOf p).Inv :=
  ⟨resetOf_dataInv h, resetOf_ctrlInv p⟩

/-- The reference table inverts the line code (40_symbol_table.md R101), over the 512 pairs of a byte and a level. -/
theorem refSymtab_enc : ∀ (v : Byte) (L : Bool), refSymtab (enc v L).1 = v := by decide

/-- Parameters that patch no entry of the reference table have an admissible one. -/
theorem symtabOk_of_no_patch {p : Params} (h : p.symtab = []) : p.SymtabOk := by
  intro v L
  rw [symtab, h]
  exact refSymtab_enc v L

/-- The parameters of log 1 are admissible. -/
theorem wf_tc1 : Config.tc1.Wf where
  blockWords := by decide
  chunk := by decide
  accCap := by decide
  syncOffset := by decide
  syncFlip := by decide
  symtab := symtabOk_of_no_patch rfl

/-- Settles O45. -/
theorem resetMeetsTheInvariant : Obligations.ResetMeetsTheInvariant := ⟨fun _ => resetOf_inv, resetOf_inv wf_tc1⟩

end Sys2Proof.Machine
end

section
/-! PROOF. Memory as the block and the host see it: the little-endian byte view of the raw block (20_memory.md R53) and
the word-aligned register port (20_memory.md R57). -/

namespace Sys2Proof.Machine

open Sys2Proof

/-! ## The byte view of the raw block -/

/-- Byte `j` of word `i` of the raw block is the byte at address `4*i + j`. -/
theorem rawWord_byte (s : State) (i : Nat) {j : Nat} (hj : j < 4) :
    (s.rawWord i).extractLsb' (8 * j) 8 = (s.raw.read (4 * i + j)).getD 0 := by
  obtain ⟨h0, h1, h2, h3⟩ := bytes_of_append ((s.raw.read (4 * i + 3)).getD 0) ((s.raw.read (4 * i + 2)).getD 0)
    ((s.raw.read (4 * i + 1)).getD 0) ((s.raw.read (4 * i)).getD 0)
  match j, hj with
  | 0, _ => exact h0
  | 1, _ => exact h1
  | 2, _ => exact h2
  | 3, _ => exact h3

/-- A block with pairs left is held, as one run of `4*BLOCK_WORDS` bytes. -/
theorem rawBlock_held {s : State} (h : s.DataInv) (hc : s.cur < s.params.blockWords) :
    ∃ bs : List Byte, s.raw = Memory.ofBytes 0 bs ∧ bs.length = 4 * s.params.blockWords := by
  obtain ⟨_, -, -, hwhole⟩ := syncByte_held h (Nat.ne_of_lt hc)
  exact hwhole.exists_bytes

/-- Settles O39: address `k` is byte `k mod 4` of word `k div 4`, and a held block has a value there. -/
theorem rawByteViewIsLittleEndian : Obligations.RawByteViewIsLittleEndian := by
  intro s h hc
  obtain ⟨bs, hraw, hlen⟩ := rawBlock_held h.toDataInv hc
  refine ⟨fun k hk => ?_, fun i hi => ?_⟩
  · have hread : s.raw.read k = some bs[k] := by
      rw [hraw, Memory.read_ofBytes_zero, List.getElem?_eq_getElem]
    rw [rawWord_byte s _ (Nat.mod_lt k (by decide)), Nat.div_add_mod, hread, Option.getD_some]
  · have hend : 4 * i + 4 ≤ 4 * s.params.blockWords := by omega
    exact readRawWord_whole hraw (hlen ▸ hend) hend

/-! ## The host port -/

/-- Which register answers does not depend on bits 1:0 of the offset. -/
theorem regAt_wordOffset (off : BitVec 8) : regAt (off &&& 0xFC#8) = regAt off := by
  rw [regAt, regAt, BitVec.and_assoc, BitVec.and_self]

/-- The offset with bits 1:0 cleared is the offset of the register that answers. -/
theorem wordOffset_of_regAt {off : BitVec 8} {r : Reg} (h : regAt off = some r) :
    off &&& 0xFC#8 = BitVec.ofNat 8 r.offset := by
  have hoff : (off &&& 0xFC#8).toNat = r.offset := by
    unfold regAt at h
    split at h <;> cases h <;> assumption
  rw [← hoff, BitVec.ofNat_toNat, BitVec.setWidth_eq]

/-- The map ends at CFG_HDR1: no register answers from offset `0x44` on (10_state.md R33). -/
theorem regAt_unmapped {off : BitVec 8} (h : 0x44 ≤ off.toNat) : regAt off = none := by
  refine Option.eq_none_iff_forall_ne_some.mpr fun r => regAt_ne (Nat.le_trans ?_ h)
  cases r <;> decide

/-- Settles O20: a host access reads its offset through `regAt` only. -/
theorem hostAccessesActOnOneRegister : Obligations.HostAccessesActOnOneRegister := by
  refine ⟨fun s off => ?_, fun s off v => ?_, fun s off h => hostReadValue_unmapped (regAt_unmapped h) s,
    fun _ _ => rfl, fun s off v hcmd hie => ?_, fun _ => rfl⟩
  · rw [State.hostReadValue, State.hostReadValue, regAt_wordOffset]
  · show hostWrite off v s = hostWrite (off &&& 0xFC#8) v s
    rw [hostWrite, hostWrite, regAt_wordOffset]
  · exact hostWrite_ignored (mt wordOffset_of_regAt hcmd) (mt wordOffset_of_regAt hie) v s

end Sys2Proof.Machine
end

section
/-! PROOF. The command word: encoder and decoder agree, and which words are no command (30_encoding.md R80 to R84,
44_sequencer_control.md R170). -/

namespace Sys2Proof

/-! ## The fields of a word -/

@[simp] theorem opcOf_encode (i : Instr) : opcOf (encode i) = i.opc := (Laws.fields_of_word i.imm i.opc).1

@[simp] theorem rsvOf_encode (i : Instr) : rsvOf (encode i) = 0#8 := (Laws.fields_of_word i.imm i.opc).2.1

@[simp] theorem immOf_encode (i : Instr) : immOf (encode i) = i.imm := (Laws.fields_of_word i.imm i.opc).2.2

/-- The three fields cover the word: no bit lies outside them. -/
theorem append_fields (c : Word) : immOf c ++ rsvOf c ++ opcOf c = c := by
  have hhigh : immOf c ++ rsvOf c = c.extractLsb' 8 24 := BitVec.extractLsb'_append_extractLsb'_eq_extractLsb' rfl
  rw [hhigh]
  exact (BitVec.extractLsb'_append_extractLsb'_eq_extractLsb' rfl).trans BitVec.extractLsb'_eq_self

theorem takesOperand_eq_false_iff {opc : Byte} : takesOperand opc = false ↔ opc ≠ 0x03#8 ∧ opc ≠ 0x08#8 := by
  simp [takesOperand]

/-! ## The opcode map -/

/-- Only DEMOD and TLOOK have an operand field other than 0. -/
theorem Instr.imm_of_no_operand {i : Instr} (h : takesOperand i.opc = false) : i.imm = 0#16 := by
  cases i with
  | demod n => cases h
  | tlook p => cases h
  | _ => rfl

/-- The opcode map finds a well-formed command under its own opcode and operand. -/
theorem instrOf_opc_imm {i : Instr} (h : i.wf = true) : instrOf i.opc i.imm = some i := by
  cases i with
  | demod n =>
    have hn : n < 2 ^ 16 := Nat.lt_succ_of_le (of_decide_eq_true h)
    show some (Instr.demod (BitVec.ofNat 16 n).toNat) = some (.demod n)
    rw [BitVec.toNat_ofNat, Nat.mod_eq_of_lt hn]
  | _ => rfl

/-- The opcode map finds a command under no opcode but its own. -/
theorem opc_of_instrOf {opc : Byte} {imm : Half} {i : Instr} (h : instrOf opc imm = some i) : i.opc = opc := by
  unfold instrOf at h
  iterate 11
    obtain ⟨rfl, ⟨⟩⟩ | ⟨-, h⟩ := ite_eq_iff.mp h
    · rfl
  cases h

/-- What the opcode map finds is well-formed, has the opcode looked up, and has the operand if it takes one. -/
theorem instrOf_eq_some {opc : Byte} {imm : Half} {i : Instr} (h : instrOf opc imm = some i) :
    i.wf = true ∧ i.opc = opc ∧ (takesOperand opc = true → i.imm = imm) := by
  obtain rfl := opc_of_instrOf h
  cases i with
  | demod n =>
    cases h
    exact ⟨decide_eq_true (Nat.le_of_lt_succ imm.isLt), rfl, fun _ => by simp [Instr.imm]⟩
  | tlook p =>
    cases h
    exact ⟨rfl, rfl, fun _ => rfl⟩
  | _ => exact ⟨rfl, rfl, nofun⟩

/-- The reserved opcodes are those from `0x0B` on. -/
theorem instrOf_eq_none_iff {opc : Byte} {imm : Half} : instrOf opc imm = none ↔ 0x0B ≤ opc.toNat := by
  simp only [instrOf, ite_eq_iff, reduceCtorEq, and_false, false_or, and_true]
  bv_omega

/-! ## The decoder -/

/-- A word that passes the first check of 44_sequencer_control.md R170. -/
def LegalBits (c : Word) : Prop := rsvOf c = 0#8 ∧ (takesOperand (opcOf c) = false → immOf c = 0#16)

theorem not_legalBits_iff {c : Word} :
    ¬ LegalBits c ↔ rsvOf c ≠ 0#8 ∨ (immOf c ≠ 0#16 ∧ takesOperand (opcOf c) = false) := by
  rw [LegalBits, not_and_or, Classical.not_imp, and_comm]

theorem decode_illegal {c : Word} (h : ¬ LegalBits c) : decode c = .error .illegalBits :=
  if_pos (not_legalBits_iff.mp h)

/-- Past the first check, the decoder is the opcode map. -/
theorem decode_legal {c : Word} (h : LegalBits c) :
    decode c = (instrOf (opcOf c) (immOf c)).elim (.error .reservedOpcode) .ok := by
  refine (if_neg fun hc => not_legalBits_iff.mpr hc h).trans ?_
  cases instrOf (opcOf c) (immOf c) <;> rfl

/-- Each answer of the decoder, by the first check and the opcode map. -/
theorem decode_answers (c : Word) :
    (∀ i, decode c = .ok i ↔ LegalBits c ∧ instrOf (opcOf c) (immOf c) = some i) ∧
      (decode c = .error .illegalBits ↔ ¬ LegalBits c) ∧
      (decode c = .error .reservedOpcode ↔ LegalBits c ∧ instrOf (opcOf c) (immOf c) = none) := by
  by_cases h : LegalBits c
  · rw [decode_legal h]
    cases instrOf (opcOf c) (immOf c) <;> simp [h]
  · simp [decode_illegal h, h]

/-! ## The statements -/

theorem legalBits_encode (i : Instr) : LegalBits (encode i) := by
  refine ⟨rsvOf_encode i, fun h => ?_⟩
  rw [opcOf_encode] at h
  rw [immOf_encode, Instr.imm_of_no_operand h]

/-- Settles O1: the word of a command is legal, and the opcode map finds the command under the word's fields. -/
theorem decodeOfEncodeIsTheCommand : Obligations.DecodeOfEncodeIsTheCommand := by
  intro i hwf
  rw [decode_legal (legalBits_encode i), opcOf_encode, immOf_encode, instrOf_opc_imm hwf, Option.elim_some]

/-- Under legal bits the command found has the word's operand field, also where it takes none. -/
theorem imm_of_instrOf {c : Word} {i : Instr} (hc : LegalBits c) (h : instrOf (opcOf c) (immOf c) = some i) :
    i.imm = immOf c := by
  obtain ⟨-, hopc, himm⟩ := instrOf_eq_some h
  cases ht : takesOperand (opcOf c) with
  | true => exact himm ht
  | false => rw [Instr.imm_of_no_operand (hopc ▸ ht), hc.2 ht]

/-- Settles O2: the command has the three fields of the word, and the word is nothing but its fields. -/
theorem encodeOfDecodeIsTheWord : Obligations.EncodeOfDecodeIsTheWord := by
  intro c i h
  obtain ⟨hok, -, -⟩ := decode_answers c
  obtain ⟨hlegal, hi⟩ := (hok i).mp h
  obtain ⟨hwf, hopc, -⟩ := instrOf_eq_some hi
  refine ⟨hwf, ?_⟩
  calc encode i = i.imm ++ 0x00#8 ++ i.opc := rfl
    _ = immOf c ++ rsvOf c ++ opcOf c := by rw [imm_of_instrOf hlegal hi, hlegal.1, hopc]
    _ = c := append_fields c

/-- A reserved opcode takes no operand, so its word is legal only with IMM16 zero. -/
theorem legalBits_iff_of_reserved {c : Word} (h : 0x0B ≤ (opcOf c).toNat) :
    LegalBits c ↔ rsvOf c = 0#8 ∧ immOf c = 0#16 := by
  have hop : takesOperand (opcOf c) = false := takesOperand_eq_false_iff.mpr (by bv_omega)
  simp only [LegalBits, hop, forall_const]

/-- Settles O3: illegal words are those that fail `LegalBits`; of the others, the opcode map misses `0x0B` on. -/
theorem wordIsRefusedExactlyForItsFields : Obligations.WordIsRefusedExactlyForItsFields := by
  intro c
  obtain ⟨-, hillegal, hreserved⟩ := decode_answers c
  constructor
  · rw [hillegal, not_legalBits_iff, takesOperand_eq_false_iff]
    rfl
  · rw [hreserved, instrOf_eq_none_iff, and_congr_left legalBits_iff_of_reserved, and_assoc]
    rfl

/-- Settles O4: each written-out word is the word of its command. -/
theorem writtenOutWordsDecode : Obligations.WrittenOutWordsDecode :=
  have h := decodeOfEncodeIsTheCommand
  ⟨h .nop rfl, h .acq rfl, h .align rfl, h (.demod 4) rfl, h (.demod 65535) rfl, h .emit rfl, h .drain rfl,
    h .cycle rfl, h .run rfl, h (.tlook 0xB333#16) rfl, h .clrst rfl, h .srst rfl⟩

end Sys2Proof
end

section
/-! PROOF. The symbol table and TLOOK (40_symbol_table.md): what the reference table reads, that the model's form of a
table loses none, and what TLOOK answers. -/

namespace Sys2Proof.Machine

open Sys2Proof

/-! ## The reference table -/

/-- Bit cell `i` is the bits `15-2i` and `14-2i` of the half (40_symbol_table.md R100). -/
theorem refBit_eq (h : Half) {i : Nat} (hi : i < 8) :
    refBit h i = (h.getLsbD (15 - 2 * i) ^^ h.getLsbD (14 - 2 * i)) := by
  rw [refBit, cell, cell, show 15 - (2 * i + 1) = 14 - 2 * i by omega]

theorem refSymtab_getLsbD (h : Half) {i : Nat} (hi : i < 8) : (refSymtab h).getLsbD i = refBit h i := by
  simp only [refSymtab, BitVec.getLsbD_append, BitVec.getLsbD_ofBool]
  interval_cases i <;> simp

/-- Settles O11: the bits of the table's byte, and the inversion over all encodings. -/
theorem referenceTableInvertsTheLineCode : Obligations.ReferenceTableInvertsTheLineCode :=
  ⟨fun h _ hi => (refSymtab_getLsbD h hi).trans (refBit_eq h hi), refSymtab_enc⟩

/-! ## The form of a table -/

/-- The 65536 halves. -/
def halves : List Half := (List.finRange (2 ^ 16)).map BitVec.ofFin

theorem mem_halves (h : Half) : h ∈ halves := List.mem_map.mpr ⟨h.toFin, List.mem_finRange _, rfl⟩

/-- The table that patches every entry of the reference table, with the values of `f`. -/
def tabulate (f : Half → Byte) : SymTab := halves.map fun h => (h, f h)

theorem lookup_tabulate (f : Half → Byte) (h : Half) : (tabulate f).lookup h = some (f h) :=
  List.lookup_graph f (mem_halves h)

/-- Parameters that hold the table of `f` look up `f`. -/
theorem symtab_tabulate (p : Params) (f : Half → Byte) (h : Half) :
    symtab { p with symtab := tabulate f } h = f h := by
  rw [symtab, lookup_tabulate]

/-- Parameters that patch no entry have the reference table (log 2). -/
theorem symtab_of_no_patch {p : Params} (hp : p.symtab = []) (h : Half) : symtab p h = refSymtab h := by
  rw [symtab, hp, List.lookup_nil]

/-- Settles O13: a patch at every half leaves nothing of the reference table. -/
theorem everyTableIsSomeInstances : Obligations.EveryTableIsSomeInstances := fun f p =>
  ⟨tabulate f, symtab_tabulate p f⟩

/-! ## TLOOK -/

/-- TLOOK is always accepted, and its rule writes RESULT alone (40_symbol_table.md R103). -/
theorem exec_tlook (h : Half) (s : State) :
    exec (.tlook h) s = .next { s with result := (symtab s.params h).setWidth 32 } := rfl

/-- Under the reference table RESULT is the entry that R100 gives. -/
theorem exec_tlook_of_no_patch {s : State} (hp : s.params.symtab = []) (h : Half) :
    exec (.tlook h) s = .next { s with result := (refSymtab h).setWidth 32 } := by
  rw [exec_tlook, symtab_of_no_patch hp]

/-- RSV and OPC of a TLOOK word are its low half. -/
theorem encode_tlook (h : Half) : encode (.tlook h) = h ++ 0x0008#16 :=
  BitVec.append_assoc (x₁ := h) (x₂ := 0x00#8) (x₃ := 0x08#8)

/-- A word with RSV set fails the first check, whatever its opcode. -/
theorem not_legalBits_of_rsv {c : Word} (h : rsvOf c ≠ 0#8) : ¬ LegalBits c := fun hc => h hc.1

/-- A word that is no command, written to CMD, is recorded with its reason (44_sequencer_control.md R170). -/
theorem hostWrite_no_command {off : BitVec 8} {v : Word} {e : DecodeError} (hr : regAt off = some .cmd)
    (hd : decode v = .error e) (s : State) : hostWrite off v s = .next (raiseBadcmd (refusalReason e) v s) := by
  simp only [hostWrite, hr, command, hd]

/-- A word with illegal bits, written to CMD, is recorded with reason 1. -/
theorem takeMove_illegal {c : Word} (h : ¬ LegalBits c) (s : State) :
    takeMove (.hostWrite 0x00#8 c) s = .next (raiseBadcmd .illegalBits c s) :=
  hostWrite_no_command (regAt_cmd (off := 0x00#8) rfl) (decode_illegal h) s

/-- Every bit cell of an encoding but the first starts with a transition (30_encoding.md R72), over the 512 pairs of a
byte and a level. -/
theorem startsWithTransitions_enc : ∀ (v : Byte) (L : Bool), startsWithTransitions (enc v L).1 = true := by decide

/-- A half without the transitions is the encoding of no byte. -/
theorem enc_ne_of_no_transitions {h : Half} (hh : startsWithTransitions h = false) (v : Byte) (L : Bool) :
    (enc v L).1 ≠ h := fun he =>
  Bool.eq_false_iff.mp hh (he ▸ startsWithTransitions_enc v L)

/-- Settles O15: TLOOK's rule, its word among the encoded ones, the first check on RSV, the two constant halves, and
the entries of the reference table. -/
theorem tlookReturnsTheTableEntry : Obligations.TlookReturnsTheTableEntry := by
  refine ⟨exec_tlook, fun h => ?_, fun c s _ hrsv => takeMove_illegal (not_legalBits_of_rsv hrsv) s, fun v L => ?_,
    fun s hp => ?_⟩
  · rw [← encode_tlook]
    exact decodeOfEncodeIsTheCommand (.tlook h) rfl
  · exact ⟨enc_ne_of_no_transitions (by decide) v L, enc_ne_of_no_transitions (by decide) v L⟩
  · have hlook := exec_tlook_of_no_patch hp
    exact ⟨hlook 0xB333#16, hlook 0x0000#16, hlook 0xFFFF#16⟩

end Sys2Proof.Machine
end

section
/-! PROOF. The acquisition agent's step and ALIGN: a block request, the delivery that answers it, and the sync aligner's
correction with what it leaves alone (41_acquire_align.md); which moves have no step (log 6). -/

namespace Sys2Proof.Machine

open Sys2Proof

/-! ## A step that is refused -/

/-- Settles O8: a step whose move is enabled completes, so a refused one has a move that is not. -/
theorem stepIsRefusedExactlyWhenTheAgentHasNone : Obligations.StepIsRefusedExactlyWhenTheAgentHasNone := by
  refine fun s h => ⟨fun ⟨r, hr⟩ he => ?_, step_refused⟩
  obtain ⟨t, ht⟩ := step_completes h he
  cases ht.symm.trans hr

/-! ## A block request -/

/-- A ready block runs a command's own rule, whatever its buffers hold. -/
theorem exec_of_ready {s : State} (hr : s.Ready) (i : Instr) : exec i s = toOutcome (commandRule i s) := by
  rw [exec_eq_accept, accept_ready hr]

theorem exec_request_state {s t : State} (hr : s.Ready) {i : Instr} (hi : i = .acq ∨ i = .cycle ∨ i = .run)
    (ht : exec i s = .next t) : t.state = .acq := by
  rw [exec_of_ready hr] at ht
  rcases hi with rfl | rfl | rfl <;> cases ht <;> rfl

/-- Settles O25: the three commands' rules, and the ports that follow from STATE = ACQ. -/
theorem requestCommandsStartABlockRequest : Obligations.RequestCommandsStartABlockRequest := by
  refine fun s hr => ⟨exec_of_ready hr .acq, exec_of_ready hr .cycle, exec_of_ready hr .run, fun i t hi ht => ?_⟩
  have hstate := exec_request_state hr hi ht
  exact ⟨decide_eq_true hstate, (busy_iff t).mpr (.inl hstate)⟩

/-! ## A delivery -/

theorem wordBytes_getElem? (w : Word) {j : Nat} (hj : j < 4) : (wordBytes w)[j]? = some (w.extractLsb' (8 * j) 8) := by
  match j, hj with
  | 0, _ | 1, _ | 2, _ | 3, _ => rfl

/-- Byte `j` of word `i` in the byte view of a block (20_memory.md R53). -/
theorem blockBytes_getElem? {ws : List Word} {i : Nat} (hi : i < ws.length) {j : Nat} (hj : j < 4) :
    (blockBytes ws)[4 * i + j]? = some (ws[i].extractLsb' (8 * j) 8) := by
  induction ws generalizing i with
  | nil => cases hi
  | cons w ws ih =>
    have hcons : blockBytes (w :: ws) = wordBytes w ++ blockBytes ws := List.flatMap_cons
    have hlen : (wordBytes w).length = 4 := rfl
    rw [hcons]
    cases i with
    | zero =>
      rw [Nat.mul_zero, Nat.zero_add, List.getElem?_append_left hj]
      exact wordBytes_getElem? w hj
    | succ i =>
      have haddr : 4 * (i + 1) + j - 4 = 4 * i + j := by omega
      rw [List.getElem?_append_right (by omega), hlen, haddr]
      exact ih (Nat.lt_of_succ_lt_succ hi)

/-- The word whose bytes are those of `w` is `w`. -/
theorem wordOfBytes_bytes (w : Word) :
    wordOfBytes (w.extractLsb' 0 8) (w.extractLsb' 8 8) (w.extractLsb' 16 8) (w.extractLsb' 24 8) = w := by
  have h3 : w.extractLsb' 24 8 ++ w.extractLsb' 16 8 = w.extractLsb' 16 16 :=
    BitVec.extractLsb'_append_extractLsb'_eq_extractLsb' rfl
  have h2 : w.extractLsb' 16 16 ++ w.extractLsb' 8 8 = w.extractLsb' 8 24 :=
    BitVec.extractLsb'_append_extractLsb'_eq_extractLsb' rfl
  rw [wordOfBytes, h3, h2]
  exact (BitVec.extractLsb'_append_extractLsb'_eq_extractLsb' rfl).trans BitVec.extractLsb'_eq_self

/-- The words of a block are read back from its byte view. -/
theorem rawWord_blockBytes {s : State} {ws : List Word} (hraw : s.raw = Memory.ofBytes 0 (blockBytes ws)) {i : Nat}
    (hi : i < ws.length) : s.rawWord i = ws[i] := by
  have hbyte : ∀ j, j < 4 → s.raw.read (4 * i + j) = some (ws[i].extractLsb' (8 * j) 8) := fun j hj => by
    rw [hraw, Memory.read_ofBytes_zero, blockBytes_getElem? hi hj]
  have h0 : s.raw.read (4 * i) = some (ws[i].extractLsb' 0 8) := hbyte 0 (by decide)
  rw [State.rawWord, h0, hbyte 1 (by decide), hbyte 2 (by decide), hbyte 3 (by decide)]
  exact wordOfBytes_bytes ws[i]

/-- The continuation of a delivery changes STATE and SEQ_OP only (44_sequencer_control.md R181). -/
theorem afterDelivery_eq (s : State) :
    afterDelivery s = { s with
      state := (if s.seqOp = .acq then .idle else .align)
      seqOp := (if s.seqOp = .acq then .none else s.seqOp) } := by
  by_cases h : s.seqOp = .acq
  · simp only [afterDelivery, if_pos h]
  · simp only [afterDelivery, if_neg h]

/-- Settles O38: the delivered block's byte view is RAW, so its words are read back and it is whole. -/
theorem deliveryReplacesTheBlock : Obligations.DeliveryReplacesTheBlock := by
  intro s ws hreq hlen
  have hdeliver := deliver_eq (of_decide_eq_true hreq) hlen
  rw [afterDelivery_eq] at hdeliver
  refine ⟨_, hdeliver, rfl, fun i hi => rawWord_blockBytes rfl hi, ?_⟩
  have hwhole := Memory.whole_ofBytes (blockBytes ws)
  rwa [blockBytes_length, hlen] at hwhole

/-! ## The correction of the sync byte -/

/-- The sync byte, used only where the block is held. -/
def State.syncByte (s : State) : Byte := (s.raw.read s.params.syncOffset).getD 0

/-- The block has pairs left and its sync byte holds every bit of SYNC_FLIP: R120's case of a correction. -/
def State.Flipped (s : State) : Prop :=
  s.cur ≠ s.params.blockWords ∧ s.syncByte &&& s.params.syncFlip = s.params.syncFlip

/-- The state after a correction (41_acquire_align.md R120). -/
def State.corrected (s : State) : State :=
  { s with
    raw := s.raw.write s.params.syncOffset (s.syncByte ^^^ s.params.syncFlip)
    syncfix := true
    fixCnt := s.fixCnt + 1 }

theorem read_syncOffset {s : State} (h : s.DataInv) (hc : s.cur ≠ s.params.blockWords) :
    s.raw.read s.params.syncOffset = some s.syncByte := by
  obtain ⟨b, hb, -⟩ := syncByte_held h hc
  rw [State.syncByte, hb, Option.getD_some]

theorem exec_align_of_flipped {s : State} (h : s.DataInv) (hr : s.Ready) (hf : s.Flipped) :
    exec .align s = .next s.corrected := by
  have hsync := syncAlign_spec hf.1 h.params.syncOffset.1 (read_syncOffset h hf.1)
  rw [if_pos hf.2] at hsync
  exact (exec_of_ready hr .align).trans (congrArg toOutcome hsync)

theorem exec_align_of_not_flipped {s : State} (h : s.DataInv) (hr : s.Ready) (hf : ¬ s.Flipped) :
    exec .align s = .next { s with syncfix := false } := by
  refine (exec_of_ready hr .align).trans (toOutcome_eq_next.mpr ?_)
  by_cases hc : s.cur = s.params.blockWords
  · exact syncAlign_exhausted hc
  · have hsync := syncAlign_spec hc h.params.syncOffset.1 (read_syncOffset h hc)
    rwa [if_neg fun hm => hf ⟨hc, hm⟩] at hsync

/-- Everything ALIGN can do on a ready block: a correction, or SYNCFIX cleared. -/
theorem exec_align_cases {s t : State} (h : s.DataInv) (hr : s.Ready) (ht : exec .align s = .next t) :
    (s.Flipped ∧ t = s.corrected) ∨ (¬ s.Flipped ∧ t = { s with syncfix := false }) := by
  by_cases hf : s.Flipped
  · rw [exec_align_of_flipped h hr hf] at ht
    cases ht; exact .inl ⟨hf, rfl⟩
  · rw [exec_align_of_not_flipped h hr hf] at ht
    cases ht; exact .inr ⟨hf, rfl⟩

theorem corrected_read_syncOffset (s : State) :
    s.corrected.raw.read s.params.syncOffset = some (s.syncByte ^^^ s.params.syncFlip) := by
  rw [State.corrected, Memory.read_write, if_pos rfl]

theorem corrected_read_of_ne (s : State) {a : Nat} (ha : a ≠ s.params.syncOffset) :
    s.corrected.raw.read a = s.raw.read a := by
  rw [State.corrected, Memory.read_write, if_neg ha]

/-- Settles O27: the byte decides between a correction and none, once the block is not exhausted. -/
theorem alignCorrectsTheSyncByte : Obligations.AlignCorrectsTheSyncByte := by
  intro s h hr
  refine ⟨fun hc => exec_align_of_not_flipped h.toDataInv hr fun hf => hf.1 hc, fun hc => ?_⟩
  have hread := read_syncOffset h.toDataInv hc
  by_cases hm : s.syncByte &&& s.params.syncFlip = s.params.syncFlip
  · exact ⟨_, _, hread, exec_align_of_flipped h.toDataInv hr ⟨hc, hm⟩,
      fun _ => ⟨rfl, corrected_read_syncOffset s, fun _ => corrected_read_of_ne s⟩, fun hn => absurd hm hn⟩
  · exact ⟨_, _, hread, exec_align_of_not_flipped h.toDataInv hr fun hf => hm hf.2,
      fun hm' => absurd hm' hm, fun _ => rfl⟩

/-! ## What a correction does to the bits -/

/-- Inverting the bits of a mask that are all set clears them. -/
theorem xor_and_mask {w : Nat} {b f : BitVec w} (hm : b &&& f = f) : (b ^^^ f) &&& f = 0#w := by
  ext i hi
  have hbit : (b[i] && f[i]) = f[i] := by rw [← BitVec.getElem_and, hm]
  rw [BitVec.getElem_and, BitVec.getElem_xor, BitVec.getElem_zero, Bool.and_xor_distrib_right, hbit, Bool.and_self,
    Bool.xor_self]

/-- Inverting the bits of a mask leaves the others. -/
theorem xor_and_not_mask {w : Nat} (b f : BitVec w) : (b ^^^ f) &&& ~~~f = b &&& ~~~f := by
  ext i hi
  rw [BitVec.getElem_and, BitVec.getElem_and, BitVec.getElem_xor, BitVec.getElem_not, Bool.and_xor_distrib_right,
    Bool.and_not_self, Bool.xor_false]

/-- Settles O28: SYNCFIX is set by a correction only, which inverts masked bits that were all set. -/
theorem correctionClearsTheMaskedBitsOnly : Obligations.CorrectionClearsTheMaskedBitsOnly := by
  intro s t h hr ht hfix
  rcases exec_align_cases h.toDataInv hr ht with ⟨hf, rfl⟩ | ⟨-, rfl⟩
  · exact ⟨_, _, read_syncOffset h.toDataInv hf.1, corrected_read_syncOffset s, xor_and_mask hf.2,
      xor_and_not_mask _ _, fun _ => corrected_read_of_ne s⟩
  · cases hfix

/-! ## A second ALIGN -/

theorem corrected_syncByte (s : State) : s.corrected.syncByte = s.syncByte ^^^ s.params.syncFlip :=
  congrArg (Option.getD · 0) (corrected_read_syncOffset s)

/-- A corrected block needs no correction: its masked bits are 0, and SYNC_FLIP is not (00_scope.md R11). -/
theorem not_flipped_corrected {s : State} (h : s.DataInv) (hf : s.Flipped) : ¬ s.corrected.Flipped := fun hf' => by
  have hclear := xor_and_mask hf.2
  rw [← corrected_syncByte] at hclear
  exact h.params.syncFlip (hf'.2.symm.trans hclear)

/-- After an ALIGN on a ready block no correction is due. -/
theorem not_flipped_of_exec_align {s t : State} (h : s.DataInv) (hr : s.Ready) (ht : exec .align s = .next t) :
    ¬ t.Flipped := by
  rcases exec_align_cases h hr ht with ⟨hf, rfl⟩ | ⟨hf, rfl⟩
  · exact not_flipped_corrected h hf
  · exact hf

/-- ALIGN leaves a ready block ready. -/
theorem ready_of_exec_align {s t : State} (h : s.DataInv) (hr : s.Ready) (ht : exec .align s = .next t) : t.Ready := by
  rcases exec_align_cases h hr ht with ⟨-, rfl⟩ | ⟨-, rfl⟩ <;> exact hr

/-- ALIGN on a ready block keeps the buffers' invariant. -/
theorem exec_align_dataInv {s t : State} (h : s.DataInv) (hr : s.Ready) (ht : exec .align s = .next t) : t.DataInv :=
  syncAlign_dataInv h (toOutcome_eq_next.mp ((exec_of_ready hr .align).symm.trans ht))

/-- Settles O29: after the first ALIGN no correction is due, so the second clears SYNCFIX and changes nothing else. -/
theorem secondAlignChangesNoByte : Obligations.SecondAlignChangesNoByte := by
  intro s t h hr ht
  have hsecond := exec_align_of_not_flipped (exec_align_dataInv h.toDataInv hr ht)
    (ready_of_exec_align h.toDataInv hr ht) (not_flipped_of_exec_align h.toDataInv hr ht)
  exact ⟨_, hsecond, rfl, fun _ => ⟨rfl, rfl⟩⟩

/-! ## The samples still to be decoded -/

/-- A word whose four bytes are the same is the same. -/
theorem rawWord_congr {s t : State} {i : Nat} (h : ∀ a, a / 4 = i → t.raw.read a = s.raw.read a) :
    t.rawWord i = s.rawWord i := by
  rw [State.rawWord, State.rawWord, h (4 * i) (by omega), h (4 * i + 1) (by omega), h (4 * i + 2) (by omega),
    h (4 * i + 3) (by omega)]

/-- The samples read the data words of the pairs from the cursor on, and no other word. -/
theorem samples_eq_of_dataWords {s t : State} (hp : t.params = s.params) (hc : t.cur = s.cur)
    (hw : ∀ i, s.cur ≤ i → (i - s.cur) % 2 = s.params.dataPhase.val → t.rawWord i = s.rawWord i) (m : Nat) :
    t.samples m = s.samples m := by
  unfold State.samples
  refine List.flatMap_congr fun j _ => ?_
  have hphase := s.params.dataPhase.isLt
  rw [hp, hc, hw (s.cur + 2 * j + s.params.dataPhase.val) (by omega) (by omega)]

/-- Settles O30: a correction writes one byte, and that byte lies in no data word from the cursor on. -/
theorem alignLeavesOtherSamplesAlone : Obligations.AlignLeavesOtherSamplesAlone := by
  intro s t h hr ht hsync m
  rcases exec_align_cases h.toDataInv hr ht with ⟨-, rfl⟩ | ⟨-, rfl⟩
  · refine samples_eq_of_dataWords (s := s) (t := s.corrected) rfl rfl
      (fun i hcur hphase => rawWord_congr fun a ha => ?_) m
    have heven := h.curEven
    have hne : a ≠ s.params.syncOffset := by
      rintro rfl
      omega
    exact corrected_read_of_ne s hne
  · exact samples_congr (s := s) rfl rfl rfl m

end Sys2Proof.Machine
end

section
/-! PROOF. DEMOD (42_demodulator.md): the decoding of a data word, how many samples are done and why it stops, and the
bytes appended. -/

namespace Sys2Proof.Machine

open Sys2Proof

/-! ## The data word of a sample -/

theorem highHalf_append (hi lo : Half) : highHalf (hi ++ lo) = hi := BitVec.extractLsb'_append_eq_left

theorem lowHalf_append (hi lo : Half) : lowHalf (hi ++ lo) = lo := BitVec.extractLsb'_append_eq_right

/-- Each lane goes through the table on its own (42_demodulator.md R134). -/
theorem decodeWord_append (p : Params) (hi lo : Half) : decodeWord p (hi ++ lo) = symtab p hi ++ symtab p lo := by
  rw [decodeWord, highHalf_append, lowHalf_append]

/-- A sample is its two bytes, the second one high (20_memory.md R52). -/
theorem sampleHigh_append_sampleLow (x : Half) : sampleHigh x ++ sampleLow x = x :=
  (BitVec.extractLsb'_append_extractLsb'_eq_extractLsb' rfl).trans BitVec.extractLsb'_eq_self

/-- Settles O14: each half of the word is the encoding of one byte, which an admissible table inverts. -/
theorem dataWordDecodesToItsSample : Obligations.DataWordDecodesToItsSample := by
  intro p hp x L
  calc decodeWord p (dataWord x L)
      = symtab p (enc (sampleHigh x) L).1 ++ symtab p (enc (sampleLow x) (enc (sampleHigh x) L).2).1 :=
        decodeWord_append p _ _
    _ = sampleHigh x ++ sampleLow x := by rw [hp, hp]
    _ = x := sampleHigh_append_sampleLow x

/-! ## How many samples are done -/

/-- CLAMP as the rule computes it: neither the target nor the block's end was reached (42_demodulator.md R132). -/
theorem clampOf_iff {s : State} {n : Nat} :
    s.clampOf n = true ↔ s.demodCount n < n / 2 ∧ s.demodCount n < s.pairsLeft := by
  rw [State.clampOf, Bool.and_eq_true, decide_eq_true_iff, decide_eq_true_iff, demodWant]

/-- The cursor reaches the block's end exactly when every pair left is decoded. -/
theorem cur_add_eq_blockWords_iff {s : State} (h : s.DataInv) {m : Nat} :
    s.cur + 2 * m = s.params.blockWords ↔ m = s.pairsLeft := by
  have hblock := h.params.blockWords.1
  have hcur := h.curEven
  have hle := h.curLe
  rw [State.pairsLeft]
  omega

/-- After `m` samples there is no room for another exactly when `m` is at least the samples there was room for
(42_demodulator.md R135). -/
theorem accCap_sub_lt_two_iff {s : State} {m : Nat} : s.params.accCap - (s.fill + 2 * m) < 2 ↔ s.room ≤ m := by
  rw [State.room]
  omega

/-- The rule of CLAMP, said with why Demodulate stopped: short of the target and of the block's end, it was the room. -/
theorem clampOf_iff_no_room {s : State} {n : Nat} :
    s.clampOf n = true ↔ s.room ≤ s.demodCount n ∧ s.demodCount n < n / 2 ∧ s.demodCount n ≠ s.pairsLeft := by
  rw [clampOf_iff, State.demodCount, demodWant]
  omega

/-- Settles O32: the three conditions on the reached state are those of the rule on the number of samples done. -/
theorem clampMarksACapacityStop : Obligations.ClampMarksACapacityStop := by
  intro n s h hr
  obtain ⟨-, -, -, -, hdemod, -, -⟩ := exec_ready h.toDataInv hr
  refine ⟨demodulated n s, hdemod n, clampOf_iff_no_room.trans ?_⟩
  have hdone : (demodulated n s).fill - s.fill = 2 * s.demodCount n := Nat.add_sub_cancel_left ..
  rw [hdone, Nat.mul_lt_mul_left Nat.two_pos]
  exact and_congr accCap_sub_lt_two_iff.symm
    (and_congr_right' (not_congr (cur_add_eq_blockWords_iff h.toDataInv).symm))

/-! ## Whole samples -/

/-- Demodulate takes its target in whole samples (42_demodulator.md R132). -/
theorem demodulate_congr {n n' : Nat} (hn : n / 2 = n' / 2) (s : State) : demodulate n s = demodulate n' s := by
  rw [demodulate, demodulate, State.clampOf, State.clampOf, State.demodCount, State.demodCount, demodWant, demodWant, hn]

/-- With no sample asked for or no pair left, Demodulate reads no word and only clears CLAMP. -/
theorem demodulate_nothing {n : Nat} {s : State} (h : n / 2 = 0 ∨ s.pairsLeft = 0) :
    demodulate n s = .ok { s with clamp := false } := by
  have hcount : s.demodCount n = 0 := by
    rw [State.demodCount, demodWant]
    omega
  have hclamp : s.clampOf n = false := by
    rw [← Bool.not_eq_true, clampOf_iff]
    omega
  rw [demodulate, hcount, hclamp, demodPairs]

theorem exec_demod_of_ready {s : State} (hr : s.Ready) (n : Nat) : exec (.demod n) s = toOutcome (demodulate n s) :=
  exec_of_ready hr (.demod n)

/-- Settles O33: the rule reads the target in whole samples, does nothing for none, and advances FILL by two for each. -/
theorem demodCountsWholeSamples : Obligations.DemodCountsWholeSamples := by
  intro n s hr
  rw [exec_demod_of_ready hr, exec_demod_of_ready hr]
  refine ⟨fun hodd => ?_, fun hn => ?_, fun hcur => ?_, fun t ht => ?_⟩
  · rw [demodulate_congr (n' := n - 1) (by omega)]
  · rw [demodulate_nothing (.inl (by omega)), toOutcome_ok]
  · have hpairs : s.pairsLeft = 0 := by rw [State.pairsLeft, hcur, Nat.sub_self]
    rw [demodulate_nothing (.inr hpairs), toOutcome_ok]
  · have hfill : t.fill = s.fill + 2 * s.demodCount n := by rw [demodulate_frame (toOutcome_eq_next.mp ht)]
    omega

/-! ## The bytes appended -/

/-- The two bytes of sample `j` in a list of samples (42_demodulator.md R138). -/
theorem samples_getElem? (s : State) {m j : Nat} (hj : j < m) :
    let w := s.rawWord (s.cur + 2 * j + s.params.dataPhase.val)
    (s.samples m)[2 * j]? = some (symtab s.params (w.extractLsb' 0 16)) ∧
      (s.samples m)[2 * j + 1]? = some (symtab s.params (w.extractLsb' 16 16)) := by
  induction j generalizing s m with
  | zero =>
    obtain ⟨k, rfl⟩ := Nat.exists_eq_add_of_lt hj
    rw [samples_succ]
    exact ⟨rfl, rfl⟩
  | succ j ih =>
    obtain ⟨k, rfl⟩ := Nat.exists_eq_add_of_lt hj
    have hcur : s.cur + 2 * (j + 1) = s.cur + 2 + 2 * j := by omega
    rw [samples_succ, hcur]
    exact ih { s with cur := s.cur + 2 } (by omega)

/-- A whole memory reads as the list of its bytes. -/
theorem Memory.Whole.read {m : Memory} {n : Nat} (h : Memory.Whole m n) (a : Nat) : Memory.read m a = m.bytes[a]? :=
  (congrArg (Memory.read · a) h.1).trans (Memory.read_ofBytes_zero _ _)

/-- Demodulate leaves the bytes already in ACC. -/
theorem demodulated_acc_read_lt {s : State} (h : s.DataInv) (n : Nat) {a : Nat} (ha : a < s.fill) :
    (demodulated n s).acc.read a = s.acc.read a := by
  rw [demodulated, Memory.read_ofBytes_zero, List.getElem?_append_left (h.acc.2.symm ▸ ha), h.acc.read]

/-- From the old FILL on, ACC holds the samples' bytes and nothing else. -/
theorem demodulated_acc_read_add {s : State} (h : s.DataInv) (n i : Nat) :
    (demodulated n s).acc.read (s.fill + i) = (s.samples (s.demodCount n))[i]? := by
  rw [demodulated, Memory.read_ofBytes_zero, ← h.acc.2, List.getElem?_append_right (Nat.le_add_right ..),
    Nat.add_sub_cancel_left]

/-- Above the new FILL, ACC holds no value before and after Demodulate. -/
theorem demodulated_acc_read_ge {s : State} (h : s.DataInv) (n : Nat) {a : Nat}
    (ha : s.fill + 2 * s.demodCount n ≤ a) : (demodulated n s).acc.read a = s.acc.read a := by
  have hold : s.acc.read a = none := by
    rw [h.acc.read]
    exact List.getElem?_eq_none (by rw [h.acc.2]; omega)
  have hnew : (demodulated n s).acc.read a = none := by
    rw [(demodulated_dataInv h n).acc.read]
    exact List.getElem?_eq_none ((demodulated_dataInv h n).acc.2.trans_le ha)
  rw [hnew, hold]

/-- Settles O31: ACC after Demodulate is its bytes before, then the samples', and sample `j` is bytes `2*j` and `2*j+1`
of these. -/
theorem demodAppendsDecodedSamples : Obligations.DemodAppendsDecodedSamples := by
  intro n s h hr
  obtain ⟨-, -, -, -, hdemod, -, -⟩ := exec_ready h.toDataInv hr
  refine ⟨demodulated n s, hdemod n, rfl, ?_, fun j hj => ?_⟩
  · rintro a (ha | ha)
    · exact demodulated_acc_read_lt h.toDataInv n ha
    · exact demodulated_acc_read_ge h.toDataInv n ha
  · obtain ⟨hlow, hhigh⟩ := samples_getElem? s (m := s.demodCount n) hj
    exact ⟨(demodulated_acc_read_add h.toDataInv n _).trans hlow, (demodulated_acc_read_add h.toDataInv n _).trans hhigh⟩

end Sys2Proof.Machine
end

section
/-! PROOF. What a step can do, said once: a reset, or one of the effects listed in `Effect` (00_scope.md R5, R15,
44_sequencer_control.md R170 to R183). -/

namespace Sys2Proof.Machine

open Sys2Proof

/-! ## The effects of a step that does not reset -/

/-- The buffers and the sequencer are as they were: what a refusal, NOP, TLOOK, CLRST and the host's other accesses
leave. -/
def Quiet (s t : State) : Prop :=
  t = { s with
    badcmd := t.badcmd
    badcode := t.badcode
    lastbad := t.lastbad
    drop := t.drop
    ie := t.ie
    result := t.result
    rdata := t.rdata }

/-- The record of refusals is empty or has a reason (60_exceptions.md R201, R202). -/
def State.RecordOk (s : State) : Prop :=
  (s.badcmd = true ↔ s.badcode ≠ .none) ∧ (s.badcmd = false → s.lastbad = 0#32)

/-- The move is the host's. -/
def isHostAccess : Move → Bool
  | .hostWrite _ _ => true
  | .hostRead _ => true
  | .deliver _ => false
  | .acqFault => false
  | .sinkAnswer _ => false
  | .sequencer => false
  | .resetInput => false

/-- What a move that does not reset can do to a state whose buffers meet their invariant. -/
inductive Effect : Move → State → State → Prop
  /-- A host access, or a command that is refused, always accepted, or without a chunk to frame. -/
  | quiet {m : Move} {s t : State} (host : isHostAccess m = true) (same : Quiet s t) (record : s.RecordOk → t.RecordOk) :
      Effect m s t
  /-- ACQ, CYCLE or RUN on a ready block. -/
  | requested {off : BitVec 8} {v : Word} {s : State} {op : SeqOp} (ready : s.Ready)
      (hop : op = .acq ∨ op = .cycle ∨ op = .run) :
      Effect (.hostWrite off v) s { startRequest op s with run := op == .run }
  /-- ALIGN on a ready block. -/
  | aligned {off : BitVec 8} {v : Word} {s t : State} (ready : s.Ready) (align : syncAlign s = .ok t) :
      Effect (.hostWrite off v) s t
  /-- DEMOD on a ready block. -/
  | demodulated {off : BitVec 8} {v : Word} {s : State} (ready : s.Ready) (n : Nat) :
      Effect (.hostWrite off v) s (demodulated n s)
  /-- EMIT or DRAIN on a ready block with a whole chunk. -/
  | framed {off : BitVec 8} {v : Word} {s : State} {op : SeqOp} (ready : s.Ready) (hop : op = .emit ∨ op = .drain)
      (chunk : s.params.chunk ≤ s.fill) : Effect (.hostWrite off v) s (framed { s with seqOp := op })
  /-- A block for the request outstanding. -/
  | delivered {s : State} {ws : List Word} (hs : s.state = .acq) (hl : ws.length = s.params.blockWords) :
      Effect (.deliver ws) s
        (afterDelivery { s with raw := Memory.ofBytes 0 (blockBytes ws), cur := 0, blkCnt := s.blkCnt + 1 })
  /-- An acquisition fault for the request outstanding. -/
  | faulted {s : State} (hs : s.state = .acq) : Effect .acqFault s (raiseAcqFault s)
  /-- The answer that ends an EMIT. -/
  | emitAnswered {s : State} {r : SinkAnswer} (hp : s.pend = true) (hop : s.seqOp = .emit) :
      Effect (.sinkAnswer r) s { recordAnswer r s with state := .idle, seqOp := .none }
  /-- An answer after which the next chunk is framed. -/
  | answeredFramed {s : State} {r : SinkAnswer} (hp : s.pend = true) (hop : s.seqOp ≠ .emit)
      (chunk : s.params.chunk ≤ s.fill) : Effect (.sinkAnswer r) s (Machine.framed (recordAnswer r s))
  /-- An answer after which less than a chunk is left. -/
  | answeredEnded {s : State} {r : SinkAnswer} (hp : s.pend = true) (hop : s.seqOp ≠ .emit)
      (short : s.fill < s.params.chunk) : Effect (.sinkAnswer r) s (endCycle (recordAnswer r s))
  /-- The sequencer's step in ALIGN. -/
  | sequencerAligned {s u : State} (hs : s.state = .align) (align : syncAlign s = .ok u) :
      Effect .sequencer s { u with state := .demod }
  /-- The sequencer's step in DEMOD, with a whole chunk after it. -/
  | sequencerFramed {s : State} (hs : s.state = .demod)
      (chunk : s.params.chunk ≤ s.fill + 2 * s.demodCount s.params.blockWords) :
      Effect .sequencer s (Machine.framed (Machine.demodulated s.params.blockWords s))
  /-- The sequencer's step in DEMOD, with less than a chunk after it. -/
  | sequencerEnded {s : State} (hs : s.state = .demod)
      (short : s.fill + 2 * s.demodCount s.params.blockWords < s.params.chunk) :
      Effect .sequencer s (endCycle (Machine.demodulated s.params.blockWords s))

/-! ## Quiet effects -/

/-- A refusal touches its record only, and gives a reason. -/
theorem quiet_raiseBadcmd {m : Move} (hm : isHostAccess m = true) {k : BadCode} (hk : k ≠ .none) (c : Word) (s : State) :
    Effect m s (raiseBadcmd k c s) := by
  refine .quiet hm rfl fun ⟨hcode, _⟩ => ⟨?_, fun h => by cases h⟩
  rw [raiseBadcmd_badcmd, raiseBadcmd_badcode]
  split
  · exact ⟨fun _ => hcode.mp (by assumption), fun _ => rfl⟩
  · exact ⟨fun _ => hk, fun _ => rfl⟩

theorem refusalReason_ne_none (e : DecodeError) : refusalReason e ≠ .none := by cases e <;> decide

/-! ## Host writes -/

theorem resets_hostWrite {off : BitVec 8} {v : Word} {i : Instr} (hr : regAt off = some .cmd) (hd : decode v = .ok i) :
    (Move.hostWrite off v).resets = (i == .srst) := by simp [Move.resets, hr, hd]

theorem resets_no_command {off : BitVec 8} {v : Word} {e : DecodeError} (hd : decode v = .error e) :
    (Move.hostWrite off v).resets = false := by simp [Move.resets, hd]

theorem resets_not_cmd {off : BitVec 8} (hr : regAt off ≠ some .cmd) (v : Word) :
    (Move.hostWrite off v).resets = false := by simp [Move.resets, hr]

/-- A command other than SRST has one of the effects, whether it is accepted or refused. -/
theorem exec_effect {off : BitVec 8} {v : Word} {i : Instr} {s t : State} (h : s.DataInv) (hi : i ≠ .srst)
    (ht : exec i s = .next t) : Effect (.hostWrite off v) s t := by
  cases ha : i.always with
  | true =>
    cases i with
    | nop => cases ht; exact .quiet rfl rfl id
    | tlook p => cases ht; exact .quiet rfl rfl id
    | clrst => cases ht; exact .quiet rfl rfl fun _ => by simp [State.RecordOk, clearSticky]
    | srst => exact absurd rfl hi
    | _ => cases ha
  | false =>
    by_cases hr : s.Ready
    · obtain ⟨hacq, hcycle, hrun, halign, hdemod, hemit, hdrain⟩ := exec_ready h hr
      have hnorun (op : SeqOp) (hop : (op == .run) = false) :
          startRequest op s = { startRequest op s with run := op == .run } := by
        rw [hop, ← hr.2.2]; rfl
      cases i with
      | acq => cases hacq.symm.trans ht; rw [hnorun .acq rfl]; exact .requested hr (by simp)
      | cycle => cases hcycle.symm.trans ht; rw [hnorun .cycle rfl]; exact .requested hr (by simp)
      | run => cases hrun.symm.trans ht; exact .requested (op := .run) hr (by simp)
      | align => exact .aligned hr (toOutcome_eq_next.mp (halign.symm.trans ht))
      | demod n => cases (hdemod n).symm.trans ht; exact .demodulated hr n
      | emit =>
        cases hemit.symm.trans ht
        split
        · exact .quiet rfl rfl id
        · exact .framed hr (.inl rfl) (by omega)
      | drain =>
        cases hdrain.symm.trans ht
        split
        · exact .quiet rfl rfl id
        · exact .framed hr (.inr rfl) (by omega)
      | _ => cases ha
    · obtain ⟨k, hk, hrefuse⟩ := exec_not_ready hr ha
      cases hrefuse.symm.trans ht
      exact quiet_raiseBadcmd rfl (by rcases hk with rfl | rfl <;> decide) _ _

theorem hostWrite_effect {off : BitVec 8} {v : Word} {s t : State} (h : s.DataInv)
    (hm : (Move.hostWrite off v).resets = false) (ht : hostWrite off v s = .next t) : Effect (.hostWrite off v) s t := by
  rcases hostWrite_cases ht with ⟨-, e, -, rfl⟩ | ⟨hr, i, hd, hexec⟩ | ⟨-, e, rfl⟩
  · exact quiet_raiseBadcmd rfl (refusalReason_ne_none e) v s
  · refine exec_effect h (fun hi => ?_) hexec
    rw [resets_hostWrite hr hd, hi] at hm
    cases hm
  · exact .quiet rfl rfl id

/-! ## Every move -/

/-- A move that steps is enabled. -/
theorem enabled_of_takeMove {m : Move} {s t : State} (ht : takeMove m s = .next t) : s.enabled m := by
  by_contra hn
  obtain ⟨r, hr⟩ := takeMove_refused hn
  cases hr.symm.trans ht

/-- A reset, by SRST or by the input, leads to the reset state (70_reset_and_hazards.md R230). -/
theorem takeMove_of_resets {m : Move} {s t : State} (hm : m.resets = true) (ht : takeMove m s = .next t) :
    t = softReset s := by
  cases m with
  | hostWrite off v =>
    rcases hostWrite_cases ht with ⟨-, e, hd, -⟩ | ⟨hr, i, hd, hexec⟩ | ⟨hr, -⟩
    · rw [resets_no_command hd] at hm; cases hm
    · rw [resets_hostWrite hr hd] at hm
      rw [eq_of_beq hm, exec_srst] at hexec
      cases hexec; rfl
    · rw [resets_not_cmd hr] at hm; cases hm
  | resetInput => cases ht; rfl
  | _ => cases hm

/-- Everything a move that does not reset can do. -/
theorem takeMove_effect {m : Move} {s t : State} (h : s.DataInv) (hm : m.resets = false)
    (ht : takeMove m s = .next t) : Effect m s t := by
  have he := enabled_of_takeMove ht
  cases m with
  | hostWrite off v => exact hostWrite_effect h hm ht
  | hostRead off => cases ht; exact .quiet rfl rfl id
  | deliver ws =>
    cases (deliver_eq he.1 he.2).symm.trans ht
    exact .delivered he.1 he.2
  | acqFault =>
    cases (acqFault_eq he).symm.trans ht
    exact .faulted he
  | sinkAnswer r =>
    cases (sinkAnswer_eq h he r).symm.trans ht
    split
    · exact .emitAnswered he ‹_›
    · split
      · exact .answeredFramed he ‹_› ‹_›
      · exact .answeredEnded he ‹_› (by omega)
  | sequencer =>
    rcases he with hs | hs
    · have hstep := toOutcome_eq_next.mp ((sequencerStep_align hs).symm.trans ht)
      unfold alignStep at hstep
      split at hstep
      · cases hstep
      · cases hstep; exact .sequencerAligned hs ‹_›
    · have hstep := toOutcome_eq_next.mp ((sequencerStep_demod hs).symm.trans ht)
      cases (demodStep_eq h).symm.trans hstep
      split
      · exact .sequencerFramed hs ‹_›
      · exact .sequencerEnded hs (by omega)
  | resetInput => cases hm

/-- Everything a step can do. -/
theorem step_cases {s t : State} (h : s.Inv) (ht : step s = .next t) :
    (s.nextMove.resets = true ∧ t = softReset s.advance) ∨
      (s.nextMove.resets = false ∧ Effect s.nextMove s.advance t) := by
  cases hm : s.nextMove.resets with
  | true => exact .inl ⟨rfl, takeMove_of_resets hm ht⟩
  | false => exact .inr ⟨rfl, takeMove_effect (advance_inv h).toDataInv hm ht⟩

end Sys2Proof.Machine
end

section
/-! PROOF. Every step of every agent keeps the invariant: what goes with each STATE, and how each effect moves from one
row to another (10_state.md R21 to R28, 44_sequencer_control.md R180). -/

namespace Sys2Proof.Machine

open Sys2Proof

/-! ## What goes with each STATE -/

/-- The run flag says which command is in progress (44_sequencer_control.md R172, R184). -/
def State.RunOk (s : State) : Prop := s.run = true ↔ s.seqOp = .run

/-- The sequencer's elements row by row: for each STATE its commands in progress, PEND, FATAL and the buffers it speaks
of (44_sequencer_control.md R180). -/
def State.SeqOk (s : State) : Prop :=
  match s.state with
  | .idle => s.seqOp = .none ∧ s.pend = false ∧ s.fatal = false
  | .acq => (s.seqOp = .acq ∨ s.seqOp = .cycle ∨ s.seqOp = .run) ∧ s.pend = false ∧ s.fatal = false
  | .align | .demod => (s.seqOp = .cycle ∨ s.seqOp = .run) ∧ s.pend = false ∧ s.fatal = false ∧ s.cur = 0
  | .emit => (s.seqOp ≠ .none ∧ s.seqOp ≠ .acq) ∧ s.pend = true ∧ s.fatal = false ∧ s.pay ≠ []
  | .fault => s.seqOp = .none ∧ s.pend = false ∧ s.fatal = true

/-- The sequencer's part of the invariant is the table's rows, the run flag and the record of refusals. -/
theorem ctrlInv_iff {s : State} : s.CtrlInv ↔ s.SeqOk ∧ s.RunOk ∧ s.RecordOk := by
  constructor
  · intro h
    refine ⟨?_, h.run, h.badcode, h.lastbad⟩
    obtain ⟨hpend, hpay, hnone, hacq, hcycle, hemit, hfresh, hfatal, -, -, -⟩ := h
    unfold State.SeqOk
    cases hs : s.state <;> simp_all
  · rintro ⟨hseq, hrun, hcode, hlast⟩
    unfold State.SeqOk at hseq
    refine ⟨?_, ?_, ?_, ?_, ?_, ?_, ?_, ?_, hrun, hcode, hlast⟩ <;> grind

/-! ## Each effect keeps the invariant -/

theorem State.Inv.seqOk {s : State} (h : s.Inv) : s.SeqOk := (ctrlInv_iff.mp h.toCtrlInv).1

theorem State.Inv.recordOk {s : State} (h : s.Inv) : s.RecordOk := ⟨h.badcode, h.lastbad⟩

/-- No submission is outstanding outside EMIT. -/
theorem State.Inv.pend_eq_false {s : State} (h : s.Inv) (hs : s.state ≠ .emit) : s.pend = false :=
  Bool.eq_false_of_not_eq_true (mt h.pend.mp hs)

theorem quiet_inv {s t : State} (h : s.Inv) (hq : Quiet s t) (hrec : t.RecordOk) : t.Inv := by
  have hseq : t.SeqOk ↔ s.SeqOk := by rw [hq]; rfl
  have hrun : t.RunOk ↔ s.RunOk := by rw [hq]; rfl
  refine ⟨dataInv_congr h.toDataInv ?_ ?_ ?_ ?_ ?_ ?_, ctrlInv_iff.mpr ⟨hseq.mpr h.seqOk, hrun.mpr h.run, hrec⟩⟩
  all_goals rw [hq]

/-- Reset leads to the invariant from every state with admissible parameters. -/
theorem softReset_inv {s : State} (h : s.params.Wf) : (softReset s).Inv :=
  ⟨dataInv_congr (resetOf_dataInv h) rfl rfl rfl rfl rfl rfl,
    ctrlInv_iff.mpr ⟨⟨rfl, rfl, rfl⟩, by simp [State.RunOk], by simp [State.RecordOk]⟩⟩

/-- An operation other than RUN ends in IDLE. -/
theorem idle_inv {s : State} (h : s.DataInv) (hop : s.seqOp ≠ .run) (hpend : s.pend = false) (hfatal : s.fatal = false)
    (hrun : s.RunOk) (hrec : s.RecordOk) : State.Inv { s with state := .idle, seqOp := .none } := by
  have hnorun : s.run ≠ true := mt hrun.mp hop
  exact ⟨dataInv_congr h rfl rfl rfl rfl rfl rfl,
    ctrlInv_iff.mpr ⟨⟨rfl, hpend, hfatal⟩, ⟨fun h => absurd h hnorun, fun h => by cases h⟩, hrec⟩⟩

/-- EndCycle keeps the invariant where no submission is outstanding. -/
theorem endCycle_inv {s : State} (h : s.DataInv) (hpend : s.pend = false) (hfatal : s.fatal = false) (hrun : s.RunOk)
    (hrec : s.RecordOk) : (endCycle s).Inv := by
  unfold endCycle
  split
  · rename_i hop
    exact ⟨dataInv_congr h rfl rfl rfl rfl rfl rfl, ctrlInv_iff.mpr ⟨⟨.inr (.inr hop), hpend, hfatal⟩, hrun, hrec⟩⟩
  · exact idle_inv h (by assumption) hpend hfatal hrun hrec

/-- Frame keeps the invariant under a command that submits. -/
theorem framed_inv {s : State} (h : s.DataInv) (hc : s.params.chunk ≤ s.fill) (hop : s.seqOp ≠ .none ∧ s.seqOp ≠ .acq)
    (hfatal : s.fatal = false) (hrun : s.RunOk) (hrec : s.RecordOk) : (framed s).Inv :=
  ⟨(framed_dataInv h hc).1, ctrlInv_iff.mpr ⟨⟨hop, rfl, hfatal, (framed_dataInv h hc).2⟩, hrun, hrec⟩⟩

/-- A delivered block is whole, and fresh under CYCLE and RUN. -/
theorem delivered_inv {s : State} {ws : List Word} (h : s.Inv) (hs : s.state = .acq)
    (hl : ws.length = s.params.blockWords) :
    (afterDelivery { s with raw := Memory.ofBytes 0 (blockBytes ws), cur := 0, blkCnt := s.blkCnt + 1 }).Inv := by
  have hwhole := Memory.whole_ofBytes (blockBytes ws)
  rw [blockBytes_length, hl] at hwhole
  have hdata : State.DataInv { s with raw := Memory.ofBytes 0 (blockBytes ws), cur := 0, blkCnt := s.blkCnt + 1 } :=
    ⟨h.params, .inl hwhole, Nat.zero_le _, rfl, h.acc, h.fillLe, h.pay⟩
  have hrec := h.recordOk
  have hacq := h.seqOk
  simp only [State.SeqOk, hs] at hacq
  obtain ⟨hop, hpend, hfatal⟩ := hacq
  unfold afterDelivery
  split
  · rename_i hacq
    exact idle_inv hdata (by rw [hacq]; decide) hpend hfatal h.run hrec
  · rename_i hacq
    exact ⟨dataInv_congr hdata rfl rfl rfl rfl rfl rfl,
      ctrlInv_iff.mpr ⟨⟨hop.resolve_left hacq, hpend, hfatal, rfl⟩, h.run, hrec⟩⟩

theorem raiseAcqFault_inv {s : State} (h : s.Inv) (hs : s.state = .acq) : (raiseAcqFault s).Inv := by
  have hpend := h.pend_eq_false (by simp [hs])
  have hrec := h.recordOk
  exact ⟨⟨h.params, .inr ⟨rfl, rfl⟩, Nat.le_refl _, h.params.blockWords.1, h.acc, h.fillLe, h.pay⟩,
    ctrlInv_iff.mpr ⟨⟨rfl, hpend, rfl⟩, by simp [State.RunOk], hrec⟩⟩

theorem recordAnswer_dataInv {s : State} (h : s.DataInv) (r : SinkAnswer) : (recordAnswer r s).DataInv := by
  cases r <;> exact dataInv_congr h rfl rfl rfl rfl rfl rfl

/-- A block request on a ready block keeps the invariant. -/
theorem requested_inv {s : State} (h : s.Inv) (hr : s.Ready) {op : SeqOp} (hop : op = .acq ∨ op = .cycle ∨ op = .run) :
    State.Inv { startRequest op s with run := op == .run } := by
  have hpend := h.pend_eq_false (by rw [hr.2.1]; decide)
  have hrec := h.recordOk
  exact ⟨dataInv_congr h.toDataInv rfl rfl rfl rfl rfl rfl, ctrlInv_iff.mpr ⟨⟨hop, hpend, hr.1⟩, beq_iff_eq, hrec⟩⟩

/-- Every effect keeps the invariant. -/
theorem effect_inv {m : Move} {s t : State} (h : s.Inv) (he : Effect m s t) : t.Inv := by
  have hdata := h.toDataInv
  have hseq := h.seqOk
  have hrun : s.RunOk := h.run
  have hrec := h.recordOk
  cases he with
  | quiet _ same record => exact quiet_inv h same (record hrec)
  | requested ready hop => exact requested_inv h ready hop
  | aligned ready align =>
    refine ⟨syncAlign_dataInv hdata align, ctrlInv_iff.mpr ?_⟩
    rw [syncAlign_frame align]
    exact ⟨hseq, hrun, hrec⟩
  | demodulated ready n =>
    refine ⟨demodulated_dataInv hdata n, ctrlInv_iff.mpr ⟨?_, hrun, hrec⟩⟩
    simp only [State.SeqOk, Machine.demodulated, ready.2.1] at hseq ⊢
    exact hseq
  | framed ready hop chunk =>
    refine framed_inv (dataInv_congr hdata rfl rfl rfl rfl rfl rfl) chunk ?_ ready.1 ?_ hrec
    · rcases hop with rfl | rfl <;> simp
    · rcases hop with rfl | rfl <;> simp [State.RunOk, ready.2.2]
  | delivered hs hl => exact delivered_inv h hs hl
  | faulted hs => exact raiseAcqFault_inv h hs
  | @emitAnswered _ r hp hop =>
    simp only [State.SeqOk, h.pend.mp hp] at hseq
    obtain ⟨-, -, hfatal, -⟩ := hseq
    cases r <;> exact idle_inv (recordAnswer_dataInv hdata _) (by simp [hop]) rfl hfatal hrun hrec
  | @answeredFramed _ r hp hop chunk =>
    simp only [State.SeqOk, h.pend.mp hp] at hseq
    obtain ⟨hsub, -, hfatal, -⟩ := hseq
    cases r <;> exact framed_inv (recordAnswer_dataInv hdata _) chunk hsub hfatal hrun hrec
  | @answeredEnded _ r hp hop short =>
    simp only [State.SeqOk, h.pend.mp hp] at hseq
    obtain ⟨-, -, hfatal, -⟩ := hseq
    cases r <;> exact endCycle_inv (recordAnswer_dataInv hdata _) rfl hfatal hrun hrec
  | sequencerAligned hs align =>
    simp only [State.SeqOk, hs] at hseq
    refine ⟨dataInv_congr (syncAlign_dataInv hdata align) rfl rfl rfl rfl rfl rfl, ctrlInv_iff.mpr ?_⟩
    rw [syncAlign_frame align]
    exact ⟨hseq, hrun, hrec⟩
  | sequencerFramed hs chunk =>
    simp only [State.SeqOk, hs] at hseq
    obtain ⟨hop, -, hfatal, -⟩ := hseq
    refine framed_inv (demodulated_dataInv hdata _) chunk ?_ hfatal hrun hrec
    rcases hop with hop | hop <;> simp [Machine.demodulated, hop]
  | sequencerEnded hs short =>
    simp only [State.SeqOk, hs] at hseq
    obtain ⟨-, hpend, hfatal, -⟩ := hseq
    exact endCycle_inv (demodulated_dataInv hdata _) hpend hfatal hrun hrec

theorem step_inv {s t : State} (h : s.Inv) (ht : step s = .next t) : t.Inv := by
  rcases step_cases h ht with ⟨-, rfl⟩ | ⟨-, he⟩
  · exact softReset_inv (advance_inv h).params
  · exact effect_inv (advance_inv h) he

end Sys2Proof.Machine
end

section
/-! PROOF. The accumulator and the framer (43_accumulator_framer.md): EMIT and DRAIN, the payload offered and its
stability, a DRAIN with its answers, and the byte stream of a run. -/

namespace Sys2Proof.Machine

open Sys2Proof

/-! ## EMIT and DRAIN -/

theorem startFraming_short {s : State} (hshort : s.fill < s.params.chunk) (op : SeqOp) :
    startFraming op s = .ok s := if_pos hshort

/-- Settles O35: both commands' rule tests FILL first. -/
theorem shortAccumulatorIsNotFramed : Obligations.ShortAccumulatorIsNotFramed := fun _ hr hshort =>
  ⟨(exec_of_ready hr .emit).trans (congrArg toOutcome (startFraming_short hshort .emit)),
    (exec_of_ready hr .drain).trans (congrArg toOutcome (startFraming_short hshort .drain))⟩

/-- The bytes of a payload that is outstanding: the header, then one chunk (43_accumulator_framer.md R158). -/
theorem pay_bytes_eq {s : State} (h : s.Inv) (hp : s.pend = true) :
    s.pay.bytes = s.params.hdr.bytes ++ s.pay.bytes.drop 5 ∧ (s.pay.bytes.drop 5).length = s.params.chunk := by
  obtain ⟨⟨-, hlen⟩, htake⟩ := h.pay.resolve_left (h.payHeld hp)
  refine ⟨?_, ?_⟩
  · rw [← htake, List.take_append_drop]
  · rw [List.length_drop, hlen]
    exact Nat.add_sub_cancel_left ..

/-- What the sink reads is all of PAY. -/
theorem offered_eq {s : State} (h : s.Inv) (hp : s.pend = true) : s.offered = .ok s.pay.bytes := by
  obtain ⟨⟨hmem, hlen⟩, -⟩ := h.pay.resolve_left (h.payHeld hp)
  have hload : loadBytes s .pay 0 s.params.payLen = .ok ((s.pay.bytes.drop 0).take s.params.payLen) :=
    loadBytes_whole (sp := .pay) hmem (by omega) (by simp)
  rw [State.offered, if_pos hp, hload, List.drop_zero, ← hlen, List.take_length]

/-- Settles O36: PAY is whole while a submission is outstanding, and starts with the header. -/
theorem offeredPayloadIsHeaderAndOneChunk : Obligations.OfferedPayloadIsHeaderAndOneChunk := by
  intro s h hp
  obtain ⟨hbytes, hlen⟩ := pay_bytes_eq h hp
  exact ⟨_, (offered_eq h hp).trans (congrArg Except.ok hbytes), hlen⟩

/-- PAY holds nothing behind one payload. -/
theorem pay_read_ge {s : State} (h : s.DataInv) {a : Nat} (ha : 5 + s.params.chunk ≤ a) : s.pay.read a = none := by
  rcases h.pay with hnone | ⟨hwhole, -⟩
  · rw [hnone, Memory.read_nil]
  · rw [hwhole.read]
    exact List.getElem?_eq_none (hwhole.2.trans_le ha)

theorem framed_pay_read_lt (s : State) {a : Nat} (ha : a < 5) :
    (framed s).pay.read a = s.params.hdr.bytes[a]? := by
  rw [framed, Memory.read_ofBytes_zero, List.getElem?_append_left ha]

theorem framed_pay_read_add {s : State} (h : s.DataInv) {a : Nat} (ha : a < s.params.chunk) :
    (framed s).pay.read (5 + a) = s.acc.read a := by
  rw [framed, Memory.read_ofBytes_zero, List.getElem?_append_right (by simp), header_bytes_length,
    Nat.add_sub_cancel_left, List.getElem?_take_of_lt ha, h.acc.read]

theorem framed_acc_read {s : State} (h : s.DataInv) (a : Nat) :
    (framed s).acc.read a = s.acc.read (a + s.params.chunk) := by
  rw [framed, Memory.read_ofBytes_zero, List.getElem?_drop, h.acc.read, Nat.add_comm]

/-- A byte below FILL holds a value, and no byte from it on does (10_state.md R25). -/
theorem acc_read_isSome {s : State} (h : s.DataInv) {a : Nat} (ha : a < s.fill) : (s.acc.read a).isSome = true := by
  rw [h.acc.read, List.getElem?_eq_getElem (h.acc.2.symm ▸ ha)]
  rfl

theorem acc_read_ge {s : State} (h : s.DataInv) {a : Nat} (ha : s.fill ≤ a) : s.acc.read a = none := by
  rw [h.acc.read]
  exact List.getElem?_eq_none (h.acc.2.trans_le ha)

/-- Settles O34: both commands run Frame, whose PAY and ACC are read byte by byte. -/
theorem framingSubmitsHeaderAndOldestChunk : Obligations.FramingSubmitsHeaderAndOldestChunk := by
  intro s h hr hc
  obtain ⟨-, -, -, -, -, hemit, hdrain⟩ := exec_ready h.toDataInv hr
  rw [if_neg (Nat.not_lt.mpr hc)] at hemit hdrain
  have hu : State.DataInv { s with seqOp := .emit } := dataInv_congr h.toDataInv rfl rfl rfl rfl rfl rfl
  have ht : (framed { s with seqOp := .emit }).Inv :=
    effect_inv h (.framed (off := 0x00#8) (v := encode .emit) hr (.inl rfl) hc)
  refine ⟨_, hemit, hdrain, rfl, fun a => framed_pay_read_lt _, fun a ha => ⟨framed_pay_read_add hu ha, ?_⟩,
    fun a ha => ?_, fun a _ => framed_acc_read hu a, fun a ha => ?_, ?_⟩
  · rw [framed_pay_read_add hu ha]
    exact acc_read_isSome hu (Nat.lt_of_lt_of_le ha hc)
  · exact (pay_read_ge (framed_dataInv hu hc).1 ha).trans (pay_read_ge h.toDataInv ha).symm
  · exact acc_read_ge (framed_dataInv hu hc).1 ha
  · rw [offered_eq ht rfl]
    exact congrArg Except.ok (Memory.bytes_ofBytes ..)

/-! ## The payload while it is outstanding -/

/-- In EMIT only the sink's answer touches PAY: every other effect that is not quiet starts in another state. -/
theorem effect_keeps_payload {m : Move} {s t : State} (h : s.Inv) (hp : s.pend = true) (hm : ∀ r, m ≠ .sinkAnswer r)
    (he : Effect m s t) : t.pay = s.pay ∧ t.pend = true := by
  have hemit : s.state = .emit := h.pend.mp hp
  have hbusy : ¬ s.Ready := fun ready => by cases hemit.symm.trans ready.2.1
  cases he with
  | quiet _ same _ => rw [same]; exact ⟨rfl, hp⟩
  | requested ready => exact absurd ready hbusy
  | aligned ready => exact absurd ready hbusy
  | demodulated ready => exact absurd ready hbusy
  | framed ready => exact absurd ready hbusy
  | delivered hs => cases hemit.symm.trans hs
  | faulted hs => cases hemit.symm.trans hs
  | emitAnswered => exact absurd rfl (hm _)
  | answeredFramed => exact absurd rfl (hm _)
  | answeredEnded => exact absurd rfl (hm _)
  | sequencerAligned hs => cases hemit.symm.trans hs
  | sequencerFramed hs => cases hemit.symm.trans hs
  | sequencerEnded hs => cases hemit.symm.trans hs

/-- Settles O51: the step's effect is neither a reset nor an answer. -/
theorem payloadIsStableWhileSubmitted : Obligations.PayloadIsStableWhileSubmitted := by
  intro s t h hp ht hreset hm
  rcases step_cases h ht with ⟨hreset', -⟩ | ⟨-, he⟩
  · cases hreset.symm.trans hreset'
  · have hkeep := effect_keeps_payload (advance_inv h) ((advance_pend s).trans hp) hm he
    rwa [advance_pay] at hkeep

end Sys2Proof.Machine
end

section
/-! PROOF. A DRAIN and its answers, run to the end (43_accumulator_framer.md sections 1 and 3, R155, R156,
44_sequencer_control.md R183). -/

namespace Sys2Proof.Machine

open Sys2Proof

/-! ## What is left, and what was counted -/

/-- The accumulator holds what is left of these bytes once every whole chunk is taken from their front. -/
def HoldsRemainder (chunk : Nat) (bs : List Byte) (t : State) : Prop :=
  t.fill = bs.length % chunk ∧ t.acc.bytes = bs.drop (bs.length / chunk * chunk)

/-- `t` has counted these answers since `s` (43_accumulator_framer.md R153, 60_exceptions.md R209). -/
def Counted (rs : List SinkAnswer) (s t : State) : Prop :=
  t.sentCnt = s.sentCnt + BitVec.ofNat 32 (rs.count .ok) ∧
    t.dropCnt = s.dropCnt + BitVec.ofNat 32 (rs.count .error) ∧ t.drop = (s.drop || rs.contains .error)

/-- The operation is over and every move placed was taken. -/
def Ended (t : State) : Prop := t.agenda = [] ∧ t.state = .idle ∧ t.pend = false

/-- Less than a chunk is its own remainder. -/
theorem holdsRemainder_of_short {s t : State} {chunk : Nat} (h : s.DataInv) (hshort : s.fill < chunk)
    (hf : t.fill = s.fill) (ha : t.acc = s.acc) : HoldsRemainder chunk s.acc.bytes t := by
  rw [HoldsRemainder, h.acc.2, Nat.mod_eq_of_lt hshort, Nat.div_eq_of_lt hshort, Nat.zero_mul, List.drop_zero, ha]
  exact ⟨hf, rfl⟩

/-- Taking one chunk leaves the same remainder. -/
theorem holdsRemainder_of_drop {chunk : Nat} {bs : List Byte} {t : State} (hpos : 0 < chunk) (hle : chunk ≤ bs.length)
    (h : HoldsRemainder chunk (bs.drop chunk) t) : HoldsRemainder chunk bs t := by
  rw [HoldsRemainder, List.length_drop, List.drop_drop] at h
  rwa [HoldsRemainder, Nat.mod_eq_sub_mod hle, Nat.div_eq_sub_div hpos hle, Nat.add_one_mul, Nat.add_comm _ chunk]

theorem counted_nil (t : State) : Counted [] t t :=
  ⟨(BitVec.add_zero _).symm, (BitVec.add_zero _).symm, (Bool.or_false _).symm⟩

/-- One more of a kind is counted first or last. -/
theorem add_one_add_ofNat (w : Word) (n : Nat) : w + 1 + BitVec.ofNat 32 n = w + BitVec.ofNat 32 (n + 1) := by
  rw [BitVec.add_assoc, BitVec.add_comm 1, BitVec.ofNat_add]
  rfl

/-- The answer recorded now is counted with those that follow. -/
theorem counted_cons {r : SinkAnswer} {rs : List SinkAnswer} {s t : State} (h : Counted rs (recordAnswer r s) t) :
    Counted (r :: rs) s t := by
  obtain ⟨hsent, hdropped, hdrop⟩ := h
  cases r with
  | ok =>
    refine ⟨?_, hdropped, hdrop⟩
    rw [List.count_cons_self, ← add_one_add_ofNat]
    exact hsent
  | error =>
    refine ⟨hsent, ?_, hdrop.trans (Bool.or_true _).symm⟩
    rw [List.count_cons_self, ← add_one_add_ofNat]
    exact hdropped

/-! ## The answers -/

theorem runSteps_succ {k : Nat} {s t : State} (h : step s = .next t) : runSteps (k + 1) s = runSteps k t := by
  rw [runSteps, h]

theorem endCycle_of_not_run {s : State} (hop : s.seqOp ≠ .run) :
    endCycle s = { s with state := .idle, seqOp := .none } := if_neg hop

/-- One chunk is taken at every answer but the last. -/
theorem drain_answers {rs : List SinkAnswer} {s : State} (h : s.DataInv) (hp : s.pend = true) (hop : s.seqOp = .drain)
    (hlen : rs.length = s.fill / s.params.chunk + 1) (hag : s.agenda = rs.map Move.sinkAnswer) :
    ∃ t, runSteps rs.length s = .next t ∧ Ended t ∧ HoldsRemainder s.params.chunk s.acc.bytes t ∧ Counted rs s t := by
  induction rs generalizing s with
  | nil => cases hlen
  | cons r rs ih =>
    have hpos : 0 < s.params.chunk := h.params.chunk.1
    have hu : State.DataInv { s with agenda := rs.map Move.sinkAnswer } := dataInv_congr h rfl rfl rfl rfl rfl rfl
    have hstep := (step_placed hag).trans (sinkAnswer_eq hu hp r)
    rw [if_neg (by simp [hop])] at hstep
    by_cases hle : s.params.chunk ≤ s.fill
    · rw [if_pos hle] at hstep
      rw [Nat.div_eq_sub_div hpos hle] at hlen
      obtain ⟨t, hrun, hend, hrem, hcount⟩ := ih (s := framed (recordAnswer r { s with agenda := rs.map .sinkAnswer }))
        (framed_dataInv (recordAnswer_dataInv hu r) (by simpa using hle)).1 rfl (by simpa [framed] using hop)
        (by simpa [framed] using hlen) (by simp [framed])
      refine ⟨t, (runSteps_succ hstep).trans hrun, hend, holdsRemainder_of_drop hpos (h.acc.2.symm ▸ hle) ?_,
        counted_cons ?_⟩
      · simpa [framed] using hrem
      · cases r <;> exact hcount
    · have hshort : s.fill < s.params.chunk := Nat.not_le.mp hle
      have hrs : rs = [] := by
        rw [Nat.div_eq_of_lt hshort] at hlen
        exact List.length_eq_zero_iff.mp (Nat.succ.inj hlen)
      subst hrs
      rw [if_neg hle, endCycle_of_not_run (by simp [hop])] at hstep
      refine ⟨_, runSteps_succ hstep, ⟨by simp, rfl, by simp⟩, holdsRemainder_of_short h hshort (by simp) (by simp),
        counted_cons ?_⟩
      cases r <;> exact counted_nil _

/-- The placed DRAIN is the first step. -/
theorem step_drain {s : State} {rest : List Move} (h : s.DataInv) (hr : s.Ready)
    (hag : s.agenda = Move.cmd .drain :: rest) :
    step s = .next (if s.fill < s.params.chunk then { s with agenda := rest }
      else framed { s with agenda := rest, seqOp := .drain }) := by
  have hu : State.DataInv { s with agenda := rest } := dataInv_congr h rfl rfl rfl rfl rfl rfl
  obtain ⟨-, -, -, -, -, -, hdrain⟩ := exec_ready hu hr
  exact (stepRunsTheDecodedCommand s 0x00#8 (encode .drain) rest .drain hag rfl
    (decodeOfEncodeIsTheCommand .drain rfl)).trans hdrain

/-- Settles O37: less than a chunk ends at once; otherwise the DRAIN takes one chunk and each answer but the last
another. -/
theorem drainSubmitsEveryWholeChunk : Obligations.DrainSubmitsEveryWholeChunk := by
  intro s rs h hr hlen hag
  have hpos : 0 < s.params.chunk := h.params.chunk.1
  have hstep := step_drain h.toDataInv hr hag
  suffices hends : ∃ t, runSteps rs.length.succ s = .next t ∧ Ended t ∧
      HoldsRemainder s.params.chunk s.acc.bytes t ∧ Counted rs s t by
    obtain ⟨t, hrun, ⟨hagenda, hidle, hpend⟩, ⟨hfill, hacc⟩, hsent, hdropped, hdrop⟩ := hends
    rw [h.acc.2] at hfill hacc
    exact ⟨t, by rwa [Nat.add_comm], hagenda, hidle, hpend, hfill, hacc, hsent, hdropped, hdrop⟩
  by_cases hshort : s.fill < s.params.chunk
  · have hrs : rs = [] := List.length_eq_zero_iff.mp (hlen.trans (Nat.div_eq_of_lt hshort))
    subst hrs
    rw [if_pos hshort] at hstep
    exact ⟨_, runSteps_succ hstep, ⟨rfl, hr.2.1, h.pend_eq_false (by rw [hr.2.1]; decide)⟩,
      holdsRemainder_of_short h.toDataInv hshort rfl rfl, counted_nil _⟩
  · have hle : s.params.chunk ≤ s.fill := Nat.not_lt.mp hshort
    have hu : State.DataInv { s with agenda := rs.map Move.sinkAnswer, seqOp := .drain } :=
      dataInv_congr h.toDataInv rfl rfl rfl rfl rfl rfl
    rw [if_neg hshort] at hstep
    rw [Nat.div_eq_sub_div hpos hle] at hlen
    obtain ⟨t, hrun, hend, hrem, hcount⟩ := drain_answers (framed_dataInv hu hle).1 rfl rfl hlen rfl
    refine ⟨t, (runSteps_succ hstep).trans hrun, hend, holdsRemainder_of_drop hpos (h.acc.2.symm ▸ hle) ?_, hcount⟩
    simpa [framed] using hrem

end Sys2Proof.Machine
end

section
/-! PROOF. The byte stream (43_accumulator_framer.md section 3): what each step appends to the accumulator and takes from
it, and what follows for the payloads of a run. -/

namespace Sys2Proof.Machine

open Sys2Proof

/-! ## What a step does to the byte stream -/

/-- The accumulator with the samples of this step behind it. -/
def heldBytes (m : Move) (s t : State) : List Byte := s.acc.bytes ++ s.samples (samplesTaken m s t)

/-- The step submits the header and the oldest chunk of the bytes held and keeps the rest, or submits nothing and keeps
them all. -/
def PassesBytesOn (m : Move) (s t : State) : Prop :=
  if startsSubmission m s t then
    s.params.chunk ≤ (heldBytes m s t).length ∧
      t.pay.bytes = s.params.hdr.bytes ++ (heldBytes m s t).take s.params.chunk ∧
      t.acc.bytes = (heldBytes m s t).drop s.params.chunk
  else t.acc.bytes = heldBytes m s t

/-! ## Samples taken and submissions started -/

theorem samplesTaken_of_cur_eq (m : Move) {s t : State} (hc : t.cur = s.cur) : samplesTaken m s t = 0 := by
  cases m <;> simp [samplesTaken, hc]

theorem heldBytes_of_none_taken {m : Move} {s t : State} (h : samplesTaken m s t = 0) :
    heldBytes m s t = s.acc.bytes := by
  rw [heldBytes, h, samples_zero, List.append_nil]

/-- A step that leaves `CUR` as Demodulate does has decoded Demodulate's samples. -/
theorem heldBytes_demodulated {m : Move} {s t : State} {n : Nat} (hm : m = .sequencer ∨ ∃ off v, m = .hostWrite off v)
    (hc : t.cur = (demodulated n s).cur) : heldBytes m s t = (demodulated n s).acc.bytes := by
  have htaken : (t.cur - s.cur) / 2 = s.demodCount n := by
    rw [hc, demodulated, Nat.add_sub_cancel_left, Nat.mul_div_cancel_left _ Nat.two_pos]
  rw [heldBytes, demodulated, Memory.bytes_ofBytes]
  rcases hm with rfl | ⟨off, v, rfl⟩ <;> rw [samplesTaken, htaken]

theorem startsSubmission_eq_false {m : Move} {s t : State} (h : t.pend = false) : startsSubmission m s t = false := by
  unfold startsSubmission
  rw [h, Bool.false_and]

theorem startsSubmission_of_not_pend {m : Move} {s t : State} (hs : s.pend = false) (ht : t.pend = true) :
    startsSubmission m s t = true := by
  unfold startsSubmission
  rw [hs, ht]; rfl

theorem startsSubmission_host {m : Move} {s t : State} (hm : isHostAccess m = true) (h : t.pend = s.pend) :
    startsSubmission m s t = false := by
  cases m with
  | hostWrite | hostRead => simp [startsSubmission, h]
  | _ => cases hm

/-! ## Each effect passes the bytes on -/

theorem passesBytesOn_kept {m : Move} {s t : State} (hsub : startsSubmission m s t = false)
    (hacc : t.acc.bytes = heldBytes m s t) : PassesBytesOn m s t := by
  rwa [PassesBytesOn, hsub, if_neg Bool.false_ne_true]

/-- A step that decodes nothing, submits nothing and leaves ACC alone. -/
theorem passesBytesOn_untouched {m : Move} {s t : State} (hsub : startsSubmission m s t = false)
    (htaken : samplesTaken m s t = 0) (hacc : t.acc = s.acc) : PassesBytesOn m s t :=
  passesBytesOn_kept hsub (by rw [heldBytes_of_none_taken htaken, hacc])

/-- Frame passes on the bytes held before it. -/
theorem passesBytesOn_framed {m : Move} {s u : State} (hu : u.DataInv) (hp : u.params = s.params)
    (hc : u.params.chunk ≤ u.fill) (hsub : startsSubmission m s (framed u) = true)
    (hacc : heldBytes m s (framed u) = u.acc.bytes) : PassesBytesOn m s (framed u) := by
  rw [PassesBytesOn, if_pos hsub, hacc, ← hp, hu.acc.2]
  exact ⟨hc, Memory.bytes_ofBytes .., Memory.bytes_ofBytes ..⟩

/-- The aligner leaves alone what the byte stream is read from. -/
theorem syncAlign_untouched {s t : State} (h : syncAlign s = .ok t) :
    t.acc = s.acc ∧ t.cur = s.cur ∧ t.pend = s.pend := by
  refine ⟨?_, ?_, ?_⟩ <;> rw [syncAlign_frame h]

theorem effect_passesBytesOn {m : Move} {s t : State} (h : s.Inv) (he : Effect m s t) : PassesBytesOn m s t := by
  have hdata := h.toDataInv
  have hnopend (hs : s.state ≠ .emit) := h.pend_eq_false hs
  cases he with
  | quiet host same _ =>
    have hpend : t.pend = s.pend := by rw [same]
    have hcur : t.cur = s.cur := by rw [same]
    have hacc : t.acc = s.acc := by rw [same]
    exact passesBytesOn_untouched (startsSubmission_host host hpend) (samplesTaken_of_cur_eq m hcur) hacc
  | requested ready hop =>
    exact passesBytesOn_untouched (startsSubmission_host rfl rfl) (samplesTaken_of_cur_eq _ rfl) rfl
  | aligned ready align =>
    obtain ⟨hacc, hcur, hpend⟩ := syncAlign_untouched align
    exact passesBytesOn_untouched (startsSubmission_host rfl hpend) (samplesTaken_of_cur_eq _ hcur) hacc
  | demodulated ready n =>
    exact passesBytesOn_kept (startsSubmission_host rfl rfl) (heldBytes_demodulated (.inr ⟨_, _, rfl⟩) rfl).symm
  | framed ready hop chunk =>
    have hpend := hnopend (by rw [ready.2.1]; decide)
    exact passesBytesOn_framed (dataInv_congr hdata rfl rfl rfl rfl rfl rfl) rfl chunk
      (startsSubmission_of_not_pend hpend rfl) (heldBytes_of_none_taken (samplesTaken_of_cur_eq _ rfl))
  | delivered hs hl =>
    have hpend := hnopend (by rw [hs]; decide)
    exact passesBytesOn_untouched (startsSubmission_eq_false ((afterDelivery_pend _).trans hpend)) rfl
      (afterDelivery_acc _)
  | faulted hs =>
    have hpend := hnopend (by rw [hs]; decide)
    exact passesBytesOn_untouched (startsSubmission_eq_false hpend) rfl rfl
  | @emitAnswered _ r hp hop =>
    exact passesBytesOn_untouched (startsSubmission_eq_false (recordAnswer_pend r s)) rfl (recordAnswer_acc r s)
  | @answeredFramed _ r hp hop chunk =>
    refine passesBytesOn_framed (recordAnswer_dataInv hdata r) (recordAnswer_params r s) (by simpa using chunk) ?_ ?_
    · simp [startsSubmission, Machine.framed]
    · exact (heldBytes_of_none_taken rfl).trans (congrArg Memory.bytes (recordAnswer_acc r s).symm)
  | @answeredEnded _ r hp hop short =>
    exact passesBytesOn_untouched (startsSubmission_eq_false (by simp)) rfl (by simp)
  | @sequencerAligned _ u hs align =>
    obtain ⟨hacc, hcur, hpend⟩ := syncAlign_untouched align
    have hnone := hpend.trans (hnopend (by rw [hs]; decide))
    exact passesBytesOn_untouched (startsSubmission_eq_false hnone) (samplesTaken_of_cur_eq _ hcur) hacc
  | sequencerFramed hs chunk =>
    have hpend := hnopend (by rw [hs]; decide)
    exact passesBytesOn_framed (demodulated_dataInv hdata _) rfl chunk (startsSubmission_of_not_pend hpend rfl)
      (heldBytes_demodulated (.inl rfl) rfl)
  | sequencerEnded hs short =>
    have hpend := hnopend (by rw [hs]; decide)
    refine passesBytesOn_kept (startsSubmission_eq_false ((endCycle_pend _).trans hpend)) ?_
    rw [heldBytes_demodulated (.inl rfl) (endCycle_cur _), endCycle_acc]

/-- What a step does to the byte stream does not depend on the moves still to come. -/
theorem passesBytesOn_advance (m : Move) (s t : State) : PassesBytesOn m s.advance t ↔ PassesBytesOn m s t := by
  have htaken : samplesTaken m s.advance t = samplesTaken m s t := by cases m <;> simp [samplesTaken]
  have hsub : startsSubmission m s.advance t = startsSubmission m s t := by simp [startsSubmission]
  have hheld : heldBytes m s.advance t = heldBytes m s t := by
    rw [heldBytes, htaken, samples_congr (advance_raw s) (advance_cur s) (advance_params s), advance_acc, heldBytes]
  rw [PassesBytesOn, hsub, hheld, advance_params, PassesBytesOn]

/-- Every step resets, or passes the bytes on. -/
theorem step_passesBytesOn {s t : State} (h : s.Inv) (ht : step s = .next t) :
    (s.nextMove.resets = true ∧ t = softReset s.advance) ∨
      (s.nextMove.resets = false ∧ PassesBytesOn s.nextMove s t) := by
  rcases step_cases h ht with hreset | ⟨hm, he⟩
  · exact .inl hreset
  · exact .inr ⟨hm, (passesBytesOn_advance _ s t).mp (effect_passesBytesOn (advance_inv h) he)⟩

/-! ## The history of a step -/

theorem observe_of_resets {m : Move} (hm : m.resets = true) (h : History) (s t : State) :
    (h.observe m s t).appended = [] ∧ (h.observe m s t).submitted = [] := by
  rw [History.observe, if_pos hm]
  exact ⟨rfl, rfl⟩

theorem observe_appended {m : Move} (hm : m.resets = false) (h : History) (s t : State) :
    (h.observe m s t).appended = h.appended ++ s.samples (samplesTaken m s t) := by
  rw [History.observe, hm, if_neg Bool.false_ne_true]

theorem observe_submitted {m : Move} (hm : m.resets = false) (h : History) (s t : State) :
    (h.observe m s t).submitted = h.submitted ++ (if startsSubmission m s t then [t.pay.bytes] else []) := by
  rw [History.observe, hm, if_neg Bool.false_ne_true]

/-- A step that passes the bytes on conserves them: the chunk moves from the accumulator's front to the last payload. -/
theorem conserved_of_passesBytesOn {m : Move} {s t : State} {h : History} (hm : m.resets = false)
    (hpass : PassesBytesOn m s t) (hc : h.Conserved s) : (h.observe m s t).Conserved t := by
  unfold History.Conserved at hc ⊢
  rw [observe_appended hm, observe_submitted hm, ← hc, List.append_assoc _ s.acc.bytes, ← heldBytes]
  unfold PassesBytesOn at hpass
  split at hpass
  · obtain ⟨-, hpay, hacc⟩ := hpass
    have hpcm : t.pay.bytes.drop 5 = (heldBytes m s t).take s.params.chunk := by
      rw [hpay, List.drop_left' (header_bytes_length _)]
    rw [if_pos (by assumption), List.map_append, List.flatten_append, List.map_singleton, List.flatten_singleton, hpcm,
      hacc, List.append_assoc, List.take_append_drop]
  · rw [if_neg (by assumption), List.append_nil, hpass]

theorem conserved_softReset {m : Move} (hm : m.resets = true) (h : History) (s u : State) :
    (h.observe m s (softReset u)).Conserved (softReset u) := by
  obtain ⟨happ, hsub⟩ := observe_of_resets hm h s (softReset u)
  rw [History.Conserved, happ, hsub]
  rfl

theorem step_conserved {s t : State} {h : History} (hs : s.Inv) (hc : h.Conserved s) (ht : step s = .next t) :
    (h.observe s.nextMove s t).Conserved t := by
  rcases step_passesBytesOn hs ht with ⟨hm, rfl⟩ | ⟨hm, hpass⟩
  · exact conserved_softReset hm h s _
  · exact conserved_of_passesBytesOn hm hpass hc

/-! ## Runs from reset -/

/-- What every observed step keeps holds after every observed run. -/
theorem observedRun_induction {P : State → History → Prop}
    (hstep : ∀ s t h, P s h → step s = .next t → P t (h.observe s.nextMove s t)) {k : Nat} {s t : State}
    {h h' : History} (hrun : observedRun k s h = some (t, h')) (hP : P s h) : P t h' := by
  induction k generalizing s h with
  | zero => cases hrun; exact hP
  | succ k ih =>
    rw [observedRun] at hrun
    split at hrun
    · exact ih hrun (hstep _ _ _ hP (by assumption))
    · cases hrun
    · cases hrun

/-- Reset with any moves placed meets the invariant. -/
theorem resetOf_placed_inv {p : Params} (hp : p.Wf) (ms : List Move) :
    State.Inv { State.resetOf p with agenda := ms } :=
  softReset_inv (s := { State.resetOf p with agenda := ms }) hp

/-- Settles O53: every step keeps the invariant and conserves the bytes, and at reset there are none. -/
theorem submittedBytesAreTheAppendedBytes : Obligations.SubmittedBytesAreTheAppendedBytes := by
  refine ⟨fun s t h => step_conserved, fun p ms k s h hp hrun => ?_⟩
  have hkeep := observedRun_induction (P := fun s h => s.Inv ∧ h.Conserved s)
    (fun _ _ _ ⟨hs, hc⟩ ht => ⟨step_inv hs ht, step_conserved hs hc ht⟩) hrun ⟨resetOf_placed_inv hp ms, rfl⟩
  exact hkeep.2

/-- The header and exactly one chunk (43_accumulator_framer.md R158). -/
def IsPayload (p : Params) (pl : List Byte) : Prop := pl.length = 5 + p.chunk ∧ pl.take 5 = p.hdr.bytes

/-- A step submits payloads only. -/
theorem isPayload_of_submitted {m : Move} {s t : State} (hpass : PassesBytesOn m s t)
    (hsub : startsSubmission m s t = true) : IsPayload s.params t.pay.bytes := by
  rw [PassesBytesOn, if_pos hsub] at hpass
  obtain ⟨hlen, hpay, -⟩ := hpass
  rw [IsPayload, hpay, List.take_left' (header_bytes_length _), List.length_append, List.length_take_of_le hlen]
  exact ⟨rfl, rfl⟩

theorem step_submits_payloads {p : Params} {s t : State} {h : History} (hs : s.Inv) (hp : s.params = p)
    (hsub : ∀ pl ∈ h.submitted, IsPayload p pl) (ht : step s = .next t) :
    ∀ pl ∈ (h.observe s.nextMove s t).submitted, IsPayload p pl := by
  intro pl hmem
  rcases step_passesBytesOn hs ht with ⟨hm, -⟩ | ⟨hm, hpass⟩
  · rw [(observe_of_resets hm h s t).2] at hmem
    cases hmem
  · rw [observe_submitted hm] at hmem
    rcases List.mem_append.mp hmem with hold | hnew
    · exact hsub pl hold
    · split at hnew
      · rw [List.mem_singleton.mp hnew, ← hp]
        exact isPayload_of_submitted hpass (by assumption)
      · cases hnew

/-- Settles O54: every step submits payloads only, and keeps the parameters. -/
theorem everySubmittedPayloadIsHeaderAndChunk : Obligations.EverySubmittedPayloadIsHeaderAndChunk := by
  intro p ms k s h hp hrun
  have hkeep := observedRun_induction
    (P := fun s h => s.Inv ∧ s.params = p ∧ ∀ pl ∈ h.submitted, IsPayload p pl)
    (fun _ _ _ ⟨hs, hparams, hsub⟩ ht =>
      ⟨step_inv hs ht, (step_params ht).trans hparams, step_submits_payloads hs hparams hsub ht⟩)
    hrun ⟨resetOf_placed_inv hp ms, rfl, fun _ hmem => by cases hmem⟩
  exact hkeep.2.2

end Sys2Proof.Machine
end

section
/-! PROOF. The bounds of the sequencer's loop and the output rate of run mode (44_sequencer_control.md R182, R183,
R185, R186 and section 3, 00_scope.md R8). -/

namespace Sys2Proof.Machine

open Sys2Proof

/-! ## The sequencer's Demodulate -/

/-- From the start of a block the whole block is wanted and left, so only the room can cut Demodulate short. -/
theorem demodCount_fresh {s : State} (hc : s.cur = 0) :
    s.demodCount s.params.blockWords = min (s.params.blockWords / 2) ((s.params.accCap - s.fill) / 2) := by
  rw [State.demodCount, demodWant, State.pairsLeft, State.room, hc, Nat.sub_zero, ← Nat.min_assoc, Nat.min_self]

/-- With room for a whole block, every word pair of a fresh block is decoded. -/
theorem demodCount_of_room {s : State} (h : s.DataInv) (hc : s.cur = 0)
    (hroom : s.fill ≤ s.params.accCap - s.params.blockWords) :
    2 * s.demodCount s.params.blockWords = s.params.blockWords := by
  have heven := h.params.blockWords.1
  have hcap := h.params.accCap.1
  rw [demodCount_fresh hc]
  omega

/-- So the block is exhausted, and the capacity was no reason to stop. -/
theorem demodulated_of_room {s : State} (h : s.DataInv) (hc : s.cur = 0)
    (hroom : s.fill ≤ s.params.accCap - s.params.blockWords) :
    (demodulated s.params.blockWords s).clamp = false ∧
      (demodulated s.params.blockWords s).cur = s.params.blockWords := by
  have hcount := demodCount_of_room h hc hroom
  refine ⟨?_, ?_⟩
  · show s.clampOf s.params.blockWords = false
    rw [← Bool.not_eq_true, clampOf_iff]
    omega
  · show s.cur + 2 * s.demodCount s.params.blockWords = s.params.blockWords
    rw [hc, hcount, Nat.zero_add]

/-- The sequencer's step in DEMOD, as a move. -/
theorem takeMove_sequencer_demod {s : State} (h : s.DataInv) (hs : s.state = .demod) :
    takeMove .sequencer s = .next (
      if s.params.chunk ≤ s.fill + 2 * s.demodCount s.params.blockWords then framed (demodulated s.params.blockWords s)
      else endCycle (demodulated s.params.blockWords s)) :=
  (sequencerStep_demod hs).trans (congrArg toOutcome (demodStep_eq h))

/-- Framing a chunk, or ending the cycle, leaves CLAMP and CUR as Demodulate set them. -/
theorem clamp_cur_of_sequencer_demod {s t : State} (h : s.DataInv) (hs : s.state = .demod)
    (ht : takeMove .sequencer s = .next t) :
    t.clamp = (demodulated s.params.blockWords s).clamp ∧ t.cur = (demodulated s.params.blockWords s).cur := by
  cases (takeMove_sequencer_demod h hs).symm.trans ht
  split
  · exact ⟨rfl, rfl⟩
  · exact ⟨endCycle_clamp _, endCycle_cur _⟩

/-- Settles O56: with room for a block the fresh block is decoded to its end. -/
theorem sequencerNeverStopsOnCapacity : Obligations.SequencerNeverStopsOnCapacity := by
  intro s t h hs hm hroom ht
  have ha := advance_inv h
  have hdemod : s.advance.state = .demod := (advance_state s).trans hs
  rw [step, hm] at ht
  obtain ⟨hclamp, hcur⟩ := clamp_cur_of_sequencer_demod ha.toDataInv hdemod ht
  have hfull := demodulated_of_room ha.toDataInv (ha.freshBlock (.inr hdemod)) (by simpa using hroom)
  rw [hclamp, hcur]
  rwa [advance_params] at hfull ⊢

/-! ## The end of a cycle -/

/-- No command that waits for a ready block starts outside IDLE. -/
theorem not_ready_of_state {s : State} (hs : s.state ≠ .idle) : ¬ s.Ready := fun hr => hs hr.2.1

/-- A cycle ends, or goes on to the next request, only where Frame found less than a chunk. -/
theorem effect_ends_below_chunk {m : Move} {s t : State} (hs : s.state = .demod ∨ (s.state = .emit ∧ s.seqOp ≠ .emit))
    (hp : s.pend = true → s.state = .emit) (he : Effect m s t) (ht : t.state = .idle ∨ t.state = .acq) :
    t.fill < t.params.chunk := by
  obtain ⟨hidle, hacq, halign⟩ : s.state ≠ .idle ∧ s.state ≠ .acq ∧ s.state ≠ .align := by
    rcases hs with hs | ⟨hs, -⟩ <;> simp [hs]
  have hbusy := not_ready_of_state hidle
  cases he with
  | quiet _ same _ =>
    have hstate : t.state = s.state := by rw [same]
    rw [hstate] at ht
    exact absurd ht (not_or.mpr ⟨hidle, hacq⟩)
  | requested ready | aligned ready | demodulated ready | framed ready => exact absurd ready hbusy
  | delivered hs | faulted hs => exact absurd hs hacq
  | emitAnswered hpend hop =>
    rcases hs with hs | ⟨-, hne⟩
    · cases hs.symm.trans (hp hpend)
    · exact absurd hop hne
  | answeredFramed | sequencerFramed => rcases ht with ht | ht <;> cases ht
  | answeredEnded _ _ short => simpa using short
  | sequencerAligned hs => exact absurd hs halign
  | sequencerEnded _ short => simpa [Machine.demodulated] using short

/-- Settles O57. -/
theorem cyclesEndBelowOneChunk : Obligations.CyclesEndBelowOneChunk := by
  intro s t h hs ht hreset hend
  rcases step_cases h ht with ⟨hreset', -⟩ | ⟨-, he⟩
  · cases hreset.symm.trans hreset'
  · exact effect_ends_below_chunk (by simpa using hs) (advance_inv h).pend.mp he hend

/-! ## The bound on FILL in run mode -/

theorem not_ready_of_run {s : State} (hrun : s.run = true) : ¬ s.Ready := fun hr => by cases hrun.symm.trans hr.2.2

theorem endCycle_of_run {s : State} (hop : s.seqOp = .run) : endCycle s = { s with state := .acq } := if_pos hop

/-- Less than a chunk meets the bound wherever the sequencer is. -/
theorem drained_of_short {s : State} (hshort : s.fill < s.params.chunk) : s.Drained :=
  ⟨fun _ => hshort, Nat.lt_add_right _ hshort⟩

/-- In EMIT a block more is allowed. -/
theorem drained_of_emit {s : State} (hs : s.state = .emit) (hlt : s.fill < s.params.chunk + s.params.blockWords) :
    s.Drained := ⟨fun h => by simp [hs] at h, hlt⟩

/-- Only Demodulate adds to FILL, by a block at most and onto less than a chunk; and only with less than a chunk does
the loop turn to the next request. -/
theorem effect_drained {m : Move} {s t : State} (h : s.Inv) (hrun : s.run = true) (hd : s.Drained) (he : Effect m s t)
    (ht : t.run = true) : t.Drained := by
  have hbusy := not_ready_of_run hrun
  obtain ⟨hfresh, hbound⟩ := hd
  cases he with
  | quiet _ same _ =>
    have hiff : t.Drained ↔ s.Drained := by rw [same]
    exact hiff.mpr ⟨hfresh, hbound⟩
  | requested ready | aligned ready | demodulated ready | framed ready => exact absurd ready hbusy
  | delivered hs hl => exact drained_of_short (by simpa using hfresh (.inl hs))
  | faulted => cases ht
  | emitAnswered hp hop => cases hop.symm.trans (h.run.mp hrun)
  | answeredFramed hp hop chunk =>
    refine drained_of_emit rfl ?_
    simp only [Machine.framed, recordAnswer_fill, recordAnswer_params]
    omega
  | answeredEnded hp hop short => exact drained_of_short (by simpa using short)
  | sequencerAligned hs align =>
    have hshort := hfresh (.inr (.inl hs))
    rw [syncAlign_frame align]
    exact drained_of_short hshort
  | sequencerFramed hs chunk =>
    have hshort := hfresh (.inr (.inr hs))
    obtain ⟨hblock, -⟩ := demodCount_bounds h.toDataInv s.params.blockWords
    refine drained_of_emit rfl ?_
    simp only [Machine.framed, Machine.demodulated]
    omega
  | sequencerEnded hs short => exact drained_of_short (by simpa [Machine.demodulated] using short)

/-- A step that stays in run mode is no reset, and has one of the effects. -/
theorem step_effect_of_run {s t : State} (h : s.Inv) (ht : step s = .next t) (hrun : t.run = true) :
    s.nextMove.resets = false ∧ Effect s.nextMove s.advance t := by
  rcases step_cases h ht with ⟨-, rfl⟩ | heffect
  · cases hrun
  · exact heffect

/-- The bound reads STATE, FILL and the parameters, none of which the choice of a move touches. -/
theorem drained_advance {s : State} : s.advance.Drained ↔ s.Drained := by simp [State.Drained]

theorem step_drained {s t : State} (h : s.Inv) (hrun : s.run = true) (hd : s.Drained) (ht : step s = .next t)
    (hrun' : t.run = true) : t.Drained := by
  obtain ⟨-, he⟩ := step_effect_of_run h ht hrun'
  exact effect_drained (advance_inv h) ((advance_run s).trans hrun) (drained_advance.mpr hd) he hrun'

/-- Settles O58: the step keeps the bound, and ACC_CAP has room for a chunk above it (00_scope.md R8). -/
theorem runModeKeepsTheFillBound : Obligations.RunModeKeepsTheFillBound := by
  intro s t h hrun hd ht hrun'
  refine ⟨step_drained h hrun hd ht hrun', ?_⟩
  have hcap := h.params.accCap.1
  rw [step_params ht]
  omega

/-! ## The bytes of the delivered blocks -/

theorem undemodulatedBytes_of_fresh {s : State} (hs : s.state = .align ∨ s.state = .demod) :
    s.undemodulatedBytes = s.params.blockWords := by
  rcases hs with hs | hs <;> rw [State.undemodulatedBytes, hs]

theorem undemodulatedBytes_eq_zero {s : State} (hs : s.state = .acq ∨ s.state = .emit) : s.undemodulatedBytes = 0 := by
  rcases hs with hs | hs <;> rw [State.undemodulatedBytes, hs]

/-- In DEMOD under the run-mode bound the step takes the whole block. -/
theorem samplesTaken_demod {s t : State} (h : s.Inv) (hs : s.state = .demod) (hd : s.Drained)
    (hcur : t.cur = (demodulated s.params.blockWords s).cur) :
    2 * samplesTaken .sequencer s t = s.params.blockWords := by
  have hshort := hd.1 (.inr (.inr hs))
  have hcap := h.params.accCap.1
  have hcount := demodCount_of_room h.toDataInv (h.freshBlock (.inr hs)) (by omega)
  have htaken : samplesTaken .sequencer s t = s.demodCount s.params.blockWords := by
    rw [samplesTaken, hcur, demodulated, Nat.add_sub_cancel_left, Nat.mul_div_cancel_left _ Nat.two_pos]
  rw [htaken, hcount]

/-- In run mode a delivery brings a block to demodulate, and the step that demodulates it takes all of it. -/
theorem effect_undemodulated {m : Move} {s t : State} (h : s.Inv) (hrun : s.run = true) (hd : s.Drained)
    (he : Effect m s t) (ht : t.run = true) :
    t.undemodulatedBytes + 2 * samplesTaken m s t =
      s.undemodulatedBytes + (if m.isDelivery then s.params.blockWords else 0) := by
  have hbusy := not_ready_of_run hrun
  have hop : s.seqOp = .run := h.run.mp hrun
  cases he with
  | quiet host same _ =>
    have hcur : t.cur = s.cur := by rw [same]
    have hbytes : t.undemodulatedBytes = s.undemodulatedBytes := by rw [same]; rfl
    have hhost : m.isDelivery = false := by
      cases m with
      | deliver => cases host
      | _ => rfl
    rw [samplesTaken_of_cur_eq m hcur, hbytes, hhost, if_neg Bool.false_ne_true]
  | requested ready | aligned ready | demodulated ready | framed ready => exact absurd ready hbusy
  | delivered hs hl =>
    rw [undemodulatedBytes_eq_zero (.inl hs), undemodulatedBytes_of_fresh (.inl (by simp [afterDelivery, hop]))]
    simp [samplesTaken, Move.isDelivery]
  | faulted => cases ht
  | emitAnswered hp hemit => cases hemit.symm.trans hop
  | answeredFramed hp =>
    rw [undemodulatedBytes_eq_zero (.inr (h.pend.mp hp)), undemodulatedBytes_eq_zero (.inr rfl)]
    rfl
  | answeredEnded hp =>
    rw [undemodulatedBytes_eq_zero (.inr (h.pend.mp hp)),
      undemodulatedBytes_eq_zero (.inl (by rw [endCycle_of_run (by simpa using hop)]))]
    rfl
  | @sequencerAligned _ u hs align =>
    obtain ⟨-, hcur, -⟩ := syncAlign_untouched align
    have hparams := syncAlign_params align
    rw [undemodulatedBytes_of_fresh (.inl hs), undemodulatedBytes_of_fresh (.inr rfl),
      samplesTaken_of_cur_eq (t := { u with state := .demod }) _ hcur]
    exact congrArg Params.blockWords hparams
  | sequencerFramed hs =>
    rw [undemodulatedBytes_of_fresh (.inr hs), undemodulatedBytes_eq_zero (.inr rfl),
      samplesTaken_demod (t := framed _) h hs hd rfl]
    exact Nat.zero_add _
  | sequencerEnded hs =>
    rw [undemodulatedBytes_of_fresh (.inr hs), samplesTaken_demod h hs hd (endCycle_cur _),
      undemodulatedBytes_eq_zero (.inl (by rw [endCycle_of_run (s := Machine.demodulated _ s) hop]))]
    exact Nat.zero_add _

theorem step_undemodulated {s t : State} (h : s.Inv) (hrun : s.run = true) (hd : s.Drained) (ht : step s = .next t)
    (hrun' : t.run = true) :
    t.undemodulatedBytes + 2 * samplesTaken s.nextMove s t =
      s.undemodulatedBytes + (if s.nextMove.isDelivery then s.params.blockWords else 0) := by
  obtain ⟨-, he⟩ := step_effect_of_run h ht hrun'
  have hkeep := effect_undemodulated (advance_inv h) ((advance_run s).trans hrun) (drained_advance.mpr hd) he hrun'
  have htaken : samplesTaken s.nextMove s.advance t = samplesTaken s.nextMove s t := by
    cases s.nextMove <;> simp [samplesTaken]
  rwa [htaken, State.undemodulatedBytes.eq_def s.advance, advance_state, advance_params,
    ← State.undemodulatedBytes.eq_def] at hkeep

/-- FILL grows by the bytes decoded and shrinks by a chunk for a submission. -/
theorem fill_of_passesBytesOn {m : Move} {s t : State} (hs : s.DataInv) (ht : t.DataInv) (h : PassesBytesOn m s t) :
    s.params.chunk * (if startsSubmission m s t then 1 else 0) + t.fill = s.fill + 2 * samplesTaken m s t := by
  have hheld : (heldBytes m s t).length = s.fill + 2 * samplesTaken m s t := by
    rw [heldBytes, List.length_append, samples_length, hs.acc.2]
  rw [← ht.acc.2, ← hheld]
  unfold PassesBytesOn at h
  split at h
  · obtain ⟨hle, -, hacc⟩ := h
    rw [if_pos (by assumption), hacc, List.length_drop]
    omega
  · rw [if_neg (by assumption), h, Nat.mul_zero, Nat.zero_add]

theorem observe_blocks {m : Move} (hm : m.resets = false) (h : History) (s t : State) :
    (h.observe m s t).blocks = h.blocks + (if m.isDelivery then 1 else 0) := by
  rw [History.observe, hm, if_neg Bool.false_ne_true]

/-- A run is in run mode throughout when it was so far and is after the step. -/
theorem observe_inRunMode (h : History) (m : Move) (s t : State) :
    (h.observe m s t).inRunMode = (h.inRunMode && t.run) := by
  unfold History.observe
  split <;> rfl

theorem step_accounted {s t : State} {h : History} (hs : s.Inv) (hrun : s.run = true) (hd : s.Drained)
    (hacc : h.Accounted s) (ht : step s = .next t) (hrun' : t.run = true) :
    (h.observe s.nextMove s t).Accounted t := by
  obtain ⟨hm, -⟩ := step_effect_of_run hs ht hrun'
  have hbytes := step_undemodulated hs hrun hd ht hrun'
  have hpass : PassesBytesOn s.nextMove s t := by
    rcases step_passesBytesOn hs ht with ⟨hreset, -⟩ | ⟨-, hpass⟩
    · cases hm.symm.trans hreset
    · exact hpass
  have hfill := fill_of_passesBytesOn hs.toDataInv (step_inv hs ht).toDataInv hpass
  have hsub : (h.observe s.nextMove s t).submitted.length =
      h.submitted.length + (if startsSubmission s.nextMove s t then 1 else 0) := by
    rw [observe_submitted hm, List.length_append]
    split <;> rfl
  have hblock : (if s.nextMove.isDelivery then 1 else 0) * s.params.blockWords =
      if s.nextMove.isDelivery then s.params.blockWords else 0 := by
    split <;> simp
  unfold History.Accounted at hacc ⊢
  rw [observe_blocks hm, hsub, step_params ht, Nat.add_mul, Nat.mul_add, hblock]
  omega

/-! ## Runs in run mode -/

/-- What a run keeps while it stays in run mode, under the parameters `p`. -/
def RunModeKept (p : Params) (s : State) (h : History) : Prop :=
  s.Inv ∧ s.params = p ∧ (h.inRunMode = true → s.run = true ∧ s.Drained ∧ h.Accounted s)

theorem step_runModeKept {p : Params} {s t : State} {h : History} (hk : RunModeKept p s h) (ht : step s = .next t) :
    RunModeKept p t (h.observe s.nextMove s t) := by
  obtain ⟨hs, hp, hkept⟩ := hk
  refine ⟨step_inv hs ht, (step_params ht).trans hp, fun hmode => ?_⟩
  rw [observe_inRunMode, Bool.and_eq_true] at hmode
  obtain ⟨hbefore, hrun'⟩ := hmode
  obtain ⟨hrun, hd, hacc⟩ := hkept hbefore
  exact ⟨hrun', step_drained hs hrun hd ht hrun', step_accounted hs hrun hd hacc ht hrun'⟩

/-- RUN right after reset: an empty accumulator, no block delivered, nothing submitted. -/
theorem runModeKept_start {p : Params} (hp : p.Wf) {ms : List Move} {s0 : State}
    (hrun : exec .run { State.resetOf p with agenda := ms } = .next s0) : RunModeKept p s0 (History.start true) := by
  have hready : State.Ready { State.resetOf p with agenda := ms } := ⟨rfl, rfl, rfl⟩
  obtain ⟨-, -, hexec, -⟩ := exec_ready (resetOf_placed_inv hp ms).toDataInv hready
  cases hexec.symm.trans hrun
  have hinv := requested_inv (resetOf_placed_inv hp ms) hready (op := .run) (.inr (.inr rfl))
  have hshort : 0 < p.chunk := hp.chunk.1
  refine ⟨hinv, rfl, fun _ => ⟨rfl, drained_of_short hshort, ?_⟩⟩
  simp [History.Accounted, History.start, startRequest, State.undemodulatedBytes]

/-- Settles O59: the step lemma, carried along the run; at a request no block waits and less than a chunk is left, so
FILL is the remainder of the delivered bytes. -/
theorem runModeOutputRate : Obligations.RunModeOutputRate := by
  refine ⟨fun s t h hs hrun hd hacc ht hrun' =>
    ⟨step_drained hs hrun hd ht hrun', step_accounted hs hrun hd hacc ht hrun'⟩, ?_⟩
  intro p ms k s0 s h hp hexec hrun hmode hacq
  obtain ⟨-, rfl, hkept⟩ := observedRun_induction (fun _ _ _ => step_runModeKept) hrun (runModeKept_start hp hexec)
  obtain ⟨-, ⟨hshort, -⟩, hacc⟩ := hkept hmode
  rw [History.Accounted, undemodulatedBytes_eq_zero (.inl hacq), Nat.add_zero, Nat.add_comm] at hacc
  obtain ⟨hdiv, hmod⟩ := (Nat.div_mod_unique hp.chunk.1).mpr ⟨hacc.symm, hshort (.inl hacq)⟩
  exact ⟨hdiv.symm, hmod.symm⟩

end Sys2Proof.Machine
end

section
/-! PROOF. The control commands: NOP and CLRST in every state with their words, and what a block that is not ready does
with a command (44_sequencer_control.md R170, R173, R174, R184). -/

namespace Sys2Proof.Machine

open Sys2Proof

/-! ## The words of the commands without operand -/

/-- A legal word under the opcode of a command without operand is that command's word. -/
theorem eq_encode_of_legalBits {c : Word} {i : Instr} (hc : LegalBits c) (hopc : opcOf c = i.opc)
    (hop : takesOperand i.opc = false) : c = encode i := by
  obtain ⟨hrsv, himm⟩ := hc
  calc c = immOf c ++ rsvOf c ++ opcOf c := (append_fields c).symm
    _ = i.imm ++ 0x00#8 ++ i.opc := by rw [himm (hopc ▸ hop), hrsv, hopc, Instr.imm_of_no_operand hop]
    _ = encode i := rfl

/-- Any other word under that opcode is refused with reason 1 (44_sequencer_control.md R170, check 1). -/
theorem takeMove_of_ne_encode {c : Word} {i : Instr} (hopc : opcOf c = i.opc) (hop : takesOperand i.opc = false)
    (hne : c ≠ encode i) (s : State) : takeMove (.hostWrite 0x00#8 c) s = .next (raiseBadcmd .illegalBits c s) :=
  takeMove_illegal (fun hc => hne (eq_encode_of_legalBits hc hopc hop)) s

/-! ## NOP -/

theorem exec_nop (s : State) : exec .nop s = .next s := rfl

/-- Settles O22. -/
theorem nopChangesNothing : Obligations.NopChangesNothing :=
  ⟨exec_nop, decodeOfEncodeIsTheCommand .nop rfl, fun _ s hopc hne => takeMove_of_ne_encode (i := .nop) hopc rfl hne s⟩

/-! ## CLRST -/

theorem exec_clrst (s : State) : exec .clrst s = .next (clearSticky s) := rfl

/-- The three enables are bits 10:8 of the IE register (10_state.md R36). -/
theorem ieReg_enable (s : State) {j : Nat} (hj : j < 3) : s.ieReg.getLsbD (8 + j) = s.ie.getLsbD j := by
  unfold State.ieReg
  show BitVec.getLsbD (w := 21 + 3 + 8) _ _ = _
  rw [BitVec.getLsbD_append, if_neg (by omega), BitVec.getLsbD_append, Nat.add_sub_cancel_left, if_pos hj]

/-- With the sticky flags clear only FATAL can hold the interrupt line (60_exceptions.md R205). -/
theorem irq_clearSticky (s : State) : (clearSticky s).irq = (s.fatal && s.ie.getLsbD 0) := by
  simp [State.irq, clearSticky]

/-- Settles O23: in the example IE enables BADCMD alone, so the line is up with it and down once it is clear. -/
theorem clrstClearsTheStickyFlags : Obligations.ClrstClearsTheStickyFlags := by
  refine ⟨exec_clrst, fun s t k c ht => ?_, fun s hbad _ hie => ?_, decodeOfEncodeIsTheCommand .clrst rfl,
    fun c s hopc hne => takeMove_of_ne_encode (i := .clrst) hopc rfl hne s⟩
  · cases (exec_clrst s).symm.trans ht
    exact ⟨rfl, rfl⟩
  · have henable (j : Nat) (hj : j < 3) : s.ie.getLsbD j = (0x200#32).getLsbD (8 + j) := by
      rw [← ieReg_enable s hj]
      exact congrArg (BitVec.getLsbD · (8 + j)) hie
    have hfatalIe : s.ie.getLsbD 0 = false := henable 0 (by decide)
    have hbadcmdIe : s.ie.getLsbD 1 = true := henable 1 (by decide)
    refine ⟨?_, _, exec_clrst s, ?_⟩
    · simp [State.irq, hbad, hbadcmdIe]
    · rw [irq_clearSticky, hfatalIe, Bool.and_false]

/-! ## A block that is not ready -/

theorem exec_faulted {i : Instr} (hi : i.always = false) {s : State} (hf : s.fatal = true) :
    exec i s = .next (raiseBadcmd .faulted (encode i) s) := by
  rw [exec_eq_accept, accept_faulted hi hf, toOutcome_ok]

theorem exec_busy {i : Instr} (hi : i.always = false) {s : State} (hf : s.fatal = false)
    (hb : s.state ≠ .idle ∨ s.run = true) : exec i s = .next (raiseBadcmd .busy (encode i) s) := by
  rw [exec_eq_accept, accept_busy hi hf hb, toOutcome_ok]

/-- Settles O26: the seven commands are those outside the always-accepted set, and the word recorded is the word
written. -/
theorem commandsAreRefusedWhileFaultedOrBusy : Obligations.CommandsAreRefusedWhileFaultedOrBusy := by
  intro c i s hdecode hi
  obtain ⟨-, rfl⟩ := encodeOfDecodeIsTheWord c i hdecode
  have halways : i.always = false := by
    rcases hi with rfl | rfl | ⟨n, rfl⟩ | rfl | rfl | rfl | rfl <;> rfl
  exact ⟨exec_faulted halways, exec_busy halways⟩

/-- A block that is not ready keeps its buffers and its sequencer under every command but SRST. -/
theorem exec_quiet {i : Instr} {s t : State} (hn : ¬ s.Ready) (hi : i ≠ .srst) (ht : exec i s = .next t) : Quiet s t := by
  rcases accept_cases (exec_eq_next.mp ht) with ⟨hrule, halways | hready⟩ | ⟨-, -, rfl⟩ | ⟨-, -, -, rfl⟩
  · cases i with
    | nop | tlook | clrst => cases hrule; rfl
    | srst => exact absurd rfl hi
    | _ => cases halways
  · exact absurd hready hn
  · rfl
  · rfl

theorem hostWrite_quiet {off : BitVec 8} {v : Word} {s t : State} (hn : ¬ s.Ready)
    (hm : (Move.hostWrite off v).resets = false) (ht : hostWrite off v s = .next t) : Quiet s t := by
  rcases hostWrite_cases ht with ⟨-, e, -, rfl⟩ | ⟨hr, i, hd, hexec⟩ | ⟨-, e, rfl⟩
  · rfl
  · refine exec_quiet hn (fun hi => ?_) hexec
    rw [resets_hostWrite hr hd, hi] at hm
    cases hm
  · rfl

/-! ## The end of run mode -/

theorem frameOrEnd_run {s t : State} (h : frameOrEnd s = .ok t) : t.run = s.run := by
  unfold frameOrEnd at h
  split at h
  · rw [frame_frame h]
  · cases h; exact endCycle_run s

theorem deliver_run {ws : List Word} {s t : State} (h : deliver ws s = .next t) : t.run = s.run := by
  unfold deliver at h
  split at h
  · cases h
  · split at h
    · cases h
    · cases h; exact afterDelivery_run _

theorem sinkAnswer_run {r : SinkAnswer} {s t : State} (h : sinkAnswer r s = .next t) : t.run = s.run := by
  unfold sinkAnswer at h
  split at h
  · cases h
  · rw [toOutcome_eq_next] at h
    unfold afterAnswer at h
    split at h
    · cases h; exact recordAnswer_run r s
    · exact (frameOrEnd_run h).trans (recordAnswer_run r s)

theorem sequencerStep_run {s t : State} (h : sequencerStep s = .next t) : t.run = s.run := by
  unfold sequencerStep at h
  split at h
  · rw [toOutcome_eq_next] at h
    unfold alignStep at h
    split at h
    · cases h
    · rename_i u hsync
      cases h
      show u.run = s.run
      rw [syncAlign_frame hsync]
  · rw [toOutcome_eq_next] at h
    unfold demodStep at h
    split at h
    · cases h
    · rename_i u hdemod
      rw [frameOrEnd_run h, demodulate_frame hdemod]
  all_goals cases h

/-- In run mode every move but an acquisition fault and a reset leaves run mode on. -/
theorem takeMove_run {m : Move} {s t : State} (hrun : s.run = true) (hfault : m ≠ .acqFault) (hm : m.resets = false)
    (ht : takeMove m s = .next t) : t.run = true := by
  rw [← hrun]
  cases m with
  | hostWrite off v => rw [hostWrite_quiet (not_ready_of_run hrun) hm ht]
  | hostRead off => cases ht; rfl
  | deliver ws => exact deliver_run ht
  | acqFault => exact absurd rfl hfault
  | sinkAnswer r => exact sinkAnswer_run ht
  | sequencer => exact sequencerStep_run ht
  | resetInput => cases hm

/-- Settles O50: a block in run mode is not ready, so a host write that is no reset is quiet. -/
theorem runModeEndsByFaultOrResetOnly : Obligations.RunModeEndsByFaultOrResetOnly := by
  refine ⟨fun s t hrun ht hend => ?_, fun s t off c hrun hm hreset ht => ?_⟩
  · have hadvance : s.advance.run = true := (advance_run s).trans hrun
    by_contra hother
    obtain ⟨hfault, hreset⟩ := not_or.mp hother
    cases hend.symm.trans (takeMove_run hadvance hfault (Bool.eq_false_of_not_eq_true hreset) ht)
  · rw [step, hm] at ht
    have hquiet : Quiet s.advance t :=
      hostWrite_quiet (not_ready_of_run ((advance_run s).trans hrun)) (hm ▸ hreset) ht
    rw [hquiet]
    simp only [advance_state, advance_seqOp, advance_raw, advance_cur, advance_acc, advance_fill, advance_pay,
      advance_pend, and_self]

end Sys2Proof.Machine
end

section
/-! PROOF. The table of STATE's transitions, row by row (44_sequencer_control.md R180). -/

namespace Sys2Proof.Machine

open Sys2Proof

/-! ## Commands -/

/-- An idle block that meets the invariant is ready. -/
theorem State.Inv.ready_of_idle {s : State} (h : s.Inv) (hs : s.state = .idle) : s.Ready := by
  have hseq := h.seqOk
  simp only [State.SeqOk, hs] at hseq
  obtain ⟨hop, -, hfatal⟩ := hseq
  have hrun : s.run ≠ true := fun hr => by cases hop.symm.trans (h.run.mp hr)
  exact ⟨hfatal, hs, Bool.eq_false_of_not_eq_true hrun⟩

/-- EMIT and DRAIN start a submission exactly with a whole chunk. -/
theorem startFraming_state {s : State} (hidle : s.state = .idle) (op : SeqOp) :
    (if s.fill < s.params.chunk then s else framed { s with seqOp := op }).state =
      if s.params.chunk ≤ s.fill then .emit else .idle := by
  split
  · rw [if_neg (by omega), hidle]
  · rw [if_pos (by omega)]; rfl

/-- A ready block goes where the table's rows from IDLE say. -/
theorem exec_state_of_ready {i : Instr} {s t : State} (h : s.DataInv) (hr : s.Ready) (ht : exec i s = .next t) :
    t.state = s.startState i := by
  obtain ⟨-, hidle, -⟩ := id hr
  obtain ⟨hacq, hcycle, hrun, halign, hdemod, hemit, hdrain⟩ := exec_ready h hr
  cases i with
  | nop | tlook | clrst => cases ht; exact hidle
  | srst => cases ht; rfl
  | acq => cases hacq.symm.trans ht; rfl
  | cycle => cases hcycle.symm.trans ht; rfl
  | run => cases hrun.symm.trans ht; rfl
  | align => rw [syncAlign_frame (toOutcome_eq_next.mp (halign.symm.trans ht)), hidle]; rfl
  | demod n => cases (hdemod n).symm.trans ht; exact hidle
  | emit => cases hemit.symm.trans ht; exact startFraming_state hidle .emit
  | drain => cases hdrain.symm.trans ht; exact startFraming_state hidle .drain

/-! ## The table, move by move -/

theorem tableState_of_resets {m : Move} (hm : m.resets = true) (s : State) : s.tableState m = .idle := if_pos hm

/-- The row of a command: from IDLE only. -/
theorem tableState_command {off : BitVec 8} {v : Word} {i : Instr} (hm : (Move.hostWrite off v).resets = false)
    (hr : regAt off = some .cmd) (hd : decode v = .ok i) (s : State) :
    s.tableState (.hostWrite off v) = if s.state = .idle then s.startState i else s.state := by
  simp [State.tableState, hm, hd, hr]

/-- No row speaks of a write that carries no command. -/
theorem tableState_no_command {off : BitVec 8} {v : Word} (hm : (Move.hostWrite off v).resets = false)
    (hn : regAt off = some .cmd → ∃ e, decode v = .error e) (s : State) :
    s.tableState (.hostWrite off v) = s.state := by
  by_cases hr : regAt off = some .cmd
  · obtain ⟨e, he⟩ := hn hr
    simp [State.tableState, hm, he]
  · cases hd : decode v <;> simp [State.tableState, hm, hd, hr]

theorem hostWrite_state {off : BitVec 8} {v : Word} {s t : State} (h : s.Inv)
    (hm : (Move.hostWrite off v).resets = false) (ht : hostWrite off v s = .next t) :
    t.state = s.tableState (.hostWrite off v) := by
  rcases hostWrite_cases ht with ⟨-, e, hd, rfl⟩ | ⟨hr, i, hd, hexec⟩ | ⟨hr, e, rfl⟩
  · rw [tableState_no_command hm fun _ => ⟨e, hd⟩, raiseBadcmd_state]
  · rw [tableState_command hm hr hd]
    split
    · exact exec_state_of_ready h.toDataInv (h.ready_of_idle ‹_›) hexec
    · rw [hostWrite_quiet (not_ready_of_state ‹_›) hm ht]
  · rw [tableState_no_command hm fun hr' => absurd hr' hr]

/-- EndCycle changes STATE and SEQ_OP only, by whether RUN goes on (44_sequencer_control.md R182). -/
theorem endCycle_eq (s : State) :
    endCycle s = { s with
      state := (if s.seqOp = .run then .acq else .idle)
      seqOp := (if s.seqOp = .run then s.seqOp else .none) } := by
  by_cases hop : s.seqOp = .run
  · simp only [endCycle, if_pos hop]
  · simp only [endCycle, if_neg hop]

/-- The rows of the agents' moves. -/
theorem effect_state {m : Move} {s t : State} (h : s.Inv) (hm : isHostAccess m = false) (he : Effect m s t) :
    t.state = s.tableState m := by
  cases he with
  | quiet host => cases hm.symm.trans host
  | requested | aligned | demodulated | framed => cases hm
  | delivered hs hl => simp [State.tableState, Move.resets, hs, afterDelivery_eq]
  | faulted hs => simp [State.tableState, Move.resets, hs]
  | emitAnswered hp hop => simp [State.tableState, Move.resets, h.pend.mp hp, hop]
  | answeredFramed hp hop chunk =>
    simp [State.tableState, Move.resets, h.pend.mp hp, hop, State.nextState, chunk, Machine.framed]
  | answeredEnded hp hop short =>
    simp [State.tableState, Move.resets, h.pend.mp hp, hop, State.nextState, Nat.not_le.mpr short, endCycle_eq]
  | sequencerAligned hs => simp [State.tableState, Move.resets, hs]
  | sequencerFramed hs chunk => simp [State.tableState, Move.resets, hs, State.nextState, chunk, Machine.framed]
  | sequencerEnded hs short =>
    simp [State.tableState, Move.resets, hs, State.nextState, Nat.not_le.mpr short, endCycle_eq,
      Machine.demodulated]

theorem takeMove_state {m : Move} {s t : State} (h : s.Inv) (ht : takeMove m s = .next t) :
    t.state = s.tableState m := by
  cases hm : m.resets with
  | true => rw [takeMove_of_resets hm ht, tableState_of_resets hm]; rfl
  | false =>
    have he := takeMove_effect h.toDataInv hm ht
    cases m with
    | hostWrite off v => exact hostWrite_state h hm ht
    | hostRead off => cases ht; rfl
    | deliver | acqFault | sinkAnswer | sequencer => exact effect_state h rfl he
    | resetInput => cases hm

/-- The table does not look at the moves still to come. -/
theorem tableState_advance (s : State) (m : Move) : s.advance.tableState m = s.tableState m := by
  have hstart (i : Instr) : s.advance.startState i = s.startState i := by cases i <;> simp [State.startState]
  have hnext (fill : Nat) : s.advance.nextState fill = s.nextState fill := by simp [State.nextState]
  have hcount (n : Nat) : s.advance.demodCount n = s.demodCount n := by
    simp [State.demodCount, State.pairsLeft, State.room]
  simp only [State.tableState, hstart, hnext, hcount, advance_state, advance_seqOp, advance_fill, advance_params]

/-- Settles O48. -/
theorem stateMovesByTheTable : Obligations.StateMovesByTheTable := fun s _ h ht =>
  (takeMove_state (advance_inv h) ht).trans (tableState_advance s s.nextMove)

end Sys2Proof.Machine
end

section
/-! PROOF. The sequencer's and the sink's steps written out: the aligner in ALIGN, Demodulate with what follows it in
DEMOD, and the continuation of a sink answer (44_sequencer_control.md R182, R183). -/

namespace Sys2Proof.Machine

open Sys2Proof

/-! ## ALIGN -/

/-- The sequencer's step in ALIGN, as a move. -/
theorem takeMove_sequencer_align {s u : State} (hs : s.state = .align) (hu : syncAlign s = .ok u) :
    takeMove .sequencer s = .next { u with state := .demod } :=
  (sequencerStep_align hs).trans (by rw [alignStep, hu, toOutcome_ok])

/-- A block just delivered has pairs left. -/
theorem cur_ne_of_fresh {s : State} (h : s.DataInv) (hc : s.cur = 0) : s.cur ≠ s.params.blockWords := by
  have hblock := h.params.blockWords.2.1
  omega

/-- Settles O42: the block is fresh, so its sync byte is held and decides between a correction and none. -/
theorem sequencerAlignsTheBlock : Obligations.SequencerAlignsTheBlock := by
  intro s h hs
  have hcur := cur_ne_of_fresh h.toDataInv (h.freshBlock (.inl hs))
  have hread := read_syncOffset h.toDataInv hcur
  have hstep := takeMove_sequencer_align hs (syncAlign_spec hcur h.params.syncOffset.1 hread)
  by_cases hm : s.syncByte &&& s.params.syncFlip = s.params.syncFlip
  · rw [if_pos hm] at hstep
    exact ⟨_, _, hread, hstep, fun _ => ⟨rfl, corrected_read_syncOffset s, fun _ => corrected_read_of_ne s⟩,
      fun hn => absurd hm hn⟩
  · rw [if_neg hm] at hstep
    exact ⟨_, _, hread, hstep, fun hm' => absurd hm' hm, fun _ => rfl⟩

/-! ## DEMOD -/

/-- On a fresh block the target and the block's end coincide, so CLAMP is set by any stop short of them. -/
theorem demodulated_fresh {s : State} (hc : s.cur = 0) :
    demodulated s.params.blockWords s = { s with
      acc := Memory.ofBytes 0 (s.acc.bytes ++ s.samples (s.demodCount s.params.blockWords))
      fill := s.fill + 2 * s.demodCount s.params.blockWords
      cur := 2 * s.demodCount s.params.blockWords
      clamp := decide (s.demodCount s.params.blockWords < s.params.blockWords / 2) } := by
  have hclamp : s.clampOf s.params.blockWords =
      decide (s.demodCount s.params.blockWords < s.params.blockWords / 2) := by
    rw [State.clampOf, demodWant, State.pairsLeft, hc, Nat.sub_zero, Bool.and_self]
  rw [demodulated, hclamp, hc, Nat.zero_add]

/-- Settles O43: Demodulate's bytes are framed with a whole chunk, and left in ACC with less. -/
theorem sequencerDemodulatesThenFramesOrEnds : Obligations.SequencerDemodulatesThenFramesOrEnds := by
  intro s h hs
  have hcur := h.freshBlock (.inr hs)
  have hpend := h.pend_eq_false (by rw [hs]; decide)
  have hstep := takeMove_sequencer_demod h.toDataInv hs
  dsimp only
  rw [← demodCount_fresh hcur]
  rw [demodulated_fresh hcur] at hstep
  refine ⟨_, hstep, ?_⟩
  by_cases hchunk : s.params.chunk ≤ s.fill + 2 * s.demodCount s.params.blockWords
  · rw [if_pos hchunk]
    refine ⟨rfl, fun _ => ⟨rfl, rfl, rfl, rfl, ?_, ?_⟩, fun hshort => absurd hchunk (Nat.not_le.mpr hshort)⟩ <;>
      simp only [framed, Memory.bytes_ofBytes]
  · rw [if_neg hchunk, endCycle_eq]
    refine ⟨rfl, fun hchunk' => absurd hchunk' hchunk, fun _ => ⟨hpend, rfl, rfl, Memory.bytes_ofBytes .., ?_, ?_⟩⟩ <;>
      intro hop <;> simp [hop]

/-! ## A sink answer -/

/-- Settles O41: the answer is counted, then EMIT ends, and any other operation frames a whole chunk or ends. -/
theorem sinkAnswerIsCountedAndTheOperationGoesOn : Obligations.SinkAnswerIsCountedAndTheOperationGoesOn := by
  intro s r h hpend
  have hstep : takeMove (.sinkAnswer r) s = _ := sinkAnswer_eq h.toDataInv hpend r
  refine ⟨_, hstep, ?_⟩
  by_cases hemit : s.seqOp = .emit
  · rw [if_pos hemit]
    refine ⟨by cases r <;> rfl, fun _ => ⟨?_, ?_, ?_, ?_, ?_, fun _ => ⟨rfl, rfl⟩⟩, fun hne => absurd hemit hne⟩
    · exact recordAnswer_pend r s
    · exact recordAnswer_acc r s
    · exact recordAnswer_fill r s
    · exact recordAnswer_pay r s
    · exact fun hop => by cases hemit.symm.trans hop
  · rw [if_neg hemit]
    by_cases hchunk : s.params.chunk ≤ s.fill
    · rw [if_pos hchunk]
      refine ⟨by cases r <;> rfl, fun hend => absurd hend (not_or.mpr ⟨hemit, Nat.not_lt.mpr hchunk⟩),
        fun _ _ => ⟨rfl, rfl, ?_, ?_, ?_, ?_⟩⟩ <;> simp [framed]
    · rw [if_neg hchunk, endCycle_eq, recordAnswer_seqOp]
      refine ⟨by cases r <;> rfl, fun _ => ⟨recordAnswer_pend r s, recordAnswer_acc r s, recordAnswer_fill r s,
        recordAnswer_pay r s, ?_, ?_⟩, fun _ hchunk' => absurd hchunk' hchunk⟩ <;> intro hop <;> simp [hop]

end Sys2Proof.Machine
end

section
/-! PROOF. The pseudo-instruction `step` and CYCLE reach the same state: move by move the two runs hold the same block,
under another STATE and SEQ_OP (30_encoding.md section 3 and R85, 44_sequencer_control.md R171). -/

namespace Sys2Proof.Machine

open Sys2Proof

/-! ## The same block under another operation -/

/-- The same block with the sequencer in another state of another operation, and other moves still to come. -/
def State.under (s : State) (q : SeqState) (op : SeqOp) (ms : List Move) : State :=
  { s with state := q, seqOp := op, agenda := ms }

/-- The block and the cursor just after a delivery (41_acquire_align.md R112). -/
def State.received (s : State) (ws : List Word) : State :=
  { s with raw := Memory.ofBytes 0 (blockBytes ws), cur := 0, blkCnt := s.blkCnt + 1 }

/-- A whole chunk submitted by `op`, or the operation over with less (43_accumulator_framer.md R155, R156). -/
def State.framedOrIdle (s : State) (op : SeqOp) (ms : List Move) : State :=
  if s.fill < s.params.chunk then s.under .idle .none ms else (framed s).under .emit op ms

theorem under_self {s : State} (hs : s.state = .idle) (hop : s.seqOp = .none) (ms : List Move) :
    { s with agenda := ms } = s.under .idle .none ms := by rw [State.under, ← hs, ← hop]

theorem under_ready {s : State} (hf : s.fatal = false) (hr : s.run = false) (ms : List Move) :
    (s.under .idle .none ms).Ready := ⟨hf, rfl, hr⟩

theorem under_dataInv {s : State} (h : s.DataInv) (q : SeqState) (op : SeqOp) (ms : List Move) :
    (s.under q op ms).DataInv := dataInv_congr h rfl rfl rfl rfl rfl rfl

theorem received_dataInv {s : State} {ws : List Word} (h : s.DataInv) (hl : ws.length = s.params.blockWords) :
    (s.received ws).DataInv := by
  have hwhole := Memory.whole_ofBytes (blockBytes ws)
  rw [blockBytes_length, hl] at hwhole
  exact ⟨h.params, .inl hwhole, Nat.zero_le _, rfl, h.acc, h.fillLe, h.pay⟩

/-- The aligner does not look at the operation in progress. -/
theorem syncAlign_under {s u : State} (h : s.DataInv) (hu : syncAlign s = .ok u) (q : SeqState) (op : SeqOp)
    (ms : List Move) : syncAlign (s.under q op ms) = .ok (u.under q op ms) := by
  by_cases hc : s.cur = s.params.blockWords
  · rw [syncAlign_exhausted hc] at hu
    cases hu
    exact syncAlign_exhausted (s := s.under q op ms) hc
  · obtain ⟨b, hb, ho, -⟩ := syncByte_held h hc
    rw [syncAlign_spec hc ho hb] at hu
    cases hu
    rw [syncAlign_spec (s := s.under q op ms) hc ho hb, apply_ite (State.under · q op ms)]
    rfl

theorem recordAnswer_under (r : SinkAnswer) (s : State) (q : SeqState) (op : SeqOp) (ms : List Move) :
    recordAnswer r (s.under q op ms) = (recordAnswer r s).under q op ms := by cases r <;> rfl

/-- Framing the next chunk or ending the cycle, for an operation that ends in IDLE. -/
theorem framedOrIdle_eq {op : SeqOp} (hop : op ≠ .run) (s : State) (q : SeqState) (ms : List Move) :
    (if s.params.chunk ≤ s.fill then framed (s.under q op ms) else endCycle (s.under q op ms)) =
      s.framedOrIdle op ms := by
  rw [endCycle_of_not_run (s := s.under q op ms) hop, State.framedOrIdle]
  split
  · rw [if_neg (Nat.not_lt.mpr ‹_›)]; rfl
  · rw [if_pos (Nat.not_le.mp ‹_›)]; rfl

/-! ## One step of either run -/

section

variable {s : State} {ms : List Move}

theorem step_under (m : Move) (q : SeqState) (op : SeqOp) :
    step (s.under q op (m :: ms)) = takeMove m (s.under q op ms) := step_placed rfl

/-- A command placed is run by the next step. -/
theorem step_cmd {i : Instr} (hi : i.wf = true) (q : SeqState) (op : SeqOp) :
    step (s.under q op (Move.cmd i :: ms)) = exec i (s.under q op ms) :=
  stepRunsTheDecodedCommand _ 0x00#8 (encode i) ms i rfl rfl (decodeOfEncodeIsTheCommand i hi)

/-- A command placed for an idle block follows its own rule. -/
theorem step_cmd_idle {i : Instr} (hi : i.wf = true) (hf : s.fatal = false) (hr : s.run = false) :
    step (s.under .idle .none (Move.cmd i :: ms)) = toOutcome (commandRule i (s.under .idle .none ms)) :=
  (step_cmd hi .idle .none).trans (exec_of_ready (under_ready hf hr ms) i)

theorem step_cmd_align {u : State} (h : s.DataInv) (hf : s.fatal = false) (hr : s.run = false)
    (hu : syncAlign s = .ok u) :
    step (s.under .idle .none (Move.cmd .align :: ms)) = .next (u.under .idle .none ms) :=
  (step_cmd_idle rfl hf hr).trans (congrArg toOutcome (syncAlign_under h hu .idle .none ms))

theorem step_cmd_demod {n : Nat} (h : s.DataInv) (hf : s.fatal = false) (hr : s.run = false) (hn : n ≤ 65535) :
    step (s.under .idle .none (Move.cmd (.demod n) :: ms)) = .next ((demodulated n s).under .idle .none ms) :=
  (step_cmd_idle (i := .demod n) (decide_eq_true hn) hf hr).trans
    (congrArg toOutcome (demodulate_eq (under_dataInv h .idle .none ms) n))

theorem step_cmd_drain (h : s.DataInv) (hf : s.fatal = false) (hr : s.run = false) :
    step (s.under .idle .none (Move.cmd .drain :: ms)) = .next (s.framedOrIdle .drain ms) :=
  (step_cmd_idle rfl hf hr).trans (congrArg toOutcome (startFraming_eq (under_dataInv h .idle .none ms) .drain))

theorem step_delivery {ws : List Word} (hl : ws.length = s.params.blockWords) (op : SeqOp) :
    step (s.under .acq op (.deliver ws :: ms)) =
      .next ((s.received ws).under (if op = .acq then .idle else .align) (if op = .acq then .none else op) ms) := by
  rw [step_under]
  exact (deliver_eq (s := s.under .acq op ms) rfl hl).trans (congrArg _ (afterDelivery_eq _))

theorem step_sequencer_align {u : State} (h : s.DataInv) (hu : syncAlign s = .ok u) (op : SeqOp) :
    step (s.under .align op (.sequencer :: ms)) = .next (u.under .demod op ms) := by
  rw [step_under]
  exact takeMove_sequencer_align rfl (syncAlign_under h hu .align op ms)

theorem step_sequencer_demod (h : s.DataInv) {op : SeqOp} (hop : op ≠ .run) :
    step (s.under .demod op (.sequencer :: ms)) = .next ((demodulated s.params.blockWords s).framedOrIdle op ms) := by
  rw [step_under, takeMove_sequencer_demod (under_dataInv h .demod op ms) rfl]
  exact congrArg _ (framedOrIdle_eq hop (demodulated s.params.blockWords s) .demod ms)

theorem step_answer (h : s.DataInv) (hp : s.pend = true) {op : SeqOp} (hemit : op ≠ .emit) (hop : op ≠ .run)
    (r : SinkAnswer) :
    step (s.under .emit op (.sinkAnswer r :: ms)) = .next ((recordAnswer r s).framedOrIdle op ms) := by
  rw [step_under]
  refine (sinkAnswer_eq (under_dataInv h .emit op ms) hp r).trans ?_
  have hnot : (s.under .emit op ms).seqOp ≠ .emit := hemit
  rw [if_neg hnot, recordAnswer_under, ← framedOrIdle_eq hop (recordAnswer r s) .emit ms, recordAnswer_params,
    recordAnswer_fill]
  rfl

end

/-! ## The two runs up to the first submission -/

/-- 65535 bytes are a whole block at least (30_encoding.md R85), so DEMOD.ALL is the sequencer's Demodulate. -/
theorem demodulated_all {s : State} (hc : s.cur = 0) (hb : s.params.blockWords ≤ 65535) :
    demodulated 65535 s = demodulated s.params.blockWords s := by
  have hpairs : s.pairsLeft = s.params.blockWords / 2 := by rw [State.pairsLeft, hc, Nat.sub_zero]
  have hcount : s.demodCount 65535 = s.demodCount s.params.blockWords := by
    rw [State.demodCount, State.demodCount, demodWant, demodWant, hpairs]
    omega
  have hclamp : s.clampOf 65535 = s.clampOf s.params.blockWords := by
    rw [Bool.eq_iff_iff, clampOf_iff, clampOf_iff, hcount, hpairs]
    omega
  rw [demodulated, demodulated, hcount, hclamp]

/-- What both runs find: an idle block, not faulted and not in run mode, and a block to deliver that aligns to `u`. -/
structure CycleStart (s : State) (ws : List Word) (u : State) : Prop where
  data : s.DataInv
  fatal : s.fatal = false
  run : s.run = false
  small : s.params.blockWords ≤ 65535
  whole : ws.length = s.params.blockWords
  aligned : syncAlign (s.received ws) = .ok u

theorem CycleStart.received_data {s u : State} {ws : List Word} (h : CycleStart s ws u) : (s.received ws).DataInv :=
  received_dataInv h.data h.whole

/-- The aligned block is fresh and the block's flags are as they were. -/
theorem CycleStart.aligned_frame {s u : State} {ws : List Word} (h : CycleStart s ws u) :
    u.DataInv ∧ u.fatal = false ∧ u.run = false ∧ u.cur = 0 ∧ u.params = s.params := by
  have hparams : u.params = (s.received ws).params := syncAlign_params h.aligned
  refine ⟨syncAlign_dataInv h.received_data h.aligned, ?_, ?_, ?_, hparams⟩ <;>
    rw [syncAlign_frame h.aligned]
  · exact h.fatal
  · exact h.run
  · rfl

/-- ACQ, the delivery, ALIGN, DEMOD.ALL and DRAIN: the block is decoded, and a whole chunk framed. -/
theorem runSteps_hostSteppedCycle {s u : State} {ws : List Word} (h : CycleStart s ws u) (rs : List SinkAnswer)
    (k : Nat) :
    runSteps (5 + k) (s.under .idle .none (hostSteppedCycle ws rs)) =
      runSteps k ((demodulated u.params.blockWords u).framedOrIdle .drain (rs.map .sinkAnswer)) := by
  obtain ⟨hdata, hfatal, hrun, hcur, hparams⟩ := h.aligned_frame
  have hall := demodulated_all hcur (hparams ▸ h.small)
  have hdecoded : (demodulated 65535 u).DataInv := demodulated_dataInv hdata 65535
  rw [Nat.add_comm, ← hall]
  calc runSteps (k + 5) (s.under .idle .none (hostSteppedCycle ws rs))
      = runSteps (k + 4) (s.under .acq .acq
          (.deliver ws :: Move.cmd .align :: Move.cmd .demodAll :: Move.cmd .drain :: rs.map .sinkAnswer)) :=
        runSteps_succ (step_cmd_idle (i := .acq) rfl h.fatal h.run)
    _ = runSteps (k + 3) ((s.received ws).under .idle .none
          (Move.cmd .align :: Move.cmd .demodAll :: Move.cmd .drain :: rs.map .sinkAnswer)) :=
        runSteps_succ (step_delivery h.whole .acq)
    _ = runSteps (k + 2) (u.under .idle .none (Move.cmd .demodAll :: Move.cmd .drain :: rs.map .sinkAnswer)) :=
        runSteps_succ (step_cmd_align h.received_data h.fatal h.run h.aligned)
    _ = runSteps (k + 1) ((demodulated 65535 u).under .idle .none (Move.cmd .drain :: rs.map .sinkAnswer)) :=
        runSteps_succ (step_cmd_demod hdata hfatal hrun (Nat.le_refl _))
    _ = runSteps k ((demodulated 65535 u).framedOrIdle .drain (rs.map .sinkAnswer)) :=
        runSteps_succ (step_cmd_drain hdecoded hfatal hrun)

/-- CYCLE, the delivery and the sequencer's two steps do the same. -/
theorem runSteps_sequencedCycle {s u : State} {ws : List Word} (h : CycleStart s ws u) (rs : List SinkAnswer)
    (k : Nat) :
    runSteps (4 + k) (s.under .idle .none (sequencedCycle ws rs)) =
      runSteps k ((demodulated u.params.blockWords u).framedOrIdle .cycle (rs.map .sinkAnswer)) := by
  obtain ⟨hdata, -⟩ := h.aligned_frame
  rw [Nat.add_comm]
  calc runSteps (k + 4) (s.under .idle .none (sequencedCycle ws rs))
      = runSteps (k + 3) (s.under .acq .cycle (.deliver ws :: .sequencer :: .sequencer :: rs.map .sinkAnswer)) :=
        runSteps_succ (step_cmd_idle (i := .cycle) rfl h.fatal h.run)
    _ = runSteps (k + 2) ((s.received ws).under .align .cycle (.sequencer :: .sequencer :: rs.map .sinkAnswer)) :=
        runSteps_succ (step_delivery h.whole .cycle)
    _ = runSteps (k + 1) (u.under .demod .cycle (.sequencer :: rs.map .sinkAnswer)) :=
        runSteps_succ (step_sequencer_align h.received_data h.aligned .cycle)
    _ = runSteps k ((demodulated u.params.blockWords u).framedOrIdle .cycle (rs.map .sinkAnswer)) :=
        runSteps_succ (step_sequencer_demod hdata (by decide))

/-! ## The answers -/

/-- The same answers lead a DRAIN and a CYCLE to the same block: the two differ in SEQ_OP while a submission is
outstanding, and not at all once idle. -/
theorem answers_agree {rs : List SinkAnswer} {s t : State} (h : s.DataInv)
    (ht : runSteps rs.length (s.framedOrIdle .drain (rs.map .sinkAnswer)) = .next t) :
    ∃ u, runSteps rs.length (s.framedOrIdle .cycle (rs.map .sinkAnswer)) = .next u ∧
      u = { t with seqOp := u.seqOp } ∧ (t.state = .idle → u = t) := by
  induction rs generalizing s with
  | nil =>
    cases ht
    refine ⟨_, rfl, ?_⟩
    unfold State.framedOrIdle
    split
    · exact ⟨rfl, fun _ => rfl⟩
    · exact ⟨rfl, fun hidle => by cases hidle⟩
  | cons r rs ih =>
    by_cases hshort : s.fill < s.params.chunk
    · rw [State.framedOrIdle, if_pos hshort] at ht ⊢
      exact ⟨t, ht, rfl, fun _ => rfl⟩
    · have hdata := (framed_dataInv h (Nat.not_lt.mp hshort)).1
      rw [State.framedOrIdle, if_neg hshort] at ht ⊢
      have hdrain := step_answer (ms := rs.map .sinkAnswer) hdata rfl (op := .drain) (by decide) (by decide) r
      have hcycle := step_answer (ms := rs.map .sinkAnswer) hdata rfl (op := .cycle) (by decide) (by decide) r
      rw [List.length_cons, List.map_cons, runSteps_succ hdrain] at ht
      rw [List.length_cons, List.map_cons, runSteps_succ hcycle]
      exact ih (recordAnswer_dataInv hdata r) ht

/-- Settles O60: both runs reach the decoded block, one under DRAIN and one under CYCLE, and the answers are taken
alike from there. -/
theorem hostSteppedCycleEqualsCycle : Obligations.HostSteppedCycleEqualsCycle := by
  intro s ws rs h hr hsmall hl
  have hop : s.seqOp = .none := h.seqOpNone.mpr (.inl hr.2.1)
  obtain ⟨_, _, _, haligned⟩ := syncAlign_completes (received_dataInv h.toDataInv hl)
  have hstart : CycleStart s ws _ := ⟨h.toDataInv, hr.1, hr.2.2, hsmall, hl, haligned⟩
  obtain ⟨hdata, -⟩ := hstart.aligned_frame
  rw [under_self hr.2.1 hop, under_self hr.2.1 hop, runSteps_hostSteppedCycle hstart, runSteps_sequencedCycle hstart]
  exact ⟨⟨_, runSteps_hostSteppedCycle hstart rs 0⟩, fun t => answers_agree (demodulated_dataInv hdata _)⟩

end Sys2Proof.Machine
end

section
/-! PROOF. Exceptions (60_exceptions.md): a word that is no command, the interrupt line, an acquisition fault, and how
long FAULT and the sticky flags last. -/

namespace Sys2Proof.Machine

open Sys2Proof

/-! ## Every step keeps the invariant -/

/-- Settles O44: a step is a reset or one of the effects of `Effect`, and each keeps the invariant. -/
theorem everyStepKeepsTheInvariant : Obligations.EveryStepKeepsTheInvariant := fun _ _ => step_inv

/-! ## A word that is no command -/

/-- The first reason and word are kept (60_exceptions.md R201): a refusal after a refusal changes nothing. -/
theorem raiseBadcmd_of_recorded {s : State} (h : s.badcmd = true) (k : BadCode) (c : Word) : raiseBadcmd k c s = s := by
  simp only [raiseBadcmd, if_pos h]
  rw [← h]

theorem raiseBadcmd_of_clear {s : State} (h : s.badcmd = false) (k : BadCode) (c : Word) :
    raiseBadcmd k c s = { s with badcmd := true, badcode := k, lastbad := c } := by
  simp [raiseBadcmd, h]

/-- Settles O6: the placed move is a host write to CMD, which records the word. -/
theorem stepRecordsAWordThatIsNoCommand : Obligations.StepRecordsAWordThatIsNoCommand := by
  intro s off c rest e hagenda hoff hdecode
  have hstep : step s = .next (raiseBadcmd (refusalReason e) c { s with agenda := rest }) :=
    (step_placed hagenda).trans (hostWrite_no_command (regAt_cmd hoff) hdecode _)
  refine ⟨fun hbad => ?_, fun hbad => ?_⟩
  · rw [hstep, raiseBadcmd_of_recorded (s := { s with agenda := rest }) hbad]
  · rw [hstep, raiseBadcmd_of_clear (s := { s with agenda := rest }) hbad]
    cases e <;> rfl

/-! ## The interrupt line -/

/-- The interrupt line, from what the host reads: the flags at bits 8, 9 and 10 of STATUS and their enables at the same
bits of IE. -/
theorem irq_eq (s : State) :
    s.irq = ((s.status.getLsbD 8 && s.ieReg.getLsbD 8) || (s.status.getLsbD 9 && s.ieReg.getLsbD 9) ||
      (s.status.getLsbD 10 && s.ieReg.getLsbD 10)) := by
  have hfatal : s.status.getLsbD 8 = s.fatal := status_flag s 5 (by decide)
  have hbadcmd : s.status.getLsbD 9 = s.badcmd := status_flag s 6 (by decide)
  have hdrop : s.status.getLsbD 10 = s.drop := status_flag s 7 (by decide)
  have hfatalIe : s.ieReg.getLsbD 8 = s.ie.getLsbD 0 := ieReg_enable s (j := 0) (by decide)
  have hbadcmdIe : s.ieReg.getLsbD 9 = s.ie.getLsbD 1 := ieReg_enable s (j := 1) (by decide)
  have hdropIe : s.ieReg.getLsbD 10 = s.ie.getLsbD 2 := ieReg_enable s (j := 2) (by decide)
  rw [hfatal, hbadcmd, hdrop, hfatalIe, hbadcmdIe, hdropIe, State.irq]

theorem irq_of_no_enable {s : State} (h : s.ie = 0#3) : s.irq = false := by simp [State.irq, h]

/-- Settles O21: a write of 0 to IE and reset both leave no enable set. -/
theorem interruptLineFollowsFlagsAndEnables : Obligations.InterruptLineFollowsFlagsAndEnables := by
  intro s
  refine ⟨?_, ⟨_, exec_clrst s, ?_⟩, ⟨_, takeMove_resetInput s, irq_of_no_enable rfl⟩, ⟨_, rfl, irq_of_no_enable rfl⟩⟩
  · have hstatus : s.hostReadValue 0x04#8 = s.status := rfl
    have hie : s.hostReadValue 0x08#8 = s.ieReg := rfl
    rw [hstatus, hie, irq_eq]
    simp only [Bool.or_eq_true, Bool.and_eq_true, or_assoc]
  · rw [irq_clearSticky, Bool.and_eq_true]

/-! ## An acquisition fault -/

/-- Settles O40: a block request is outstanding in ACQ only, where no submission is. -/
theorem acquisitionFaultEntersFault : Obligations.AcquisitionFaultEntersFault := by
  intro s h hreq
  have hacq : s.state = .acq := of_decide_eq_true hreq
  exact ⟨acqFault_eq hacq, h.pend_eq_false (by rw [hacq]; decide)⟩

/-! ## FAULT lasts until reset -/

/-- In FAULT no agent but the host has a step, and the host's accesses leave the buffers and the sequencer alone. -/
theorem takeMove_quiet_of_fault {m : Move} {s t : State} (hs : s.state = .fault) (hpend : s.pend = false)
    (hm : m.resets = false) (ht : takeMove m s = .next t) : Quiet s t := by
  have he := enabled_of_takeMove ht
  cases m with
  | hostWrite off v => exact hostWrite_quiet (not_ready_of_state (by rw [hs]; decide)) hm ht
  | hostRead off => cases ht; rfl
  | deliver ws => cases hs.symm.trans he.1
  | acqFault => cases hs.symm.trans he
  | sinkAnswer r => cases hpend.symm.trans he
  | sequencer => rcases he with he | he <;> cases hs.symm.trans he
  | resetInput => cases hm

/-! ## The sticky flags last until their clears -/

/-- FATAL, a recorded refusal with its reason and word, and DROP last from one state to the other (60_exceptions.md
R207). -/
structure StickyKept (s t : State) : Prop where
  fatal : s.fatal = true → t.fatal = true
  record : s.badcmd = true → t.badcmd = true ∧ t.badcode = s.badcode ∧ t.lastbad = s.lastbad
  drop : s.drop = true → t.drop = true

/-- A step that leaves the sticky elements alone keeps them. -/
theorem StickyKept.of_eq {s t : State} (hfatal : t.fatal = s.fatal) (hbadcmd : t.badcmd = s.badcmd)
    (hbadcode : t.badcode = s.badcode) (hlastbad : t.lastbad = s.lastbad) (hdrop : t.drop = s.drop) : StickyKept s t :=
  ⟨hfatal.trans, fun h => ⟨hbadcmd.trans h, hbadcode, hlastbad⟩, hdrop.trans⟩

theorem StickyKept.trans {s t u : State} (h : StickyKept s t) (h' : StickyKept t u) : StickyKept s u where
  fatal hs := h'.fatal (h.fatal hs)
  record hs :=
    have ⟨hbadcmd, hbadcode, hlastbad⟩ := h.record hs
    have ⟨hbadcmd', hbadcode', hlastbad'⟩ := h'.record hbadcmd
    ⟨hbadcmd', hbadcode'.trans hbadcode, hlastbad'.trans hlastbad⟩
  drop hs := h'.drop (h.drop hs)

/-! ### The events and the shared rules -/

/-- A refusal keeps the first reason and word (60_exceptions.md R201). -/
theorem raiseBadcmd_sticky (k : BadCode) (c : Word) (s : State) : StickyKept s (raiseBadcmd k c s) where
  fatal := id
  record h := ⟨rfl, if_pos h, if_pos h⟩
  drop := id

theorem raiseAcqFault_sticky (s : State) : StickyKept s (raiseAcqFault s) where
  fatal _ := rfl
  record h := ⟨h, rfl, rfl⟩
  drop := id

theorem recordAnswer_sticky (r : SinkAnswer) (s : State) : StickyKept s (recordAnswer r s) where
  fatal := (recordAnswer_fatal r s).trans
  record h := ⟨(recordAnswer_badcmd r s).trans h, recordAnswer_badcode r s, recordAnswer_lastbad r s⟩
  drop h := by cases r with
    | ok => exact h
    | error => rfl

theorem syncAlign_sticky {s t : State} (h : syncAlign s = .ok t) : StickyKept s t := by
  rw [syncAlign_frame h]; exact .of_eq rfl rfl rfl rfl rfl

theorem demodulate_sticky {n : Nat} {s t : State} (h : demodulate n s = .ok t) : StickyKept s t := by
  rw [demodulate_frame h]; exact .of_eq rfl rfl rfl rfl rfl

theorem frame_sticky {s t : State} (h : frame s = .ok t) : StickyKept s t := by
  rw [frame_frame h]; exact .of_eq rfl rfl rfl rfl rfl

theorem startFraming_sticky {op : SeqOp} {s t : State} (h : startFraming op s = .ok t) : StickyKept s t := by
  unfold startFraming at h
  split at h
  · cases h; exact .of_eq rfl rfl rfl rfl rfl
  · have hop : StickyKept s { s with seqOp := op } := .of_eq rfl rfl rfl rfl rfl
    exact hop.trans (frame_sticky h)

theorem frameOrEnd_sticky {s t : State} (h : frameOrEnd s = .ok t) : StickyKept s t := by
  unfold frameOrEnd at h
  split at h
  · exact frame_sticky h
  · cases h; exact .of_eq (by simp) (by simp) (by simp) (by simp) (by simp)

/-! ### The moves -/

/-- CLRST and SRST are the only commands whose rule clears a sticky flag (44_sequencer_control.md R174, R175). -/
theorem commandRule_sticky {i : Instr} {s t : State} (hclrst : i ≠ .clrst) (hsrst : i ≠ .srst)
    (h : commandRule i s = .ok t) : StickyKept s t := by
  cases i with
  | align => exact syncAlign_sticky h
  | demod n => exact demodulate_sticky h
  | emit | drain => exact startFraming_sticky h
  | nop | acq | cycle | run | tlook => cases h; exact .of_eq rfl rfl rfl rfl rfl
  | clrst => exact absurd rfl hclrst
  | srst => exact absurd rfl hsrst

theorem exec_sticky {i : Instr} {s t : State} (hclrst : i ≠ .clrst) (hsrst : i ≠ .srst) (h : exec i s = .next t) :
    StickyKept s t := by
  rcases accept_cases (exec_eq_next.mp h) with ⟨hrule, -⟩ | ⟨-, -, rfl⟩ | ⟨-, -, -, rfl⟩
  · exact commandRule_sticky hclrst hsrst hrule
  · exact raiseBadcmd_sticky _ _ s
  · exact raiseBadcmd_sticky _ _ s

/-- The move is the host's write of the CLRST command. -/
def IsClrst (m : Move) : Prop :=
  ∃ off v, m = .hostWrite off v ∧ regAt off = some .cmd ∧ decode v = .ok .clrst

/-- A host write keeps the sticky flags, or is CLRST or a reset. -/
theorem hostWrite_sticky {off : BitVec 8} {v : Word} {s t : State} (hm : (Move.hostWrite off v).resets = false)
    (ht : hostWrite off v s = .next t) :
    StickyKept s t ∨ (IsClrst (.hostWrite off v) ∧ t = clearSticky s) := by
  rcases hostWrite_cases ht with ⟨-, e, -, rfl⟩ | ⟨hr, i, hd, hexec⟩ | ⟨-, e, rfl⟩
  · exact .inl (raiseBadcmd_sticky _ v s)
  · by_cases hclrst : i = .clrst
    · subst hclrst
      cases (exec_clrst s).symm.trans hexec
      exact .inr ⟨⟨off, v, rfl, hr, hd⟩, rfl⟩
    · have hsrst : i ≠ .srst := fun hi => by
        rw [resets_hostWrite hr hd, hi] at hm
        cases hm
      exact .inl (exec_sticky hclrst hsrst hexec)
  · exact .inl (.of_eq rfl rfl rfl rfl rfl)

theorem deliver_sticky {ws : List Word} {s t : State} (h : deliver ws s = .next t) : StickyKept s t := by
  obtain ⟨hs, hl⟩ := enabled_of_takeMove (m := .deliver ws) h
  cases (deliver_eq hs hl).symm.trans h
  exact .of_eq (by simp) (by simp) (by simp) (by simp) (by simp)

theorem acqFault_sticky {s t : State} (h : acqFault s = .next t) : StickyKept s t := by
  cases (acqFault_eq (enabled_of_takeMove (m := .acqFault) h)).symm.trans h
  exact raiseAcqFault_sticky s

theorem afterAnswer_sticky {s t : State} (h : afterAnswer s = .ok t) : StickyKept s t := by
  unfold afterAnswer at h
  split at h
  · cases h; exact .of_eq rfl rfl rfl rfl rfl
  · exact frameOrEnd_sticky h

theorem sinkAnswer_sticky {r : SinkAnswer} {s t : State} (h : sinkAnswer r s = .next t) : StickyKept s t := by
  unfold sinkAnswer at h
  split at h
  · cases h
  · exact (recordAnswer_sticky r s).trans (afterAnswer_sticky (toOutcome_eq_next.mp h))

theorem alignStep_sticky {s t : State} (h : alignStep s = .ok t) : StickyKept s t := by
  unfold alignStep at h
  split at h
  · cases h
  · rename_i u hsync
    cases h
    exact (syncAlign_sticky hsync).trans (.of_eq rfl rfl rfl rfl rfl)

theorem demodStep_sticky {s t : State} (h : demodStep s = .ok t) : StickyKept s t := by
  unfold demodStep at h
  split at h
  · cases h
  · rename_i u hdemod
    exact (demodulate_sticky hdemod).trans (frameOrEnd_sticky h)

theorem sequencerStep_sticky {s t : State} (h : sequencerStep s = .next t) : StickyKept s t := by
  unfold sequencerStep at h
  split at h
  · exact alignStep_sticky (toOutcome_eq_next.mp h)
  · exact demodStep_sticky (toOutcome_eq_next.mp h)
  all_goals cases h

/-- What a move that is no reset can do to the sticky flags, whatever the state. -/
theorem takeMove_sticky {m : Move} {s t : State} (hm : m.resets = false) (ht : takeMove m s = .next t) :
    StickyKept s t ∨ (IsClrst m ∧ t = clearSticky s) := by
  cases m with
  | hostWrite off v => exact hostWrite_sticky hm ht
  | hostRead off => cases ht; exact .inl (.of_eq rfl rfl rfl rfl rfl)
  | deliver ws => exact .inl (deliver_sticky ht)
  | acqFault => exact .inl (acqFault_sticky ht)
  | sinkAnswer r => exact .inl (sinkAnswer_sticky ht)
  | sequencer => exact .inl (sequencerStep_sticky ht)
  | resetInput => cases hm

theorem advance_sticky (s : State) : StickyKept s s.advance :=
  .of_eq (advance_fatal s) (advance_badcmd s) (advance_badcode s) (advance_lastbad s) (advance_drop s)

/-- What a step that is no reset can do to the sticky flags, whatever the state. -/
theorem step_sticky {s t : State} (hm : s.nextMove.resets = false) (ht : step s = .next t) :
    StickyKept s t ∨ (IsClrst s.nextMove ∧ t = clearSticky s.advance) :=
  (takeMove_sticky hm ht).imp_left (advance_sticky s).trans

/-- Settles O49: in FAULT only the host has a step, and it is quiet; in every state only CLRST and reset clear a sticky
flag, and CLRST leaves FATAL. -/
theorem faultAndStickyFlagsLastUntilTheirClears : Obligations.FaultAndStickyFlagsLastUntilTheirClears := by
  refine ⟨fun s t h hs ht hm => ?_, fun s t ht hm => ⟨fun hf => ?_, fun hno => ?_⟩⟩
  · have hpend : s.pend = false := h.pend_eq_false (by rw [hs]; decide)
    have hquiet : Quiet s.advance t :=
      takeMove_quiet_of_fault ((advance_state s).trans hs) ((advance_pend s).trans hpend) hm ht
    rw [hquiet]
    exact ⟨(advance_state s).trans hs, (advance_fatal s).trans (h.fatal.mpr hs), advance_acc s, advance_fill s,
      (advance_pend s).trans hpend⟩
  · rcases step_sticky hm ht with hkept | ⟨-, rfl⟩
    · exact hkept.fatal hf
    · rw [clearSticky_fatal, advance_fatal, hf]
  · rcases step_sticky hm ht with hkept | ⟨⟨off, v, hmove, hr, hd⟩, -⟩
    · exact ⟨hkept.record, hkept.drop⟩
    · exact absurd hd (hno off v hmove hr)

end Sys2Proof.Machine
end

section
/-! PROOF. The line code (30_encoding.md section 1) cell by cell: the level before each bit cell gives both its cells.
So the two polarities of a byte are complements, and a half with the transitions is the encoding of the byte it decodes
to. -/

namespace Sys2Proof.Machine

open Sys2Proof

/-! ## The cells of a half -/

theorem half_eq_of_cells {h h' : Half} (hc : ∀ k < 16, cell h k = cell h' k) : h = h' := by
  refine BitVec.eq_of_getLsbD_eq fun j hj => ?_
  have hk : 15 - (15 - j) = j := by omega
  simpa only [cell, hk] using hc (15 - j) (by omega)

/-- A half's cells are the two of each of its eight bit cells. -/
theorem half_eq_of_bitCells {h h' : Half}
    (hc : ∀ i < 8, cell h (2 * i) = cell h' (2 * i) ∧ cell h (2 * i + 1) = cell h' (2 * i + 1)) : h = h' := by
  refine half_eq_of_cells fun k hk => ?_
  rcases Nat.even_or_odd' k with ⟨i, rfl | rfl⟩
  · exact (hc i (by omega)).1
  · exact (hc i (by omega)).2

theorem cell_or (h h' : Half) (k : Nat) : cell (h ||| h') k = (cell h k || cell h' k) := BitVec.getLsbD_or

theorem cell_cellBit {k j : Nat} (hk : k < 16) (hj : j < 16) (c : Bool) :
    cell (cellBit k c) j = (c && decide (j = k)) := by
  cases c with
  | false => exact BitVec.getLsbD_zero
  | true =>
    have hbit : cell (cellBit k true) j = decide (15 - j = 15 - k) := by
      rw [cell, cellBit, if_pos rfl, ← BitVec.twoPow_eq, BitVec.getLsbD_twoPow]
      simp [show 15 - k < 16 by omega, eq_comm]
    rw [hbit, Bool.true_and]
    exact decide_eq_decide.mpr (by omega)

/-- The exclusive-or with `0xFFFF` inverts every cell. -/
theorem cell_complement (h : Half) (k : Nat) : cell (h ^^^ 0xFFFF#16) k = !cell h k := by
  have hones : (0xFFFF#16).getLsbD (15 - k) = true := by
    rw [show 0xFFFF#16 = BitVec.allOnes 16 from rfl, BitVec.getLsbD_allOnes, decide_eq_true_eq]
    omega
  rw [cell, BitVec.getLsbD_xor, hones, Bool.xor_true, cell]

/-- The test of the model, as R72 words it. -/
theorem startsWithTransitions_iff (h : Half) :
    startsWithTransitions h = true ↔ ∀ i : Nat, 1 ≤ i → i ≤ 7 → cell h (2 * i) ≠ cell h (2 * i - 1) := by
  simp only [startsWithTransitions, List.all_eq_true, List.mem_range, bne_iff_ne]
  constructor
  · intro hall i hlo hhi
    obtain ⟨j, rfl⟩ : ∃ j, i = j + 1 := ⟨i - 1, by omega⟩
    exact hall j (by omega)
  · intro hall j hj
    exact hall (j + 1) (by omega) (by omega)

/-! ## The cells of an encoding -/

/-- The line level before bit cell `i`, when the byte `v` is encoded from level `L` (30_encoding.md R72). -/
def lineLevel (v : Byte) (L : Bool) : Nat → Bool
  | 0 => L
  | i + 1 => !lineLevel v L i ^^ v.getLsbD i

/-- Starting from the other level inverts every level. -/
theorem lineLevel_not (v : Byte) (L : Bool) (i : Nat) : lineLevel v (!L) i = !lineLevel v L i := by
  induction i with
  | zero => rfl
  | succ i ih => rw [lineLevel, lineLevel, ih, Bool.not_xor]

/-- The first `n` bit cells of `h` are those of `v` from level `L`, and its other cells are still 0. -/
structure EncodedUpTo (v : Byte) (L : Bool) (n : Nat) (h : Half) : Prop where
  first : ∀ i < n, cell h (2 * i) = !lineLevel v L i
  second : ∀ i < n, cell h (2 * i + 1) = lineLevel v L (i + 1)
  rest : ∀ k < 16, 2 * n ≤ k → cell h k = false

theorem encodedUpTo_zero (v : Byte) (L : Bool) : EncodedUpTo v L 0 0#16 where
  first _ hi := absurd hi (Nat.not_lt_zero _)
  second _ hi := absurd hi (Nat.not_lt_zero _)
  rest _ _ _ := BitVec.getLsbD_zero

/-- One turn of the encoder's loop adds the two cells of bit cell `n` and leaves the other cells alone. -/
theorem cell_encLoop_turn {n k : Nat} (hn : n < 8) (hk : k < 16) (h : Half) (a b : Bool) :
    cell (h ||| cellBit (2 * n) a ||| cellBit (2 * n + 1) b) k =
      (cell h k || (a && decide (k = 2 * n)) || (b && decide (k = 2 * n + 1))) := by
  rw [cell_or, cell_or, cell_cellBit (by omega) hk, cell_cellBit (by omega) hk]

theorem EncodedUpTo.succ {v : Byte} {L : Bool} {n : Nat} {h : Half} (he : EncodedUpTo v L n h) (hn : n < 8) :
    EncodedUpTo v L (n + 1)
      (h ||| cellBit (2 * n) (!lineLevel v L n) ||| cellBit (2 * n + 1) (lineLevel v L (n + 1))) where
  first i hi := by
    rw [cell_encLoop_turn hn (by omega)]
    rcases Nat.lt_succ_iff_lt_or_eq.mp hi with hlt | rfl
    · simp [he.first i hlt, show i ≠ n by omega, show 2 * i ≠ 2 * n + 1 by omega]
    · simp [he.rest (2 * i) (by omega) (by omega)]
  second i hi := by
    rw [cell_encLoop_turn hn (by omega)]
    rcases Nat.lt_succ_iff_lt_or_eq.mp hi with hlt | rfl
    · simp [he.second i hlt, show i ≠ n by omega, show 2 * i + 1 ≠ 2 * n by omega]
    · simp [he.rest (2 * i + 1) (by omega) (by omega)]
  rest k hk hle := by
    rw [cell_encLoop_turn hn hk]
    simp [he.rest k hk (by omega), show k ≠ 2 * n by omega, show k ≠ 2 * n + 1 by omega]

/-- The loop's remaining turns complete the encoding. -/
theorem encLoop_encodedUpTo {v : Byte} {L : Bool} {m n : Nat} {h : Half} (he : EncodedUpTo v L n h)
    (hmn : n + m ≤ 8) : EncodedUpTo v L (n + m) (encLoop v m n (lineLevel v L n) h).1 := by
  induction m generalizing n h with
  | zero => exact he
  | succ m ih =>
    rw [show n + (m + 1) = n + 1 + m by omega]
    exact ih (he.succ (by omega)) (by omega)

theorem enc_encodedUpTo (v : Byte) (L : Bool) : EncodedUpTo v L 8 (enc v L).1 :=
  encLoop_encodedUpTo (m := 8) (n := 0) (encodedUpTo_zero v L) (Nat.le_refl 8)

/-- The first cell of bit cell `i` is a transition from the level before it. -/
theorem cell_enc_first (v : Byte) (L : Bool) {i : Nat} (hi : i < 8) :
    cell (enc v L).1 (2 * i) = !lineLevel v L i := (enc_encodedUpTo v L).first i hi

/-- The second cell of bit cell `i` is the level the bit cell ends on. -/
theorem cell_enc_second (v : Byte) (L : Bool) {i : Nat} (hi : i < 8) :
    cell (enc v L).1 (2 * i + 1) = lineLevel v L (i + 1) := (enc_encodedUpTo v L).second i hi

/-! ## Polarity -/

/-- From the other level the byte's pattern is the complement (30_encoding.md R73). -/
theorem enc_not (v : Byte) (L : Bool) : (enc v (!L)).1 = (enc v L).1 ^^^ 0xFFFF#16 := by
  refine half_eq_of_bitCells fun i hi => ?_
  rw [cell_complement, cell_complement, cell_enc_first v _ hi, cell_enc_first v _ hi, cell_enc_second v _ hi,
    cell_enc_second v _ hi, lineLevel_not, lineLevel_not]
  exact ⟨rfl, rfl⟩

/-- Settles O9: the complement from level 0, and the examples by evaluation. -/
theorem encodingsOfAByteAreComplements : Obligations.EncodingsOfAByteAreComplements :=
  ⟨fun v => enc_not v false, by decide⟩

/-- A bit cell's two cells are inverted together, so the bit they stand for is the same. -/
theorem refBit_complement (h : Half) (i : Nat) : refBit (h ^^^ 0xFFFF#16) i = refBit h i := by
  rw [refBit, cell_complement, cell_complement, Bool.not_xor_not, refBit]

theorem refSymtab_complement (h : Half) : refSymtab (h ^^^ 0xFFFF#16) = refSymtab h := by
  simp only [refSymtab, refBit_complement]

/-- Settles O12: an admissible table inverts the encoder at both levels, and the reference table reads bit cells. -/
theorem decodingIgnoresPolarity : Obligations.DecodingIgnoresPolarity :=
  ⟨fun _ hp v => ⟨hp v false, hp v true⟩, refSymtab_complement⟩

/-! ## The valid patterns -/

/-- Encoding the byte a half decodes to passes through the half's own levels, when its bit cells start with a
transition. -/
theorem lineLevel_refSymtab {h : Half} (hh : startsWithTransitions h = true) {i : Nat} (hi : i < 8) :
    lineLevel (refSymtab h) (!cell h 0) i = !cell h (2 * i) ∧
      lineLevel (refSymtab h) (!cell h 0) (i + 1) = cell h (2 * i + 1) := by
  have hsecond {i : Nat} (hi : i < 8) (hfirst : lineLevel (refSymtab h) (!cell h 0) i = !cell h (2 * i)) :
      lineLevel (refSymtab h) (!cell h 0) (i + 1) = cell h (2 * i + 1) := by
    rw [lineLevel, hfirst, refSymtab_getLsbD h hi, refBit, Bool.not_not, ← Bool.xor_assoc, Bool.xor_self,
      Bool.false_xor]
  induction i with
  | zero => exact ⟨rfl, hsecond hi rfl⟩
  | succ i ih =>
    have htransition : cell h (2 * i + 2) ≠ cell h (2 * i + 1) :=
      (startsWithTransitions_iff h).mp hh (i + 1) (by omega) (by omega)
    have hfirst : lineLevel (refSymtab h) (!cell h 0) (i + 1) = !cell h (2 * (i + 1)) := by
      rw [(ih (by omega)).2]
      exact Bool.eq_not.mpr htransition.symm
    exact ⟨hfirst, hsecond hi hfirst⟩

/-- A half whose bit cells start with a transition is the encoding of the byte it decodes to, from the level its first
cell leaves. -/
theorem enc_refSymtab {h : Half} (hh : startsWithTransitions h = true) : (enc (refSymtab h) (!cell h 0)).1 = h := by
  refine half_eq_of_bitCells fun i hi => ?_
  obtain ⟨hfirst, hsecond⟩ := lineLevel_refSymtab hh hi
  rw [cell_enc_first _ _ hi, cell_enc_second _ _ hi, hfirst, hsecond, Bool.not_not]
  exact ⟨rfl, rfl⟩

/-- The first cell of a pattern gives the level, and the reference table gives the byte. -/
theorem enc_injective {v v' : Byte} {L L' : Bool} (he : (enc v L).1 = (enc v' L').1) : v = v' ∧ L = L' := by
  have hlevel : (!L) = !L' :=
    calc (!L) = cell (enc v L).1 0 := (cell_enc_first v L (i := 0) (by decide)).symm
      _ = cell (enc v' L').1 0 := by rw [he]
      _ = !L' := cell_enc_first v' L' (i := 0) (by decide)
  exact ⟨by rw [← refSymtab_enc v L, he, refSymtab_enc], Bool.not_inj hlevel⟩

theorem exists_enc_iff (h : Half) : (∃ v L, (enc v L).1 = h) ↔ startsWithTransitions h = true := by
  constructor
  · rintro ⟨v, L, rfl⟩
    exact startsWithTransitions_enc v L
  · exact fun hh => ⟨_, _, enc_refSymtab hh⟩

/-- Settles O10: the encodings are the halves that pass the test of R72, and the encoder is injective. -/
theorem validPatternsAreTheTransitionPatterns : Obligations.ValidPatternsAreTheTransitionPatterns :=
  ⟨fun h => (exists_enc_iff h).trans (startsWithTransitions_iff h), fun _ _ _ _ => enc_injective⟩

end Sys2Proof.Machine
end

section
/-! PROOF. Which move a step takes (00_scope.md R5), and how many payloads a run has submitted (43_accumulator_framer.md
section 3). -/

namespace Sys2Proof.Machine

open Sys2Proof

/-! ## The next move -/

theorem step_drawn {s : State} (h : s.agenda = []) :
    step s = takeMove (Config.freeMove s.draws) { s with draws := s.draws + 1 } := by
  simp only [step, State.nextMove, State.advance, h]

/-- Settles O7. -/
theorem stepTakesThePlacedOrTheFreeMove : Obligations.StepTakesThePlacedOrTheFreeMove := fun _ =>
  ⟨fun _ _ => step_placed, step_drawn⟩

/-! ## The number of payloads -/

theorem observedRun_inv {k : Nat} {s t : State} {h h' : History} (hrun : observedRun k s h = some (t, h'))
    (hs : s.Inv) : t.Inv :=
  observedRun_induction (P := fun s _ => s.Inv) (fun _ _ _ => step_inv) hrun hs

/-- Payloads of one chunk each carry CHUNK bytes each. -/
theorem length_flatten_payloads {p : Params} {pls : List (List Byte)} (hpls : ∀ pl ∈ pls, IsPayload p pl) :
    (pls.map fun pl => pl.drop 5).flatten.length = p.chunk * pls.length := by
  induction pls with
  | nil => rfl
  | cons pl pls ih =>
    obtain ⟨⟨hlen, -⟩, hrest⟩ := List.forall_mem_cons.mp hpls
    rw [List.map_cons, List.flatten_cons, List.length_append, List.length_drop, hlen, ih hrest, List.length_cons,
      Nat.mul_succ]
    omega

/-- The appended bytes are CHUNK for each payload and what is left in the accumulator. -/
theorem appended_length {p : Params} {s : State} {h : History} (hs : s.Inv) (hc : h.Conserved s)
    (hpls : ∀ pl ∈ h.submitted, IsPayload p pl) : h.appended.length = p.chunk * h.submitted.length + s.fill := by
  obtain ⟨-, hfill⟩ := hs.acc
  rw [← hc, List.length_append, length_flatten_payloads hpls, hfill]

/-- Settles O55: the bytes are conserved and every payload holds one chunk, so FILL is the remainder once it is below
CHUNK. -/
theorem payloadCountIsAppendedBytesDivChunk : Obligations.PayloadCountIsAppendedBytesDivChunk := by
  intro p ms k s h hp hrun hshort
  obtain ⟨-, hconserved⟩ := submittedBytesAreTheAppendedBytes
  have happended := appended_length (observedRun_inv hrun (resetOf_placed_inv hp ms)) (hconserved p ms k s h hp hrun)
    (everySubmittedPayloadIsHeaderAndChunk p ms k s h hp hrun)
  rw [Nat.add_comm] at happended
  obtain ⟨hdiv, hmod⟩ := (Nat.div_mod_unique hp.chunk.1).mpr ⟨happended.symm, hshort⟩
  exact ⟨hdiv.symm, hmod.symm⟩

end Sys2Proof.Machine
end
